-- ==== Sys2Proof/Word.lean ====
section
/-! DEFINITION. The words of HUFFCORE: the widths of its parameters (00_scope.md R6) and a bit-string as the
pair of a length and a vector (00_scope.md R10). Operations over them stand in Machine/Bits.lean. -/

namespace Sys2Proof

/-- A Symbol: one byte (R7). -/
abbrev Sym := BitVec 8

/-- A frequency-table count, FREQ_W = 32 bits (R6, R24). -/
abbrev Count := BitVec 32

/-- A tree node's frequency, NFREQ_W = 40 bits (R6, R26). -/
abbrev Freq := BitVec 40

/-- A node index, IDX_W = 9 bits (R6, R26). -/
abbrev Idx := BitVec 9

/-- A command word, CMD_W = 64 bits (R6, R90). -/
abbrev Cmd := BitVec 64

/-- A bit-string of length at most LMAX = 255 as `(len, bits)`: bit i of the string is bit i of `bits` (R10). -/
structure BitStr where
  len  : BitVec 8
  bits : BitVec 255
deriving DecidableEq, Repr

end Sys2Proof
end

