-- ==== Sys2Proof/Config.lean ====
section
/-! DEFINITION. What is fixed for this hardware: the parameters of 00_scope.md R6 that are numbers and not widths,
and the constant of the ID register (10_state.md R42). The spec leaves no value free that a command can observe, so
no uninterpreted constant stands here. -/

namespace Sys2Proof.Config

/-- NSYM: number of distinct Symbols (R6). -/
abbrev nsym : Nat := 256

/-- NNODE: entries of the node arena, 2·NSYM − 1 (R6). -/
abbrev nnode : Nat := 511

/-- LMAX: greatest codeword length, NSYM − 1 (R6). -/
abbrev lmax : Nat := 255

/-- ICT_N: entries the inverse code table can hold (R6). -/
abbrev ictN : Nat := 256

/-- BEAT_W: bits of one beat and of a bit-group immediate (R6). -/
abbrev beatW : Nat := 32

/-- The value the ID register reads (R42). -/
def idValue : BitVec 64 := 0x0000000148554646#64

end Sys2Proof.Config
end

