-- ==== Sys2Proof/Machine/Operands.lean ====
section
/-! DEFINITION. The operand forms of a command: the legal ranges of field a as a bit count and of field b as a chunk
number, a register number or a node index (30_encoding.md R92, R98). A Symbol, a 32-bit count and a group of bits
have no illegal value. -/

namespace Sys2Proof.Machine

/-- Field a read as a bit count n by DBITS and CWAPP: 1 to 32 (R92). -/
def legalBitCount (n : BitVec 8) : Bool := 1 ≤ n.toNat && n.toNat ≤ Config.beatW

/-- Field b read as a chunk number j by CWRD: 0 to 7 (R92). -/
def legalChunk (j : BitVec 16) : Bool := j.toNat ≤ 7

/-- Field b read as a register number n by CSRR: 0 to 7 (R92). -/
def legalCsr (n : BitVec 16) : Bool := n.toNat ≤ 7

/-- Field b read as a node index i by NRD: below NN (R92); the one range that depends on state (R97). -/
def legalNode (i : BitVec 16) (nn : Idx) : Bool := i.toNat < nn.toNat

/-- Field b of NRD as a 9-bit node index; the same number whenever it is legal, since NN is at most 511 (R62). -/
def nodeIndex (i : BitVec 16) : Idx := i.setWidth 9

end Sys2Proof.Machine
end

