-- ==== Sys2Proof/Syntax.lean ====
section
/-! DEFINITION. The command set of HUFFCORE, one constructor per row of spec/opcode_table.json (30_encoding.md R96).
An operand is the field of the command word as it stands (R92); whether its value is legal is WellFormed's. -/

namespace Sys2Proof

/-- The 25 commands (R96), in the table's order. -/
inductive Instr where
  /-- NOP, R200 -/
  | nop
  /-- SRST, R201 -/
  | srst
  /-- ECLR, R202 -/
  | eclr
  /-- CSRR n, R203 -/
  | csrr (n : BitVec 16)
  /-- FCLR, R120 -/
  | fclr
  /-- FSET s, count, R121 -/
  | fset (s : Sym) (count : Count)
  /-- FINC s, R122 -/
  | finc (s : Sym)
  /-- FRD s, R123 -/
  | frd (s : Sym)
  /-- BUILD, R131 -/
  | build
  /-- NRD i, R138 -/
  | nrd (i : BitVec 16)
  /-- DERIVE, R150 -/
  | derive
  /-- ENC s, R160 -/
  | enc (s : Sym)
  /-- EFLUSH, R163 -/
  | eflush
  /-- DBITS n, bits, R170 -/
  | dbits (n : BitVec 8) (bits : BitVec 32)
  /-- DEND, R172 -/
  | dend
  /-- DRST, R173 -/
  | drst
  /-- CWCLR, R180 -/
  | cwclr
  /-- CWAPP n, bits, R181 -/
  | cwapp (n : BitVec 8) (bits : BitVec 32)
  /-- CWRD j, R182 -/
  | cwrd (j : BitVec 16)
  /-- CCLR, R185 -/
  | cclr
  /-- CLD s, R186 -/
  | cld (s : Sym)
  /-- CRD s, R187 -/
  | crd (s : Sym)
  /-- ICLR, R188 -/
  | iclr
  /-- ILD s, R189 -/
  | ild (s : Sym)
  /-- ILK, R190 -/
  | ilk
deriving DecidableEq, Repr

end Sys2Proof
end

