-- ==== Sys2Proof/WellFormed.lean ====
section
/-! DEFINITION. Well-formed commands: those whose operands lie in the legal ranges that do not depend on state
(30_encoding.md R92, R97). -/

namespace Sys2Proof

open Machine

/-- The static operand ranges of R97: n of DBITS and CWAPP, j of CWRD, n of CSRR. -/
def Instr.operandsInRange : Instr → Bool
  | .nop => true
  | .srst => true
  | .eclr => true
  | .csrr n => legalCsr n
  | .fclr => true
  | .fset _ _ => true
  | .finc _ => true
  | .frd _ => true
  | .build => true
  | .nrd _ => true
  | .derive => true
  | .enc _ => true
  | .eflush => true
  | .dbits n _ => legalBitCount n
  | .dend => true
  | .drst => true
  | .cwclr => true
  | .cwapp n _ => legalBitCount n
  | .cwrd j => legalChunk j
  | .cclr => true
  | .cld _ => true
  | .crd _ => true
  | .iclr => true
  | .ild _ => true
  | .ilk => true

/-- A command that decoding can yield (R97). -/
abbrev WellFormed (i : Instr) : Prop := i.operandsInRange = true

end Sys2Proof
end

