-- ==== Sys2Proof/Decode.lean ====
section
/-! DEFINITION. The decoder (30_encoding.md R90, R91, R96 to R98): a total function of the 64 bits of a command word,
rejecting by sub-cause. After it the encoder, written from the same tables, and the host's `decodeTableWord`. -/

namespace Sys2Proof

/-- Why a word is illegal; the number is the sub-cause in ERRINFO[1:0] (R98, R211). -/
inductive IllegalCause where
  /-- sub-cause 1: the opcode is unassigned -/
  | unassignedOpcode
  /-- sub-cause 2: a reserved field is not zero -/
  | reservedNotZero
  /-- sub-cause 3: an operand is out of range -/
  | operandOutOfRange
deriving DecidableEq, Repr

/-- The four fields of a command word (R90). -/
def opField (w : Cmd) : BitVec 8 := w.extractLsb' 56 8

/-- Field a, bits 55 to 48 (R90). -/
def aField (w : Cmd) : BitVec 8 := w.extractLsb' 48 8

/-- Field b, bits 47 to 32 (R90). -/
def bField (w : Cmd) : BitVec 16 := w.extractLsb' 32 16

/-- Field imm, bits 31 to 0 (R90). -/
def immField (w : Cmd) : BitVec 32 := w.extractLsb' 0 32

/-- The four formats (R91). -/
inductive Format where
  /-- no field used -/
  | Z
  /-- field a used -/
  | A
  /-- field b used -/
  | B
  /-- fields a and imm used -/
  | AI
deriving DecidableEq, Repr

/-- The mask of R91: a 1 in every bit of op and of the reserved fields. -/
def Format.mask : Format → Cmd
  | .Z => 0xFFFFFFFFFFFFFFFF#64
  | .A => 0xFF00FFFFFFFFFFFF#64
  | .B => 0xFFFF0000FFFFFFFF#64
  | .AI => 0xFF00FFFF00000000#64

/-- Every bit of the fields the format reserves is 0 (R91). -/
def Format.reservedZero (f : Format) (w : Cmd) : Bool :=
  match f with
  | .Z => aField w == 0 && bField w == 0 && immField w == 0
  | .A => bField w == 0 && immField w == 0
  | .B => aField w == 0 && immField w == 0
  | .AI => bField w == 0

/-- The opcode map (R96): an opcode's format, and the command its fields a, b and imm make. -/
def opcodeRow (op : BitVec 8) : Option (Format × (BitVec 8 → BitVec 16 → BitVec 32 → Instr)) :=
  match op.toNat with
  | 0x00 => some (.Z, fun _ _ _ => .nop)
  | 0x01 => some (.Z, fun _ _ _ => .srst)
  | 0x02 => some (.Z, fun _ _ _ => .eclr)
  | 0x03 => some (.B, fun _ b _ => .csrr b)
  | 0x10 => some (.Z, fun _ _ _ => .fclr)
  | 0x11 => some (.AI, fun a _ imm => .fset a imm)
  | 0x12 => some (.A, fun a _ _ => .finc a)
  | 0x13 => some (.A, fun a _ _ => .frd a)
  | 0x20 => some (.Z, fun _ _ _ => .build)
  | 0x21 => some (.B, fun _ b _ => .nrd b)
  | 0x30 => some (.Z, fun _ _ _ => .derive)
  | 0x40 => some (.A, fun a _ _ => .enc a)
  | 0x41 => some (.Z, fun _ _ _ => .eflush)
  | 0x50 => some (.AI, fun a _ imm => .dbits a imm)
  | 0x51 => some (.Z, fun _ _ _ => .dend)
  | 0x52 => some (.Z, fun _ _ _ => .drst)
  | 0x60 => some (.Z, fun _ _ _ => .cwclr)
  | 0x61 => some (.AI, fun a _ imm => .cwapp a imm)
  | 0x62 => some (.B, fun _ b _ => .cwrd b)
  | 0x68 => some (.Z, fun _ _ _ => .cclr)
  | 0x69 => some (.A, fun a _ _ => .cld a)
  | 0x6A => some (.A, fun a _ _ => .crd a)
  | 0x70 => some (.Z, fun _ _ _ => .iclr)
  | 0x71 => some (.A, fun a _ _ => .ild a)
  | 0x72 => some (.Z, fun _ _ _ => .ilk)
  | _ => none

/-- Decoding, in the order of R97: opcode, reserved fields, static operand ranges. -/
def decode (w : Cmd) : Except IllegalCause Instr :=
  match opcodeRow (opField w) with
  | none => .error .unassignedOpcode
  | some (f, make) =>
    if f.reservedZero w then
      let i := make (aField w) (bField w) (immField w)
      if i.operandsInRange then .ok i else .error .operandOutOfRange
    else .error .reservedNotZero

/-- A command word from its four fields: op << 56 | a << 48 | b << 32 | imm (R90, R100). -/
def packWord (op a : BitVec 8) (b : BitVec 16) (imm : BitVec 32) : Cmd :=
  (op ++ a ++ b ++ imm : BitVec (8 + 8 + 16 + 32))

/-- The opcode of a command (R96). -/
def Instr.opcode : Instr → BitVec 8
  | .nop => 0x00
  | .srst => 0x01
  | .eclr => 0x02
  | .csrr _ => 0x03
  | .fclr => 0x10
  | .fset _ _ => 0x11
  | .finc _ => 0x12
  | .frd _ => 0x13
  | .build => 0x20
  | .nrd _ => 0x21
  | .derive => 0x30
  | .enc _ => 0x40
  | .eflush => 0x41
  | .dbits _ _ => 0x50
  | .dend => 0x51
  | .drst => 0x52
  | .cwclr => 0x60
  | .cwapp _ _ => 0x61
  | .cwrd _ => 0x62
  | .cclr => 0x68
  | .cld _ => 0x69
  | .crd _ => 0x6A
  | .iclr => 0x70
  | .ild _ => 0x71
  | .ilk => 0x72

/-- The format of a command (R96). -/
def Instr.format : Instr → Format
  | .nop => .Z
  | .srst => .Z
  | .eclr => .Z
  | .csrr _ => .B
  | .fclr => .Z
  | .fset _ _ => .AI
  | .finc _ => .A
  | .frd _ => .A
  | .build => .Z
  | .nrd _ => .B
  | .derive => .Z
  | .enc _ => .A
  | .eflush => .Z
  | .dbits _ _ => .AI
  | .dend => .Z
  | .drst => .Z
  | .cwclr => .Z
  | .cwapp _ _ => .AI
  | .cwrd _ => .B
  | .cclr => .Z
  | .cld _ => .A
  | .crd _ => .A
  | .iclr => .Z
  | .ild _ => .A
  | .ilk => .Z

/-- The operand fields (a, b, imm) of a command; a field its format does not use is 0 (R91, R96). -/
def Instr.fields : Instr → BitVec 8 × BitVec 16 × BitVec 32
  | .nop => (0, 0, 0)
  | .srst => (0, 0, 0)
  | .eclr => (0, 0, 0)
  | .csrr n => (0, n, 0)
  | .fclr => (0, 0, 0)
  | .fset s count => (s, 0, count)
  | .finc s => (s, 0, 0)
  | .frd s => (s, 0, 0)
  | .build => (0, 0, 0)
  | .nrd i => (0, i, 0)
  | .derive => (0, 0, 0)
  | .enc s => (s, 0, 0)
  | .eflush => (0, 0, 0)
  | .dbits n bits => (n, 0, bits)
  | .dend => (0, 0, 0)
  | .drst => (0, 0, 0)
  | .cwclr => (0, 0, 0)
  | .cwapp n bits => (n, 0, bits)
  | .cwrd j => (0, j, 0)
  | .cclr => (0, 0, 0)
  | .cld s => (s, 0, 0)
  | .crd s => (s, 0, 0)
  | .iclr => (0, 0, 0)
  | .ild s => (s, 0, 0)
  | .ilk => (0, 0, 0)

/-- The encoder: the word of a command (R96, R100). Every bit of a command word is an operand, an opcode or a
reserved bit, so a legal word is the encoding of the command it decodes to. -/
def encode (i : Instr) : Cmd :=
  packWord i.opcode i.fields.1 i.fields.2.1 i.fields.2.2

/-- The host's question: the command the decoder reads from the word whose low `nbits` bits are those of `w` and whose
other bits are 0. A command word is one 64-bit word, so the table's numbering is the word's own (R90). -/
def decodeTableWord (nbits w : Nat) : Option Instr :=
  match decode (BitVec.ofNat 64 (w % 2 ^ nbits)) with
  | .ok i => some i
  | .error _ => none

end Sys2Proof
end

