-- ==== Sys2Proof/Machine/State.lean ====
section
/-! DEFINITION. The state of HUFFCORE (10_state.md R20), the reasons a step can stop, and the state after reset
(10_state.md R50). All of it is plain data. -/

namespace Sys2Proof.Machine

/-- The phase PH (R21): one bit, 0 RUN, 1 FAULT. -/
inductive Phase where
  /-- 0: every command executes -/
  | run
  /-- 1: a fault is held; only NOP, CSRR, ECLR and SRST execute -/
  | fault
deriving DecidableEq, Repr

/-- A table: (key, entry) pairs, keys strictly rising, no pair whose entry is what an unlisted key reads as
(Machine/Tables.lean). -/
abbrev Table (κ β : Type) := List (κ × β)

/-- One entry of the node arena (R26), "a tagged variant": a field the kind does not use reads 0. -/
inductive Node where
  /-- kind 0 -/
  | leaf (freq : Freq) (sym : Sym)
  /-- kind 1; `left` is the 0-branch, `right` the 1-branch -/
  | internal (freq : Freq) (left right : Idx)
deriving DecidableEq, Repr

/-- One entry of CT (R29): `valid`, and the codeword `(len, bits)`, which no rule reads while `valid` is 0. -/
structure CodeEntry where
  valid : Bool
  code  : BitStr
deriving DecidableEq, Repr

/-- The bit-packer PK (R32): `cnt` bits held in `buf`, the oldest in bit 0. -/
structure Packer where
  cnt : BitVec 5
  buf : BitVec 32
deriving DecidableEq, Repr

/-- The decoder accumulator ACC (R33): the bits not yet matched, and `ovf`: more than 255 have come. -/
structure Accumulator where
  str : BitStr
  ovf : Bool
deriving DecidableEq, Repr

/-- One beat of EO (R34, R95): `data` and how many of its bits are valid, 1 to 32. -/
structure Beat where
  data : BitVec 32
  cnt  : BitVec 6
deriving DecidableEq, Repr

/-- A response (R93): 4 bits of error code, 64 bits of data. -/
structure Response where
  err  : BitVec 4
  data : BitVec 64
deriving DecidableEq, Repr

/-- What the host does next: present a command word (R66), or assert `rst` (R250). -/
inductive HostAction where
  /-- a word on the command port -/
  | command (w : Cmd)
  /-- a hardware reset -/
  | reset
deriving DecidableEq, Repr

/-- The state. PH to DO are the block's (R20), under the spec's names. RSP, script and pc are the model's own, for
the host side of the ports: the responses given so far, what the host will do, and the index of its next action (R23). -/
structure State where
  PH      : Phase
  ERRCODE : BitVec 4
  ERRCMD  : BitVec 64
  ERRINFO : BitVec 64
  FT      : Table Sym Count
  NODE    : Table Idx Node
  NN      : Idx
  ROOT    : Idx
  TV      : Bool
  CT      : Table Sym CodeEntry
  ICT     : Table BitStr Sym
  CW      : BitStr
  PK      : Packer
  ACC     : Accumulator
  EO      : List Beat
  DO      : List Sym
  RSP     : List Response
  script  : List HostAction
  pc      : Nat
deriving DecidableEq, Repr

/-- Why the machine stops. HUFFCORE's own faults are no stop: they are states in phase FAULT (60_exceptions.md R222). -/
inductive Fault where
  /-- Raised by DERIVE when TV = 1 but its walk leaves the entries below NN, does not end, or makes a codeword longer
  than 255 bits: the arena is no tree in the sense of R28. Safe: no rule says what such a walk does, and every
  state reached from reset satisfies R28. -/
  | walkUndefined
deriving DecidableEq, Repr

/-- Why a command has no meaning. -/
inductive Refusal where
  /-- Raised by `exec` for a command that has no meaning yet. Safe: the machine stops. No arm raises it. -/
  | notModelled (mnemonic : String)
deriving DecidableEq, Repr

/-- What a command ends in. -/
abbrev Result := Host.Outcome State Fault Refusal

/-- The empty bit-string (R10, R31). -/
def emptyStr : BitStr := { len := 0, bits := 0 }

/-- What an entry of NODE that nothing has written reads as.
DESIGN CHOICE (log 1, unsafe): the spec leaves it unspecified and unread (R26, R50). -/
def unwrittenNode : Node := .leaf 0 0

/-- What an entry of CT that nothing has written reads as: valid 0 (R50).
DESIGN CHOICE (log 2, unsafe): its len and bits, which the spec leaves unspecified and unread (R29, R50). -/
def unwrittenEntry : CodeEntry := { valid := false, code := emptyStr }

/-- The state after hardware reset (R50, R250). -/
def State.reset : State where
  PH      := .run
  ERRCODE := 0
  ERRCMD  := 0
  ERRINFO := 0
  FT      := []
  NODE    := []
  NN      := 0
  ROOT    := 0
  TV      := false
  CT      := []
  ICT     := []
  CW      := emptyStr
  PK      := { cnt := 0, buf := 0 }
  ACC     := { str := emptyStr, ovf := false }
  EO      := []
  DO      := []
  RSP     := []
  script  := []
  pc      := 0

end Sys2Proof.Machine
end

