-- ==== Sys2Proof/Machine/Errors.lean ====
section
/-! DEFINITION. The errors a command can raise, their codes and what ERRINFO records of each (60_exceptions.md R210 to
R219). -/

namespace Sys2Proof.Machine

/-- Which finite resource would overflow; the number is the sub-cause in ERRINFO[1:0] (R211). -/
inductive CapacityCause where
  /-- sub-cause 1: FINC at count 2^32 − 1 -/
  | countOverflow
  /-- sub-cause 2: CWAPP beyond 255 bits -/
  | codewordTooLong
  /-- sub-cause 3: ILD of a new key into a full table -/
  | inverseTableFull
deriving DecidableEq, Repr

/-- The errors (R210), each with what its ERRINFO shows (R211). -/
inductive CmdError where
  /-- BUILD on an empty frequency table (R212) -/
  | invalidInput
  /-- ENC of a Symbol with no entry (R213) -/
  | unknownSymbol (s : Sym)
  /-- DEND with a non-empty accumulator (R214) -/
  | truncatedStream (len : BitVec 8) (ovf : Bool)
  /-- ILD of a codeword already there for another Symbol (R215) -/
  | duplicateCode (held new : Sym)
  /-- CLD or ILD of an empty codeword (R216) -/
  | malformedRecord
  /-- a word that is no command, or an operand out of range (R217) -/
  | illegalCommand (cause : IllegalCause)
  /-- DERIVE or NRD with no tree (R218) -/
  | sequenceError
  /-- a finite resource would overflow (R219) -/
  | capacity (cause : CapacityCause)
deriving DecidableEq, Repr

/-- The sub-cause number of an IllegalCommand (R211). -/
def illegalNumber : IllegalCause → BitVec 2
  | .unassignedOpcode => 1
  | .reservedNotZero => 2
  | .operandOutOfRange => 3

/-- The sub-cause number of a CapacityError (R211). -/
def capacityNumber : CapacityCause → BitVec 2
  | .countOverflow => 1
  | .codewordTooLong => 2
  | .inverseTableFull => 3

/-- code(E) (R210). -/
def errorCode : CmdError → BitVec 4
  | .invalidInput => 1
  | .unknownSymbol _ => 2
  | .truncatedStream _ _ => 3
  | .duplicateCode _ _ => 4
  | .malformedRecord => 5
  | .illegalCommand _ => 6
  | .sequenceError => 7
  | .capacity _ => 8

/-- The 64-bit value a fault records (R211). -/
def errorInfo : CmdError → BitVec 64
  | .invalidInput => 0
  | .unknownSymbol s => s.setWidth 64
  | .truncatedStream len ovf => (0#55 ++ BitVec.ofBool ovf ++ len : BitVec (55 + 1 + 8))
  | .duplicateCode held new => (0#48 ++ new ++ held : BitVec (48 + 8 + 8))
  | .malformedRecord => 0
  | .illegalCommand cause => (illegalNumber cause).setWidth 64
  | .sequenceError => 0
  | .capacity cause => (capacityNumber cause).setWidth 64

/-- err of a refused command (R220). -/
def refusedCode : BitVec 4 := 15

end Sys2Proof.Machine
end

