-- ==== Sys2Proof/Machine/Bits.lean ====
section
/-! DEFINITION. Bits and bit-strings (00_scope.md R9, R10; 20_memory.md R68 to R72): the earlier bit of a sequence is
the less significant bit of the vector that holds it. -/

namespace Sys2Proof.Machine

/-- `v[i] <- x` (R11). -/
def setBit {w : Nat} (v : BitVec w) (i : Nat) (x : Bool) : BitVec w :=
  if x then v ||| (1#w <<< i) else v &&& ~~~(1#w <<< i)

/-- The bits v[0], v[1], …, v[n − 1], in that order: a codeword (R10), a beat's valid bits (R69), the bits of
`DBITS n, v` (R70) or of `CWAPP n, v` (R72). -/
def bitsOf {w : Nat} (v : BitVec w) (n : Nat) : List Bool := (List.range n).map v.getLsbD

/-- The number whose bit i is the i-th of the list. -/
def natOfBits : List Bool → Nat
  | [] => 0
  | x :: xs => x.toNat + 2 * natOfBits xs

end Sys2Proof.Machine

namespace Sys2Proof.BitStr

open Machine

/-- str(len, bits): the bit-string a pair holds (R10). -/
def toList (c : BitStr) : List Bool := bitsOf c.bits c.len.toNat

/-- pair(c): the pair that holds a bit-string of length at most 255 (R10). -/
def ofList (l : List Bool) : BitStr :=
  { len := BitVec.ofNat 8 l.length, bits := BitVec.ofNat 255 (natOfBits l) }

/-- Canonical form: bits[i] = 0 for i ≥ len (R10). -/
abbrev Canonical (c : BitStr) : Prop := c.bits >>> c.len.toNat = 0

/-- One bit after those already there: `bits[len] <- x ; len <- len + 1` (R171). -/
def push (c : BitStr) (x : Bool) : BitStr :=
  { len := c.len + 1, bits := setBit c.bits c.len.toNat x }

/-- A list of bits after those already there: `bits[len + i] <- l_i` for each i, then `len <- len + n` (R181). -/
def append (c : BitStr) (l : List Bool) : BitStr := l.foldl push c

/-- A number for a bit-string, one for each pair: the place of a key in the list that holds ICT (log 12). -/
def key (c : BitStr) : Nat := (c.bits ++ c.len : BitVec (255 + 8)).toNat

end Sys2Proof.BitStr
end

