-- ==== Sys2Proof/Machine/Tables.lean ====
section
/-! DEFINITION. The tables (20_memory.md R60, R61): a table is a list of (key, entry) pairs in one canonical form (log
12), and every access moves one whole entry. `ord` numbers the keys; it decides only where a pair stands in the list. -/

namespace Sys2Proof.Machine.Table

variable {κ β : Type} [DecidableEq κ]

/-- The entry listed for a key, if any. -/
def find? : Table κ β → κ → Option β
  | [], _ => none
  | (k', v) :: t, k => if k' = k then some v else find? t k

/-- The table without the pairs of a key. -/
def erase (t : Table κ β) (k : κ) : Table κ β := t.filter (fun p => p.1 ≠ k)

/-- A pair put before the first pair with a greater key. -/
def insertSorted (ord : κ → Nat) (k : κ) (v : β) : Table κ β → Table κ β
  | [] => [(k, v)]
  | p :: t => if ord k < ord p.1 then (k, v) :: p :: t else p :: insertSorted ord k v t

/-- `T[k] <- v` for a table whose absent entries are absent (ICT). -/
def put (ord : κ → Nat) (t : Table κ β) (k : κ) (v : β) : Table κ β :=
  insertSorted ord k v (erase t k)

/-- `T[k]` for a table every key of which has an entry; an unlisted key reads as `d`. -/
def get (d : β) (t : Table κ β) (k : κ) : β := (find? t k).getD d

/-- `T[k] <- v` for such a table; writing `d` leaves the key unlisted. -/
def set [DecidableEq β] (ord : κ → Nat) (d : β) (t : Table κ β) (k : κ) (v : β) : Table κ β :=
  if v = d then erase t k else put ord t k v

/-- `T[k] <- f(T[k])` for every key, for an f that keeps `d`. -/
def mapAll [DecidableEq β] (ord : κ → Nat) (d : β) (f : β → β) (t : Table κ β) : Table κ β :=
  t.foldr (fun p acc => set ord d acc p.1 (f p.2)) []

/-- The keys are strictly rising. -/
abbrev Rising (ord : κ → Nat) (t : Table κ β) : Prop := (t.map (fun p => ord p.1)).Pairwise (· < ·)

/-- The canonical form: keys strictly rising, no listed entry equal to what an unlisted key reads as. -/
abbrev Canonical [DecidableEq β] (ord : κ → Nat) (d : β) (t : Table κ β) : Prop :=
  Rising ord t ∧ ∀ p ∈ t, p.2 ≠ d

end Sys2Proof.Machine.Table
end

