-- ==== Sys2Proof/Machine/Flags.lean ====
section
/-! DEFINITION. Reading the tables, the quantities computed from them (10_state.md R25, R29, R30), the flags and the
eight control and status registers (R39 to R49), and the `fault` line (60_exceptions.md R228). -/

namespace Sys2Proof.Machine

/-- The 256 Symbols in ascending order. -/
def allSyms : List Sym := (List.range Config.nsym).map (BitVec.ofNat 8)

namespace State

/-- FT[x] (R24). -/
def ft (s : State) (x : Sym) : Count := Table.get 0 s.FT x

/-- NODE[i] (R26). -/
def node (s : State) (i : Idx) : Node := Table.get unwrittenNode s.NODE i

/-- CT[x] (R29). -/
def ct (s : State) (x : Sym) : CodeEntry := Table.get unwrittenEntry s.CT x

/-- ICT.lookup(c) (R11, R30). -/
def ict (s : State) (c : BitStr) : Option Sym := Table.find? s.ICT c

/-- K(FT): the number of Symbols with a count that is not 0 (R25). -/
def K (s : State) : Nat := (allSyms.filter (fun x => s.ft x ≠ 0)).length

/-- TOTAL(FT): the sum of the counts (R25). -/
def TOTAL (s : State) : Nat := (allSyms.map (fun x => (s.ft x).toNat)).sum

/-- CTN: the number of valid entries of CT (R29). -/
def CTN (s : State) : Nat := (allSyms.filter (fun x => (s.ct x).valid)).length

/-- ICTN: the number of entries of ICT (R30). -/
def ICTN (s : State) : Nat := s.ICT.length

/-- The output line `fault`, equal to PH at all times (R228). -/
def faultLine (s : State) : Bool := s.PH = .fault

end State

/-- PH as a bit: 0 RUN, 1 FAULT (R21). -/
def Phase.bit : Phase → BitVec 1
  | .run => 0
  | .fault => 1

/-- STATUS (R43). -/
def statusReg (s : State) : BitVec 64 :=
  (0#52 ++ s.ERRCODE
    ++ BitVec.ofBool (0 < s.CW.len.toNat) ++ BitVec.ofBool (0 < s.PK.cnt.toNat)
    ++ BitVec.ofBool s.ACC.ovf ++ BitVec.ofBool (0 < s.ACC.str.len.toNat)
    ++ BitVec.ofBool (0 < s.ICTN) ++ BitVec.ofBool (0 < s.CTN)
    ++ BitVec.ofBool s.TV ++ s.PH.bit : BitVec (52 + 4 + 1 + 1 + 1 + 1 + 1 + 1 + 1 + 1))

/-- TREEINFO (R46). -/
def treeInfoReg (s : State) : BitVec 64 := (0#39 ++ s.NN ++ 0#7 ++ s.ROOT : BitVec (39 + 9 + 7 + 9))

/-- FTINFO (R47). -/
def ftInfoReg (s : State) : BitVec 64 :=
  (BitVec.ofNat 40 s.TOTAL ++ 0#15 ++ BitVec.ofNat 9 s.K : BitVec (40 + 15 + 9))

/-- TABINFO (R48). -/
def tabInfoReg (s : State) : BitVec 64 :=
  (0#39 ++ BitVec.ofNat 9 s.ICTN ++ 0#7 ++ BitVec.ofNat 9 s.CTN : BitVec (39 + 9 + 7 + 9))

/-- REGINFO (R49). -/
def regInfoReg (s : State) : BitVec 64 :=
  (0#35 ++ s.PK.cnt ++ 0#7 ++ BitVec.ofBool s.ACC.ovf ++ s.ACC.str.len ++ s.CW.len :
    BitVec (35 + 5 + 7 + 1 + 8 + 8))

/-- CSR[n] for n from 0 to 7 (R39); every other number is unassigned. -/
def csr (s : State) (n : BitVec 16) : Option (BitVec 64) :=
  match n.toNat with
  | 0 => some Config.idValue
  | 1 => some (statusReg s)
  | 2 => some s.ERRCMD
  | 3 => some s.ERRINFO
  | 4 => some (treeInfoReg s)
  | 5 => some (ftInfoReg s)
  | 6 => some (tabInfoReg s)
  | 7 => some (regInfoReg s)
  | _ => none

end Sys2Proof.Machine
end

