-- ==== Sys2Proof/Machine/Ops.lean ====
section
/-! DEFINITION. The named operations the commands are made of: writing the tables, answering, taking a fault and
returning from it (60_exceptions.md R222, R224, R225), and emitting on the two output streams (00_scope.md R11). -/

namespace Sys2Proof.Machine

namespace State

/-- FT[x] <- v. -/
def setFt (s : State) (x : Sym) (v : Count) : State :=
  { s with FT := Table.set BitVec.toNat 0 s.FT x v }

/-- NODE[i] <- v. -/
def setNode (s : State) (i : Idx) (v : Node) : State :=
  { s with NODE := Table.set BitVec.toNat unwrittenNode s.NODE i v }

/-- CT[x] <- v. -/
def setCt (s : State) (x : Sym) (v : CodeEntry) : State :=
  { s with CT := Table.set BitVec.toNat unwrittenEntry s.CT x v }

/-- ICT.insert(c, x) (R11). -/
def insertIct (s : State) (c : BitStr) (x : Sym) : State :=
  { s with ICT := Table.put BitStr.key s.ICT c x }

/-- CT[x].valid <- 0 for every x; len and bits keep their content, which the spec leaves unspecified and which
nothing reads (R29; log 3). -/
def clearCt (s : State) : State :=
  { s with CT := Table.mapAll BitVec.toNat unwrittenEntry (fun e => { e with valid := false }) s.CT }

/-- One response on the response port (R93). -/
def answer (s : State) (err : BitVec 4) (data : BitVec 64) : State :=
  { s with RSP := s.RSP ++ [{ err := err, data := data }] }

/-- emitEO(data, cnt) (R11). -/
def emitEO (s : State) (data : BitVec 32) (cnt : BitVec 6) : State :=
  { s with EO := s.EO ++ [{ data := data, cnt := cnt }] }

/-- emitDO(x) (R11). -/
def emitDO (s : State) (x : Sym) : State :=
  { s with DO := s.DO ++ [x] }

end State

/-- respond(data): the command completes (R11). -/
def respond (data : BitVec 64) (s : State) : State := s.answer 0 data

/-- Fault entry (R222): PH, ERRCODE, ERRCMD and ERRINFO are written, the response is (code, 0), and nothing else
changes. -/
def faultEntry (cmd : Cmd) (e : CmdError) (s : State) : State :=
  { s with PH := .fault, ERRCODE := errorCode e, ERRCMD := cmd, ERRINFO := errorInfo e }.answer (errorCode e) 0

/-- raise E(info) in a command (R11). ERRCMD gets the command's own word, which its encoding is (log 9). -/
def raise (i : Instr) (e : CmdError) (s : State) : State := faultEntry (encode i) e s

/-- A refused word: response 15, no state changes (R224). -/
def refuse (s : State) : State := s.answer refusedCode 0

/-- The check that comes first (R223): in phase FAULT the word is refused. -/
def whenRun (s t : State) : State :=
  match s.PH with
  | .run => t
  | .fault => refuse s

/-- A word that decoding finds illegal (R98): refused in phase FAULT (R224), IllegalCommand in phase RUN. -/
def illegalWord (w : Cmd) (cause : IllegalCause) (s : State) : State :=
  whenRun s (faultEntry w (.illegalCommand cause) s)

/-- The return from a fault (R225): PH and the three fault registers cleared. -/
def clearFault (s : State) : State :=
  { s with PH := .run, ERRCODE := 0, ERRCMD := 0, ERRINFO := 0 }

/-- What SRST writes (R201): every item but EO and DO takes its reset value; the unspecified contents of NODE and of CT's
invalid entries stay what they were (log 3). -/
def softReset (s : State) : State :=
  { (clearFault s).clearCt with
    FT := [], NN := 0, ROOT := 0, TV := false, ICT := [], CW := emptyStr, PK := { cnt := 0, buf := 0 },
    ACC := { str := emptyStr, ovf := false } }

/-- Hardware reset (R250): every item takes its reset value; the host's own plan is not the block's (log 6). -/
def hardReset (s : State) : State := { State.reset with script := s.script, pc := s.pc }

end Sys2Proof.Machine
end

