-- ==== Sys2Proof/Machine/CodeTableDeriver.lean ====
section
/-! DEFINITION. The code-table deriver CD: DERIVE (42_code_table_deriver.md R150 to R153). -/

namespace Sys2Proof.Machine

/-- A record: a codeword, as a bit-string, and its Symbol. -/
abbrev CodeRecord := List Bool × Sym

/-- The walk (R151): WS is a stack of (node, accumulated code) pairs, the right child is pushed before the left, and a
leaf records its code. At most `fuel` pops. None when the walk does not end or reads an entry at index NN or above,
"never read by any rule" (R26); neither happens on a tree (R28). -/
def walk (s : State) : Nat → List (Idx × List Bool) → Option (List CodeRecord)
  | _, [] => some []
  | 0, _ :: _ => none
  | fuel + 1, (i, c) :: ws =>
    if s.NN.toNat ≤ i.toNat then none
    else match s.node i with
      | .leaf _ sym => (walk s fuel ws).map (fun out => (c, sym) :: out)
      | .internal _ left right => walk s fuel ((left, c ++ [false]) :: (right, c ++ [true]) :: ws)

/-- The records DERIVE makes of the tree: the single-leaf rule (R153), else the walk from the root (R151). Each of the
at most 511 nodes is popped once (R155). None also for a code that no codeword register holds. -/
def treeRecords (s : State) : Option (List CodeRecord) :=
  if s.NN.toNat ≤ s.ROOT.toNat then none
  else match s.node s.ROOT with
    | .leaf _ sym => some [([false], sym)]
    | .internal _ _ _ =>
      (walk s Config.nnode [(s.ROOT, [])]).filter (fun out => out.all (fun r => r.1.length ≤ Config.lmax))

/-- `CT[x] <- { valid = 1, pair(c) }` and `ICT.insert(c, x)` (R150). -/
def recordCode (s : State) (r : CodeRecord) : State :=
  (s.setCt r.2 { valid := true, code := BitStr.ofList r.1 }).insertIct (BitStr.ofList r.1) r.2

/-- Both tables rebuilt whole from the records (R150). -/
def installCodes (s : State) (out : List CodeRecord) : State :=
  out.foldl recordCode { s.clearCt with ICT := [] }

/-- DERIVE (R150). -/
def execDerive (s : State) : Result :=
  match s.PH with
  | .fault => .next (refuse s)
  | .run =>
    if s.TV = false then .next (raise .derive .sequenceError s)
    else match treeRecords s with
      | none => .fault .walkUndefined
      | some out => .next (respond (BitVec.ofNat 64 (installCodes s out).CTN) (installCodes s out))

end Sys2Proof.Machine
end

