-- ==== Sys2Proof/Machine/Decoder.lean ====
section
/-! DEFINITION. The decoder DEC: DBITS (44_decoder.md R170, R171), DEND (R172), DRST (R173). -/

namespace Sys2Proof.Machine

/-- The empty accumulator (R33). -/
def emptyAcc : Accumulator := { str := emptyStr, ovf := false }

/-- dec_bit(x) (R171): the state after it, and whether a Symbol was emitted. -/
def decBit (s : State) (x : Bool) : State × Bool :=
  if s.ACC.ovf then (s, false)
  else if s.ACC.str.len = 255 then ({ s with ACC := { s.ACC with ovf := true } }, false)
  else
    let str := s.ACC.str.push x
    match s.ict str with
    | none => ({ s with ACC := { s.ACC with str := str } }, false)
    | some r => ({ s.emitDO r with ACC := { s.ACC with str := emptyStr } }, true)

/-- dec_bit of each bit in order, counting the Symbols (R170). -/
def decBits (s : State) (m : Nat) : List Bool → State × Nat
  | [] => (s, m)
  | x :: xs => decBits (decBit s x).1 (m + (decBit s x).2.toNat) xs

/-- DBITS n, imm (R170). -/
def execDbits (n : BitVec 8) (imm : BitVec 32) (s : State) : Result :=
  .next (whenRun s (
    if legalBitCount n = false then raise (.dbits n imm) (.illegalCommand .operandOutOfRange) s
    else respond (BitVec.ofNat 64 (decBits s 0 (bitsOf imm n.toNat)).2) (decBits s 0 (bitsOf imm n.toNat)).1))

/-- DEND (R172). -/
def execDend (s : State) : Result :=
  .next (whenRun s (
    if 0 < s.ACC.str.len.toNat then raise .dend (.truncatedStream s.ACC.str.len s.ACC.ovf) s
    else respond 0 s))

/-- DRST (R173). -/
def execDrst (s : State) : Result := .next (whenRun s (respond 0 { s with ACC := emptyAcc }))

end Sys2Proof.Machine
end

