-- ==== Sys2Proof/Machine/Encoder.lean ====
section
/-! DEFINITION. The encoder ENC and its bit-packer: ENC (43_encoder.md R160, R161) and EFLUSH (R163). -/

namespace Sys2Proof.Machine

/-- The empty packer (R32). -/
def emptyPacker : Packer := { cnt := 0, buf := 0 }

/-- pk_append(x) (R161). -/
def pkAppend (s : State) (x : Bool) : State :=
  let buf := setBit s.PK.buf s.PK.cnt.toNat x
  if s.PK.cnt = 31 then { s.emitEO buf 32 with PK := emptyPacker }
  else { s with PK := { cnt := s.PK.cnt + 1, buf := buf } }

/-- ENC x (R160). -/
def execEnc (x : Sym) (s : State) : Result :=
  .next (whenRun s (
    if (s.ct x).valid = false then raise (.enc x) (.unknownSymbol x) s
    else respond ((s.ct x).code.len.setWidth 64) ((s.ct x).code.toList.foldl pkAppend s)))

/-- EFLUSH (R163). -/
def execEflush (s : State) : Result :=
  .next (whenRun s (
    let flushed := if 0 < s.PK.cnt.toNat then s.emitEO s.PK.buf (s.PK.cnt.setWidth 6) else s
    respond (s.PK.cnt.setWidth 64) { flushed with PK := emptyPacker }))

end Sys2Proof.Machine
end

