-- ==== Sys2Proof/Machine/FrequencyTable.lean ====
section
/-! DEFINITION. The frequency-table commands FCLR, FSET, FINC, FRD (40_frequency_table.md R120 to R124). -/

namespace Sys2Proof.Machine

/-- FCLR (R120): every count becomes 0, which is the table that lists nothing. -/
def execFclr (s : State) : Result := .next (whenRun s (respond 0 { s with FT := [] }))

/-- FSET x, count (R121). -/
def execFset (x : Sym) (count : Count) (s : State) : Result :=
  .next (whenRun s (respond 0 (s.setFt x count)))

/-- FINC x (R122): exact, or CapacityError with the count left as it is (R124). -/
def execFinc (x : Sym) (s : State) : Result :=
  .next (whenRun s (
    let c := s.ft x
    if c = 0xFFFFFFFF#32 then raise (.finc x) (.capacity .countOverflow) s
    else respond ((c + 1).setWidth 64) (s.setFt x (c + 1))))

/-- FRD x (R123). -/
def execFrd (x : Sym) (s : State) : Result :=
  .next (whenRun s (respond ((s.ft x).setWidth 64) s))

end Sys2Proof.Machine
end

