-- ==== Sys2Proof/Machine/System.lean ====
section
/-! DEFINITION. The system commands NOP, SRST, ECLR, CSRR (46_system.md R200 to R203), the only ones that execute in
both phases (60_exceptions.md R224). -/

namespace Sys2Proof.Machine

/-- NOP (R200). -/
def execNop (s : State) : Result := .next (respond 0 s)

/-- SRST (R201). -/
def execSrst (s : State) : Result := .next (respond 0 (softReset s))

/-- ECLR (R202). -/
def execEclr (s : State) : Result := .next (respond 0 (clearFault s))

/-- CSRR n (R203): an unassigned number is IllegalCommand in phase RUN and refused in phase FAULT. -/
def execCsrr (n : BitVec 16) (s : State) : Result :=
  match csr s n with
  | some v => .next (respond v s)
  | none => .next (whenRun s (raise (.csrr n) (.illegalCommand .operandOutOfRange) s))

end Sys2Proof.Machine
end

