-- ==== Sys2Proof/Machine/TablePort.lean ====
section
/-! DEFINITION. The table port: CWCLR, CWAPP, CWRD (45_table_port.md R180 to R182), CCLR, CLD, CRD (R185 to R187), ICLR,
ILD, ILK (R188 to R190). -/

namespace Sys2Proof.Machine

/-- CWCLR (R180). -/
def execCwclr (s : State) : Result := .next (whenRun s (respond 0 { s with CW := emptyStr }))

/-- CWAPP n, imm (R181). -/
def execCwapp (n : BitVec 8) (imm : BitVec 32) (s : State) : Result :=
  .next (whenRun s (
    if legalBitCount n = false then raise (.cwapp n imm) (.illegalCommand .operandOutOfRange) s
    else if Config.lmax < s.CW.len.toNat + n.toNat then raise (.cwapp n imm) (.capacity .codewordTooLong) s
    else respond (BitVec.ofNat 64 (s.CW.len.toNat + n.toNat)) { s with CW := s.CW.append (bitsOf imm n.toNat) }))

/-- Chunk j of CW.bits: bits 32j + 31 to 32j of its extension to 256 bits (R182). -/
def cwChunk (c : BitStr) (j : Nat) : BitVec 32 := (c.bits.setWidth 256).extractLsb' (32 * j) 32

/-- CWRD j (R182). -/
def execCwrd (j : BitVec 16) (s : State) : Result :=
  .next (whenRun s (
    if legalChunk j = false then raise (.cwrd j) (.illegalCommand .operandOutOfRange) s
    else respond (0#24 ++ s.CW.len ++ cwChunk s.CW j.toNat : BitVec (24 + 8 + 32)) s))

/-- CCLR (R185). -/
def execCclr (s : State) : Result := .next (whenRun s (respond 0 s.clearCt))

/-- CLD x (R186). -/
def execCld (x : Sym) (s : State) : Result :=
  .next (whenRun s (
    if s.CW.len = 0 then raise (.cld x) .malformedRecord s
    else respond 0 (s.setCt x { valid := true, code := s.CW })))

/-- CRD x (R187). -/
def execCrd (x : Sym) (s : State) : Result :=
  .next (whenRun s (
    if (s.ct x).valid then
      respond (0#55 ++ 1#1 ++ (s.ct x).code.len : BitVec (55 + 1 + 8)) { s with CW := (s.ct x).code }
    else respond 0 { s with CW := emptyStr }))

/-- ICLR (R188). -/
def execIclr (s : State) : Result := .next (whenRun s (respond 0 { s with ICT := [] }))

/-- ILD x (R189): the errors in the rule's order, the same-record test before the capacity test. -/
def execIld (x : Sym) (s : State) : Result :=
  .next (whenRun s (
    if s.CW.len = 0 then raise (.ild x) .malformedRecord s
    else match s.ict s.CW with
      | some r => if r = x then respond 0 s else raise (.ild x) (.duplicateCode r x) s
      | none =>
        if s.ICTN = Config.ictN then raise (.ild x) (.capacity .inverseTableFull) s
        else respond 1 (s.insertIct s.CW x)))

/-- ILK (R190). -/
def execIlk (s : State) : Result :=
  .next (whenRun s (
    match (if s.CW.len = 0 then none else s.ict s.CW) with
    | none => respond 0 s
    | some r => respond (0#55 ++ 1#1 ++ r : BitVec (55 + 1 + 8)) s))

end Sys2Proof.Machine
end

