-- ==== Sys2Proof/Machine/TreeBuilder.lean ====
section
/-! DEFINITION. The tree builder TB: BUILD (41_tree_builder.md R130 to R137) and NRD (R138). -/

namespace Sys2Proof.Machine

/-- A node's frequency (R26). -/
def Node.freq : Node → Freq
  | .leaf f _ => f
  | .internal f _ _ => f

/-- The key of a live node: its frequency, then its index (R133). -/
abbrev LiveKey := Freq × Nat

/-- The node order and tie-break (R133): first by frequency, then by index, both unsigned, smaller first. -/
def keyLt (a b : LiveKey) : Bool := a.1 < b.1 || (a.1 == b.1 && a.2 < b.2)

/-- The arena N under construction, and LIVE: the keys of its nodes that have no parent yet (R131, R132). -/
structure Building where
  nodes : List Node
  live  : List LiveKey
deriving DecidableEq, Repr

/-- The least of a key and a list of keys. -/
def leastKey (k : LiveKey) : List LiveKey → LiveKey
  | [] => k
  | j :: js => leastKey (if keyLt j k then j else k) js

/-- LIVE's least key and LIVE without it, if it is not empty. -/
def takeLeast : List LiveKey → Option (LiveKey × List LiveKey)
  | [] => none
  | k :: ks => some (leastKey k ks, (k :: ks).erase (leastKey k ks))

/-- The leaves (R132): one per Symbol with a count, in ascending Symbol order. -/
def leavesOf (s : State) : List Node :=
  allSyms.filterMap fun x => if s.ft x = 0 then none else some (.leaf ((s.ft x).setWidth 40) x)

/-- Every leaf is live (R132). -/
def startBuilding (s : State) : Building :=
  { nodes := leavesOf s, live := (leavesOf s).zipIdx.map (fun p => (p.1.freq, p.2)) }

/-- One merge (R134): the two least nodes become the children of the next node, the one with the smaller index on the
left (R135). None when fewer than two nodes are live. -/
def mergeStep (b : Building) : Option Building :=
  match takeLeast b.live with
  | none => none
  | some (k1, live1) =>
    match takeLeast live1 with
    | none => none
    | some (k2, live2) => some {
        nodes := b.nodes ++ [.internal (k1.1 + k2.1) (BitVec.ofNat 9 (min k1.2 k2.2)) (BitVec.ofNat 9 (max k1.2 k2.2))],
        live := live2 ++ [(k1.1 + k2.1, b.nodes.length)] }

/-- The merge loop: while more than one node is live, at most `fuel` times. Each merge takes one from LIVE, so as much
fuel as there are leaves is enough. -/
def mergeLoop : Nat → Building → Building
  | 0, b => b
  | fuel + 1, b =>
    match mergeStep b with
    | none => b
    | some b' => mergeLoop fuel b'

/-- The arena BUILD makes of FT (R131). -/
def builtNodes (s : State) : List Node := (mergeLoop (leavesOf s).length (startBuilding s)).nodes

/-- NODE[i] <- N[i] for each i below the length of N, from index `i` on. -/
def writeNodes (s : State) (i : Nat) : List Node → State
  | [] => s
  | x :: xs => writeNodes (s.setNode (BitVec.ofNat 9 i) x) (i + 1) xs

/-- The arena and its root registers (R131, R136). -/
def installTree (s : State) (nodes : List Node) : State :=
  { writeNodes s 0 nodes with
    NN := BitVec.ofNat 9 nodes.length, ROOT := BitVec.ofNat 9 (nodes.length - 1), TV := true }

/-- BUILD (R131). -/
def execBuild (s : State) : Result :=
  .next (whenRun s (
    if s.K = 0 then raise .build .invalidInput s
    else respond (treeInfoReg (installTree s (builtNodes s))) (installTree s (builtNodes s))))

/-- The response layout of NRD (R138, R94). -/
def nodeData : Node → BitVec 64
  | .leaf freq sym => (0#5 ++ 0#1 ++ 0#9 ++ sym.setWidth 9 ++ freq : BitVec (5 + 1 + 9 + 9 + 40))
  | .internal freq left right => (0#5 ++ 1#1 ++ right ++ left ++ freq : BitVec (5 + 1 + 9 + 9 + 40))

/-- NRD i (R138). -/
def execNrd (i : BitVec 16) (s : State) : Result :=
  .next (whenRun s (
    if s.TV = false then raise (.nrd i) .sequenceError s
    else if legalNode i s.NN = false then raise (.nrd i) (.illegalCommand .operandOutOfRange) s
    else respond (nodeData (s.node (nodeIndex i))) s))

end Sys2Proof.Machine
end

