-- ==== Sys2Proof/Machine/Dispatch.lean ====
section
/-! DEFINITION. exec: the meaning of a command, one arm per constructor of Instr (30_encoding.md R96). -/

namespace Sys2Proof.Machine

/-- The meaning of a decoded command (00_scope.md R13). -/
def exec (i : Instr) (s : State) : Host.Outcome State Fault Refusal :=
  match i with
  -- system
  | .nop => Sys2Proof.Machine.execNop s
  | .srst => Sys2Proof.Machine.execSrst s
  | .eclr => Sys2Proof.Machine.execEclr s
  | .csrr n => Sys2Proof.Machine.execCsrr n s
  -- frequency table
  | .fclr => Sys2Proof.Machine.execFclr s
  | .fset x count => Sys2Proof.Machine.execFset x count s
  | .finc x => Sys2Proof.Machine.execFinc x s
  | .frd x => Sys2Proof.Machine.execFrd x s
  -- TB
  | .build => Sys2Proof.Machine.execBuild s
  | .nrd n => Sys2Proof.Machine.execNrd n s
  -- CD
  | .derive => Sys2Proof.Machine.execDerive s
  -- ENC
  | .enc x => Sys2Proof.Machine.execEnc x s
  | .eflush => Sys2Proof.Machine.execEflush s
  -- DEC
  | .dbits n bits => Sys2Proof.Machine.execDbits n bits s
  | .dend => Sys2Proof.Machine.execDend s
  | .drst => Sys2Proof.Machine.execDrst s
  -- table port
  | .cwclr => Sys2Proof.Machine.execCwclr s
  | .cwapp n bits => Sys2Proof.Machine.execCwapp n bits s
  | .cwrd j => Sys2Proof.Machine.execCwrd j s
  | .cclr => Sys2Proof.Machine.execCclr s
  | .cld x => Sys2Proof.Machine.execCld x s
  | .crd x => Sys2Proof.Machine.execCrd x s
  | .iclr => Sys2Proof.Machine.execIclr s
  | .ild x => Sys2Proof.Machine.execIld x s
  | .ilk => Sys2Proof.Machine.execIlk s

end Sys2Proof.Machine
end

