-- ==== Sys2Proof/Machine/Accept.lean ====
section
/-! DEFINITION. The command port: what the host presents next (10_state.md R23; 20_memory.md R66), and what becomes of a
command word once accepted (30_encoding.md R97; 60_exceptions.md R223). -/

namespace Sys2Proof.Machine

/-- The host's next action; none when it has presented everything (R23). -/
def nextAction (s : State) : Option HostAction := s.script[s.pc]?

/-- Every command, faulting or not, moves the index of the next word on by exactly 1 (R23). -/
def advance (s : State) : State := { s with pc := s.pc + 1 }

/-- An accepted command word: decoded from the word as presented (R76), then executed, or illegal. -/
def acceptWord (w : Cmd) (s : State) : Result :=
  match decode w with
  | .ok i => exec i s
  | .error cause => .next (illegalWord w cause s)

/-- What the block does with a host action: `rst` resets it (R250), a command word is accepted (R13). -/
def act (a : HostAction) (s : State) : Result :=
  match a with
  | .reset => .next (hardReset s)
  | .command w => acceptWord w s

/-- The script with an action at the index of the next one; the actions before and after it stay. A script shorter than
`pc`, which no run makes, is filled up with NOP words. -/
def placeAction (a : HostAction) (s : State) : List HostAction :=
  s.script.take s.pc ++ List.replicate (s.pc - s.script.length) (.command 0) ++ a :: s.script.drop (s.pc + 1)

end Sys2Proof.Machine
end

