-- ==== Sys2Proof/Machine/Step.lean ====
section
/-! DEFINITION. One step: the next action of the host, whole (00_scope.md R13). -/

namespace Sys2Proof.Machine

/-- One step. With nothing presented the block waits, keeping all state (60_exceptions.md R231; log 5). -/
def step (s : State) : Host.Outcome State Fault Refusal :=
  match nextAction s with
  | none => .next s
  | some a => act a (advance s)

/-- `s` with the command word whose low `nbits` bits are those of `w` as the next word the host presents. -/
def State.withFetchWord (s : State) (nbits w : Nat) : State :=
  { s with script := placeAction (.command (BitVec.ofNat 64 (w % 2 ^ nbits))) s }

end Sys2Proof.Machine
end

