-- ==== Sys2Proof/Machine/Sequences.lean ====
section
/-! DEFINITION. Command sequences the spec gives a name: the pseudo-instructions (30_encoding.md R101), the four entry
points of the document (00_scope.md R14), and the transfer of a table through the table port (45_table_port.md R191). -/

namespace Sys2Proof.Machine

/-- Commands executed one after another, stopping at the first stop (20_memory.md R73). -/
def execAll : List Instr → State → Result
  | [], s => .next s
  | i :: is, s =>
    match exec i s with
    | .next t => execAll is t
    | .fault r => .fault r
    | .refused r => .refused r

/-- The chunks of 32 bits of a bit-string of length L: chunk j has min(32, L − 32j) bits (R101). -/
def chunks (c : List Bool) : List (List Bool) :=
  (List.range ((c.length + 31) / 32)).map fun j => (c.drop (32 * j)).take 32

/-- One command per chunk: its number of bits n_j and its value v_j, first bit in bit 0 (R101). -/
def perChunk (make : BitVec 8 → BitVec 32 → Instr) (c : List Bool) : List Instr :=
  (chunks c).map fun g => make (BitVec.ofNat 8 g.length) (BitVec.ofNat 32 (natOfBits g))

/-- The pseudo-instructions (R101). -/
inductive Pseudo where
  | dbit (x : Bool)
  | cwpush (x : Bool)
  | cwset (c : List Bool)
  | dstr (c : List Bool)
  | ctset (s : Sym) (c : List Bool)
  | itset (s : Sym) (c : List Bool)
  | tally (text : List Sym)
  | encs (text : List Sym)
deriving DecidableEq, Repr

/-- The expansion of a pseudo-instruction (R101). -/
def Pseudo.expand : Pseudo → List Instr
  | .dbit x => [.dbits 1 (BitVec.ofNat 32 x.toNat)]
  | .cwpush x => [.cwapp 1 (BitVec.ofNat 32 x.toNat)]
  | .cwset c => .cwclr :: perChunk .cwapp c
  | .dstr c => perChunk .dbits c
  | .ctset s c => .cwclr :: perChunk .cwapp c ++ [.cld s]
  | .itset s c => .cwclr :: perChunk .cwapp c ++ [.ild s]
  | .tally text => text.map .finc
  | .encs text => text.map .enc

/-- encode(S) as commands (R14). -/
def encodeCommands (text : List Sym) : List Instr :=
  .fclr :: text.map .finc ++ [.build, .derive] ++ text.map .enc ++ [.eflush]

/-- decode(stream, ICT) as commands, for a table already in ICT (R14). -/
def decodeCommands (stream : List Bool) : List Instr :=
  .drst :: (Pseudo.dstr stream).expand ++ [.dend]

/-- parseTable(file) as commands, for the records of the file (R14). -/
def parseCommands (records : List (List Bool × Sym)) : List Instr :=
  .iclr :: records.flatMap fun r => (Pseudo.itset r.2 r.1).expand

/-- Beats taken from EO and fed back unchanged (20_memory.md R70; 44_decoder.md R175). -/
def feedCommands (beats : List Beat) : List Instr := beats.map fun b => .dbits (b.cnt.setWidth 8) b.data

/-- The response a command just gave. -/
def lastData (s : State) : BitVec 64 :=
  match s.RSP.getLast? with
  | some r => r.data
  | none => 0

/-- `CRD x`, and `ILD x` when the answer was valid, for each Symbol in order (R191). -/
def transferCodes : List Sym → State → Result
  | [], s => .next s
  | x :: xs, s =>
    match exec (.crd x) s with
    | .next t =>
      match (if (lastData t).getLsbD 8 then exec (.ild x) t else .next t) with
      | .next u => transferCodes xs u
      | .fault r => .fault r
      | .refused r => .refused r
    | .fault r => .fault r
    | .refused r => .refused r

/-- The codeword a host reads out of CW with CWRD, chunk by chunk, of which it keeps the first `len` bits (R182). -/
def readCw (s : State) (len : Nat) : List Bool :=
  ((List.range 8).flatMap fun j =>
    match exec (.cwrd (BitVec.ofNat 16 j)) s with
    | .next t => bitsOf (lastData t) 32
    | .fault _ => []
    | .refused _ => []).take len

/-- serializeTable(CT): the record of each Symbol whose `CRD` answers valid (R14, R187). -/
def serializeTable (s : State) : List (List Bool × Sym) :=
  allSyms.filterMap fun x =>
    match exec (.crd x) s with
    | .next t => if (lastData t).getLsbD 8 then some (readCw t (lastData t % 256).toNat, x) else none
    | .fault _ => none
    | .refused _ => none

end Sys2Proof.Machine
end

