-- ==== Sys2Proof/Machine/Assembly.lean ====
section
/-! DEFINITION. The assembly the spec writes commands in (30_encoding.md R100, R101): one line, as a list of characters,
to the commands it stands for. The block never sees it; what the rules leave open of the notation is log 13. -/

namespace Sys2Proof.Machine

/-- The value of a digit character, for bases up to 16. -/
def digitValue (c : Char) : Option Nat :=
  if '0' ≤ c ∧ c ≤ '9' then some (c.toNat - '0'.toNat)
  else if 'a' ≤ c ∧ c ≤ 'f' then some (c.toNat - 'a'.toNat + 10)
  else if 'A' ≤ c ∧ c ≤ 'F' then some (c.toNat - 'A'.toNat + 10)
  else none

/-- Digits in a base, first digit most significant; an underscore inside a number separates digits and means nothing
(R8). DESIGN CHOICE (log 13): R8 speaks of no other underscore; one that leads, trails, doubles or stands alone means
nothing either, so `_` and `0x_` read as 0. -/
def digitsValue (base acc : Nat) : List Char → Option Nat
  | [] => some acc
  | c :: cs =>
    if c = '_' then digitsValue base acc cs
    else match digitValue c with
      | some d => if d < base then digitsValue base (base * acc + d) cs else none
      | none => none

/-- An integer operand: decimal, 0x hexadecimal or 0b binary (R100). -/
def integerValue : List Char → Option Nat
  | [] => none
  | '0' :: 'x' :: c :: cs => digitsValue 16 0 (c :: cs)
  | '0' :: 'b' :: c :: cs => digitsValue 2 0 (c :: cs)
  | cs => digitsValue 10 0 cs

/-- An integer operand that fits a field of `w` bits. -/
def fieldValue (w : Nat) (cs : List Char) : Option (BitVec w) :=
  match integerValue cs with
  | some n => if n < 2 ^ w then some (BitVec.ofNat w n) else none
  | none => none

/-- A Symbol for a character: its code, when it is one byte (R7; PRESUMED, log 14). -/
def charSym (c : Char) : Option Sym := if c.toNat < 256 then some (BitVec.ofNat 8 c.toNat) else none

/-- A Symbol operand: a character in single quotes, or an integer (R100). -/
def symValue : List Char → Option Sym
  | ['\'', c, '\''] => charSym c
  | cs => fieldValue 8 cs

/-- A CSRR operand: the register's name, or an integer (R100). -/
def csrValue (cs : List Char) : Option (BitVec 16) :=
  if cs = ['I', 'D'] then some 0
  else if cs = ['S', 'T', 'A', 'T', 'U', 'S'] then some 1
  else if cs = ['E', 'R', 'R', 'C', 'M', 'D'] then some 2
  else if cs = ['E', 'R', 'R', 'I', 'N', 'F', 'O'] then some 3
  else if cs = ['T', 'R', 'E', 'E', 'I', 'N', 'F', 'O'] then some 4
  else if cs = ['F', 'T', 'I', 'N', 'F', 'O'] then some 5
  else if cs = ['T', 'A', 'B', 'I', 'N', 'F', 'O'] then some 6
  else if cs = ['R', 'E', 'G', 'I', 'N', 'F', 'O'] then some 7
  else fieldValue 16 cs

/-- The characters between the first and the last double quote of an operand (DESIGN CHOICE, log 13: others between them
stand for themselves). -/
def quoted : List Char → Option (List Char)
  | '"' :: cs => if cs.getLast? = some '"' then some cs.dropLast else none
  | _ => none

/-- A bit-string literal, first bit leftmost (R10). -/
def bitsLiteral (cs : List Char) : Option (List Bool) :=
  (quoted cs).bind fun inside =>
    inside.mapM fun c => if c = '0' then some false else if c = '1' then some true else none

/-- A text literal, one Symbol a character. -/
def textLiteral (cs : List Char) : Option (List Sym) := (quoted cs).bind fun inside => inside.mapM charSym

/-- The operands of a line: split at commas, spaces dropped, up to a `;`; between quotes every character stands for
itself.
DESIGN CHOICE (log 13): R100 gives no way to write a quote between quotes. A quote of the same kind closes and the next one
opens again, so the Symbol `'''` is 0x27 only as the last operand of a line with nothing after it: a comma or a `;` after
it counts as quoted. -/
def splitOperands : Option Char → List Char → List Char → List (List Char)
  | _, cur, [] => [cur]
  | some q, cur, c :: cs => splitOperands (if c = q then none else some q) (cur ++ [c]) cs
  | none, cur, c :: cs =>
    if c = ';' then [cur]
    else if c = ',' then cur :: splitOperands none [] cs
    else if c = ' ' then splitOperands none cur cs
    else splitOperands (if c = '\'' ∨ c = '"' then some c else none) (cur ++ [c]) cs

/-- A command or a pseudo-instruction from its mnemonic and its operands, in the order a, b, imm (R100, R101). -/
def assemble (mnemonic : String) (ops : List (List Char)) : Option (List Instr) :=
  match mnemonic, ops with
  | "NOP", [[]] => some [.nop]
  | "SRST", [[]] => some [.srst]
  | "ECLR", [[]] => some [.eclr]
  | "CSRR", [n] => (csrValue n).map fun n => [.csrr n]
  | "FCLR", [[]] => some [.fclr]
  | "FSET", [s, count] => (symValue s).bind fun s => (fieldValue 32 count).map fun count => [.fset s count]
  | "FINC", [s] => (symValue s).map fun s => [.finc s]
  | "FRD", [s] => (symValue s).map fun s => [.frd s]
  | "BUILD", [[]] => some [.build]
  | "NRD", [i] => (fieldValue 16 i).map fun i => [.nrd i]
  | "DERIVE", [[]] => some [.derive]
  | "ENC", [s] => (symValue s).map fun s => [.enc s]
  | "EFLUSH", [[]] => some [.eflush]
  | "DBITS", [n, bits] => (fieldValue 8 n).bind fun n => (fieldValue 32 bits).map fun bits => [.dbits n bits]
  | "DEND", [[]] => some [.dend]
  | "DRST", [[]] => some [.drst]
  | "CWCLR", [[]] => some [.cwclr]
  | "CWAPP", [n, bits] => (fieldValue 8 n).bind fun n => (fieldValue 32 bits).map fun bits => [.cwapp n bits]
  | "CWRD", [j] => (fieldValue 16 j).map fun j => [.cwrd j]
  | "CCLR", [[]] => some [.cclr]
  | "CLD", [s] => (symValue s).map fun s => [.cld s]
  | "CRD", [s] => (symValue s).map fun s => [.crd s]
  | "ICLR", [[]] => some [.iclr]
  | "ILD", [s] => (symValue s).map fun s => [.ild s]
  | "ILK", [[]] => some [.ilk]
  | "DBIT", [x] => (fieldValue 1 x).map fun x => (Pseudo.dbit (x == 1#1)).expand
  | "CWPUSH", [x] => (fieldValue 1 x).map fun x => (Pseudo.cwpush (x == 1#1)).expand
  | "CWSET", [c] => (bitsLiteral c).bind fun c =>
      if c.length ≤ Config.lmax then some (Pseudo.cwset c).expand else none
  | "DSTR", [c] => (bitsLiteral c).bind fun c => if 1 ≤ c.length then some (Pseudo.dstr c).expand else none
  | "CTSET", [s, c] => (symValue s).bind fun s => (bitsLiteral c).bind fun c =>
      if c.length ≤ Config.lmax then some (Pseudo.ctset s c).expand else none
  | "ITSET", [s, c] => (symValue s).bind fun s => (bitsLiteral c).bind fun c =>
      if c.length ≤ Config.lmax then some (Pseudo.itset s c).expand else none
  | "TALLY", [text] => (textLiteral text).map fun text => (Pseudo.tally text).expand
  | "ENCS", [text] => (textLiteral text).map fun text => (Pseudo.encs text).expand
  | _, _ => none

/-- One line: blank or comment lines stand for no command, and a line that is not of the notation for none at all. -/
def assembleLine (line : List Char) : Option (List Instr) :=
  let start := line.dropWhile (· = ' ')
  let mnemonic := start.takeWhile fun c => c ≠ ' ' ∧ c ≠ ';'
  if mnemonic = [] then some []
  else assemble (String.ofList mnemonic) (splitOperands none [] (start.drop mnemonic.length))

end Sys2Proof.Machine
end

