-- ==== Sys2Proof/Safety.lean ====
section
/-! DEFINITION. What counts as a legal state of HUFFCORE (the spec's own invariants), and the words claims are made in:
the bit streams, the tree, its paths, the document's decoder, the spec's order of checks. -/

namespace Sys2Proof.Machine

/-- The state a command ends in, if it ends in one. -/
def nextState? : Result → Option State
  | .next t => some t
  | .fault _ => none
  | .refused _ => none

/-- The canonical form of the tables (log 12): keys strictly rising, no listed entry that an unlisted key reads as. -/
abbrev Memory.wf (s : State) : Prop :=
  Table.Canonical BitVec.toNat 0 s.FT ∧ Table.Canonical BitVec.toNat unwrittenNode s.NODE ∧
  Table.Canonical BitVec.toNat unwrittenEntry s.CT ∧ Table.Rising BitStr.key s.ICT

/-- R22: ERRCODE is not 0 exactly when PH = FAULT, and is at most 8; with no fault held all three registers are 0. -/
structure FaultRegistersOk (s : State) : Prop where
  code_iff : s.ERRCODE ≠ 0 ↔ s.PH = .fault
  code_le  : s.ERRCODE.toNat ≤ 8
  clear    : s.PH = .run → s.ERRCMD = 0 ∧ s.ERRINFO = 0

/-- R10, R29 to R33, R95: every bit-string is held in canonical form, no codeword is empty, the packer and the beats are
0 above their counts, a beat holds 1 to 32 bits, and ovf implies len = 255. -/
structure BitsOk (s : State) : Prop where
  cw    : s.CW.Canonical
  acc   : s.ACC.str.Canonical
  ovf   : s.ACC.ovf = true → s.ACC.str.len = 255
  pk    : s.PK.buf >>> s.PK.cnt.toNat = 0
  ct    : ∀ x, (s.ct x).valid = true → 1 ≤ (s.ct x).code.len.toNat ∧ (s.ct x).code.Canonical
  ict   : ∀ p ∈ s.ICT, 1 ≤ p.1.len.toNat ∧ p.1.Canonical
  beats : ∀ b ∈ s.EO, 1 ≤ b.cnt.toNat ∧ b.cnt.toNat ≤ 32 ∧ b.data >>> b.cnt.toNat = 0

/-- j is a child of the Internal entry p. -/
def IsChild (s : State) (p j : Idx) : Prop := ∃ f l r, s.node p = .internal f l r ∧ (j = l ∨ j = r)

/-- The number of leaves, k = (NN + 1) / 2 (R28). -/
def leafCount (s : State) : Nat := (s.NN.toNat + 1) / 2

/-- R28: entries 0 to k − 1 are Leaves with rising Symbols, entries k to NN − 1 are Internal, children come before their
parent, and every entry but ROOT has exactly one parent. -/
structure IsTree (s : State) : Prop where
  size      : 1 ≤ leafCount s ∧ leafCount s ≤ 256 ∧ s.NN.toNat = 2 * leafCount s - 1
  root      : s.ROOT.toNat = s.NN.toNat - 1
  leaves    : ∀ i : Idx, i.toNat < leafCount s → ∃ f x, s.node i = .leaf f x ∧ 1 ≤ f.toNat
  rising    : ∀ (i j : Idx) f x g y, i.toNat < j.toNat → j.toNat < leafCount s →
    s.node i = .leaf f x → s.node j = .leaf g y → x.toNat < y.toNat
  internals : ∀ i : Idx, leafCount s ≤ i.toNat → i.toNat < s.NN.toNat →
    ∃ f l r, s.node i = .internal f l r ∧ l.toNat < r.toNat ∧ r.toNat < i.toNat ∧
      f.toNat = (s.node l).freq.toNat + (s.node r).freq.toNat
  parent    : ∀ j : Idx, j.toNat < s.NN.toNat → j ≠ s.ROOT →
    ∃ p : Idx, p.toNat < s.NN.toNat ∧ IsChild s p j ∧ ∀ q : Idx, q.toNat < s.NN.toNat → IsChild s q j → q = p
  no_parent : ∀ p : Idx, p.toNat < s.NN.toNat → ¬ IsChild s p s.ROOT

/-- R27, R28: with TV = 1 the arena is a tree; with TV = 0 NN and ROOT are 0. -/
structure TreeOk (s : State) : Prop where
  tree    : s.TV = true → IsTree s
  no_tree : s.TV = false → s.NN = 0 ∧ s.ROOT = 0

/-- R30: at most ICT_N entries. -/
abbrev IctSizeOk (s : State) : Prop := s.ICTN ≤ Config.ictN

/-- R93: err of a response is 0 to 8 or 15, and data is 0 when it is not 0. -/
def Response.Legal (r : Response) : Prop :=
  (r.err.toNat ≤ 8 ∨ r.err = 15) ∧ (r.err ≠ 0 → r.data = 0)

/-- The spec's invariants together. -/
structure Inv (s : State) : Prop where
  memory    : Memory.wf s
  faultRegs : FaultRegistersOk s
  bits      : BitsOk s
  tree      : TreeOk s
  ictSize   : IctSizeOk s
  responses : ∀ r ∈ s.RSP, r.Legal
  index     : s.pc ≤ s.script.length

/-- The values of R50 that the spec states, for every item but EO and DO. -/
structure AtReset (s : State) : Prop where
  phase  : s.PH = .run
  fault  : s.ERRCODE = 0 ∧ s.ERRCMD = 0 ∧ s.ERRINFO = 0
  counts : ∀ x, s.ft x = 0
  tree   : s.NN = 0 ∧ s.ROOT = 0 ∧ s.TV = false
  codes  : ∀ x, (s.ct x).valid = false
  inv    : s.ICT = []
  cw     : s.CW = { len := 0, bits := 0 }
  pk     : s.PK = { cnt := 0, buf := 0 }
  acc    : s.ACC = { str := { len := 0, bits := 0 }, ovf := false }

/-- No codeword of CT is a beginning of another's (R154, GLOSSARY "prefix code"). -/
def PrefixFree (s : State) : Prop :=
  ∀ x y, (s.ct x).valid = true → (s.ct y).valid = true → (s.ct x).code.toList <+: (s.ct y).code.toList → x = y

/-- ICT is the inverse of CT (R154): it maps a codeword to s exactly when CT[s] is valid and holds it. -/
def IctInverts (s : State) : Prop :=
  ∀ k x, s.ict k = some x ↔ (s.ct x).valid = true ∧ (s.ct x).code = k

/-- bits(EO): the EncodedStream (R69). -/
def bitsEO (s : State) : List Bool := s.EO.flatMap fun b => bitsOf b.data b.cnt.toNat

/-- The bits encoded so far: those in EO, then those still in PK (R32, R69). -/
def encodedBits (s : State) : List Bool := bitsEO s ++ bitsOf s.PK.buf s.PK.cnt.toNat

/-- A path from the root to a node: the branches taken, 0 = left, 1 = right, the root's first (R151). -/
inductive PathTo (s : State) : Idx → List Bool → Prop where
  | root : PathTo s s.ROOT []
  | left {i : Idx} {c : List Bool} {f : Freq} {l r : Idx} :
      PathTo s i c → s.node i = .internal f l r → PathTo s l (c ++ [false])
  | right {i : Idx} {c : List Bool} {f : Freq} {l r : Idx} :
      PathTo s i c → s.node i = .internal f l r → PathTo s r (c ++ [true])

/-- c is the codeword of Symbol x: the path to its leaf, or "0" when the root is a leaf (R151, R153). -/
def IsCodeOf (s : State) (x : Sym) (c : List Bool) : Prop :=
  (∃ f, s.node s.ROOT = .leaf f x ∧ c = [false]) ∨
  (c ≠ [] ∧ ∃ i f, PathTo s i c ∧ s.node i = .leaf f x)

/-- The nodes that have no parent yet when node n is made: those before n that no earlier internal node has taken
(R132, R134). -/
def LiveBefore (s : State) (n j : Idx) : Prop :=
  j.toNat < n.toNat ∧ ∀ m : Idx, m.toNat < n.toNat → ¬ IsChild s m j

/-- The key of a node (R133). -/
def nodeKey (s : State) (i : Idx) : LiveKey := ((s.node i).freq, i.toNat)

/-- The document's decoder (R171, R174): append each bit to the accumulator; on a key, emit its Symbol and start
again. The Symbols emitted, and the accumulator at the end. -/
def documentDecode (key? : List Bool → Option Sym) : List Bool → List Bool → List Sym × List Bool
  | acc, [] => ([], acc)
  | acc, x :: xs =>
    match key? (acc ++ [x]) with
    | none => documentDecode key? (acc ++ [x]) xs
    | some r => (r :: (documentDecode key? [] xs).1, (documentDecode key? [] xs).2)

/-- ICT as the document's inverse table: bit-strings of length 1 to 255 (R30). -/
def inverseTable (s : State) (c : List Bool) : Option Sym :=
  if 1 ≤ c.length ∧ c.length ≤ Config.lmax then s.ict (BitStr.ofList c) else none

/-- ACC holds the unbounded accumulator u: all of it, or its first 255 bits with ovf set (R33). -/
def AccHolds (a : Accumulator) (u : List Bool) : Prop :=
  a = { str := BitStr.ofList (u.take Config.lmax), ovf := decide (Config.lmax < u.length) }

/-- What the order of checks of R223 says becomes of a command word. -/
inductive Verdict where
  | refused
  | error (e : CmdError)
  | completes
deriving DecidableEq, Repr

/-- The rows (match, mask) of 30_encoding.md R96 with the masks of R91. -/
def opcodeRows : List (Cmd × Cmd) := [
  (0x0000000000000000#64, 0xFFFFFFFFFFFFFFFF#64), (0x0100000000000000#64, 0xFFFFFFFFFFFFFFFF#64),
  (0x0200000000000000#64, 0xFFFFFFFFFFFFFFFF#64), (0x0300000000000000#64, 0xFFFF0000FFFFFFFF#64),
  (0x1000000000000000#64, 0xFFFFFFFFFFFFFFFF#64), (0x1100000000000000#64, 0xFF00FFFF00000000#64),
  (0x1200000000000000#64, 0xFF00FFFFFFFFFFFF#64), (0x1300000000000000#64, 0xFF00FFFFFFFFFFFF#64),
  (0x2000000000000000#64, 0xFFFFFFFFFFFFFFFF#64), (0x2100000000000000#64, 0xFFFF0000FFFFFFFF#64),
  (0x3000000000000000#64, 0xFFFFFFFFFFFFFFFF#64), (0x4000000000000000#64, 0xFF00FFFFFFFFFFFF#64),
  (0x4100000000000000#64, 0xFFFFFFFFFFFFFFFF#64), (0x5000000000000000#64, 0xFF00FFFF00000000#64),
  (0x5100000000000000#64, 0xFFFFFFFFFFFFFFFF#64), (0x5200000000000000#64, 0xFFFFFFFFFFFFFFFF#64),
  (0x6000000000000000#64, 0xFFFFFFFFFFFFFFFF#64), (0x6100000000000000#64, 0xFF00FFFF00000000#64),
  (0x6200000000000000#64, 0xFFFF0000FFFFFFFF#64), (0x6800000000000000#64, 0xFFFFFFFFFFFFFFFF#64),
  (0x6900000000000000#64, 0xFF00FFFFFFFFFFFF#64), (0x6A00000000000000#64, 0xFF00FFFFFFFFFFFF#64),
  (0x7000000000000000#64, 0xFFFFFFFFFFFFFFFF#64), (0x7100000000000000#64, 0xFF00FFFFFFFFFFFF#64),
  (0x7200000000000000#64, 0xFFFFFFFFFFFFFFFF#64)]

/-- The word has the opcode of some row (R97). -/
def opcodeAssigned (w : Cmd) : Bool := opcodeRows.any fun r => opField w == opField r.1

/-- The word is an instance of some row: `cmd & mask = match` (R91). -/
def matchesRow (w : Cmd) : Bool := opcodeRows.any fun r => w &&& r.2 == r.1

/-- The static operand ranges, on the fields of the word (R97): n of DBITS and CWAPP, j of CWRD, n of CSRR. -/
def staticRangeOk (w : Cmd) : Bool :=
  match (opField w).toNat with
  | 0x50 => 1 ≤ (aField w).toNat && (aField w).toNat ≤ 32
  | 0x61 => 1 ≤ (aField w).toNat && (aField w).toNat ≤ 32
  | 0x62 => (bField w).toNat ≤ 7
  | 0x03 => (bField w).toNat ≤ 7
  | _ => true

/-- Checks 5 to 7 of R223, on the fields of the word. -/
def ownChecks (w : Cmd) (s : State) : Verdict :=
  let a := aField w
  match (opField w).toNat with
  | 0x30 => if s.TV = false then .error .sequenceError else .completes
  | 0x21 =>
    if s.TV = false then .error .sequenceError
    else if s.NN.toNat ≤ (bField w).toNat then .error (.illegalCommand .operandOutOfRange) else .completes
  | 0x20 => if s.K = 0 then .error .invalidInput else .completes
  | 0x40 => if (s.ct a).valid then .completes else .error (.unknownSymbol a)
  | 0x51 => if s.ACC.str.len = 0 then .completes else .error (.truncatedStream s.ACC.str.len s.ACC.ovf)
  | 0x12 => if s.ft a = 0xFFFFFFFF#32 then .error (.capacity .countOverflow) else .completes
  | 0x61 => if 255 < s.CW.len.toNat + a.toNat then .error (.capacity .codewordTooLong) else .completes
  | 0x69 => if s.CW.len = 0 then .error .malformedRecord else .completes
  | 0x71 =>
    if s.CW.len = 0 then .error .malformedRecord
    else match s.ict s.CW with
      | some r => if r = a then .completes else .error (.duplicateCode r a)
      | none => if s.ICTN = 256 then .error (.capacity .inverseTableFull) else .completes
  | _ => .completes

/-- The order of checks (R223), the first that fails deciding. -/
def orderOfChecks (w : Cmd) (s : State) : Verdict :=
  if s.PH = .fault ∧ ¬ (matchesRow w = true ∧ (opField w).toNat ≤ 3 ∧ staticRangeOk w = true) then .refused
  else if opcodeAssigned w = false then .error (.illegalCommand .unassignedOpcode)
  else if matchesRow w = false then .error (.illegalCommand .reservedNotZero)
  else if staticRangeOk w = false then .error (.illegalCommand .operandOutOfRange)
  else ownChecks w s

/-- Two states that differ at most in what the spec leaves unspecified: entries of NODE at NN and above, and len and bits
of invalid entries of CT (R26, R29, R50), and in how the tables are listed. -/
structure SameVisible (s t : State) : Prop where
  faultRegs : s.PH = t.PH ∧ s.ERRCODE = t.ERRCODE ∧ s.ERRCMD = t.ERRCMD ∧ s.ERRINFO = t.ERRINFO
  counts    : ∀ x, s.ft x = t.ft x
  treeRegs  : s.NN = t.NN ∧ s.ROOT = t.ROOT ∧ s.TV = t.TV
  nodes     : ∀ i : Idx, i.toNat < s.NN.toNat → s.node i = t.node i
  valid     : ∀ x, (s.ct x).valid = (t.ct x).valid
  codes     : ∀ x, (s.ct x).valid = true → (s.ct x).code = (t.ct x).code
  inverse   : s.ICT = t.ICT
  registers : s.CW = t.CW ∧ s.PK = t.PK ∧ s.ACC = t.ACC
  streams   : s.EO = t.EO ∧ s.DO = t.DO ∧ s.RSP = t.RSP
  host      : s.script = t.script ∧ s.pc = t.pc

end Sys2Proof.Machine
end

