-- ==== Sys2Proof/Certificates/Slice0/Obligations.lean ====
section
/-! DEFINITION. What the model claims: statements from the spec's numbered rules, for the provers. -/

open Sys2Proof Sys2Proof.Machine

/-! ## Encoding -/

/-- 30_encoding.md R102 and 95_test_vectors.md 2.1: words written out from the encoding decode to their commands. -/
def Obligations.WorkedWordsDecode : Prop :=
  decode 0x1161000000000002#64 = .ok (.fset 0x61 2) ∧
  decode 0x1261000000000000#64 = .ok (.finc 0x61) ∧
  decode 0x2000000000000000#64 = .ok .build ∧
  decode 0x2100000800000000#64 = .ok (.nrd 8) ∧
  decode 0x4062000000000000#64 = .ok (.enc 0x62) ∧
  decode 0x5003000000000004#64 = .ok (.dbits 3 4) ∧
  decode 0x6103000000000003#64 = .ok (.cwapp 3 3) ∧
  decode 0x0300000100000000#64 = .ok (.csrr 1) ∧
  decode 0x7172000000000000#64 = .ok (.ild 0x72)

/-- Decoding the encoding of a command gives it back, every operand at every value; an operand out of range is found so. -/
def Obligations.DecodeOfEncode : Prop :=
  ∀ i : Instr,
    (WellFormed i → decode (encode i) = .ok i) ∧
    (¬ WellFormed i → decode (encode i) = .error .operandOutOfRange)

/-- A word that decodes is the encoding of what it decodes to: no bit of a command word is dropped. -/
def Obligations.EncodeOfDecode : Prop :=
  ∀ (w : Cmd) (i : Instr), decode w = .ok i → encode i = w ∧ WellFormed i

/-- R97: opcode, then reserved fields, then static ranges; otherwise the word is that command with those operands. The
opcode map and the masks are the rows of R96 and R91, apart from the decoder's own table. -/
def Obligations.DecodeRejectsInOrder : Prop :=
  ∀ w : Cmd,
    (decode w = .error .unassignedOpcode ↔ opcodeAssigned w = false) ∧
    (decode w = .error .reservedNotZero ↔ opcodeAssigned w = true ∧ matchesRow w = false) ∧
    (decode w = .error .operandOutOfRange ↔
      opcodeAssigned w = true ∧ matchesRow w = true ∧ staticRangeOk w = false) ∧
    (opcodeAssigned w = true → matchesRow w = true → staticRangeOk w = true →
      ∃ i, decode w = .ok i ∧ encode i = w)

/-! ## The command port, and what becomes of a word -/

/-- A step runs the decoded command, with the index of the next word moved on by 1 (R23). -/
def Obligations.StepRunsDecodedCommand : Prop :=
  ∀ (s : State) (w : Cmd) (i : Instr),
    s.script[s.pc]? = some (.command w) → decode w = .ok i → step s = exec i { s with pc := s.pc + 1 }

/-- An illegal word is refused in phase FAULT and IllegalCommand in phase RUN, with the word in ERRCMD. -/
def Obligations.StepFaultsOnIllegalWord : Prop :=
  ∀ (s : State) (w : Cmd) (cause : IllegalCause),
    s.script[s.pc]? = some (.command w) → decode w = .error cause →
    (s.PH = .fault → step s = .next { s with pc := s.pc + 1, RSP := s.RSP ++ [{ err := 15, data := 0 }] }) ∧
    (s.PH = .run → ∃ t, step s = .next t ∧ t.PH = .fault ∧ t.ERRCODE = 6 ∧ t.ERRCMD = w ∧
      t.ERRINFO.toNat = (match cause with
        | .unassignedOpcode => 1
        | .reservedNotZero => 2
        | .operandOutOfRange => 3) ∧
      t.RSP = s.RSP ++ [{ err := 6, data := 0 }] ∧
      { t with PH := s.PH, ERRCODE := s.ERRCODE, ERRCMD := s.ERRCMD, ERRINFO := s.ERRINFO, RSP := s.RSP, pc := s.pc } = s)

/-- With nothing presented the block waits, keeping all state; `rst` gives every item its reset value and keeps only the
host's plan (log 5 and 6: the model's reading of R231 and R250). -/
def Obligations.StepWaitsAndResets : Prop :=
  ∀ s : State,
    (s.script[s.pc]? = none → step s = .next s) ∧
    (s.script[s.pc]? = some .reset → ∃ t, step s = .next t ∧ AtReset t ∧ t.EO = [] ∧ t.DO = [] ∧ t.RSP = [] ∧
      t.script = s.script ∧ t.pc = s.pc + 1)

/-- The host's placing of a word makes it the next command, whatever the script was (log 4). -/
def Obligations.PlacedWordRunsNext : Prop :=
  ∀ (s : State) (i : Instr), WellFormed i →
    step (s.withFetchWord 64 (encode i).toNat) =
      exec i { s with script := (s.withFetchWord 64 (encode i).toNat).script, pc := s.pc + 1 }

/-- R223 and R222: what becomes of every command word. The first check that fails decides; a fault writes the fault
registers and gives its response, a refusal gives its response, and nothing else changes; otherwise the command
completes with err 0. -/
def Obligations.OrderOfChecksDecidesEveryWord : Prop :=
  ∀ (w : Cmd) (s : State), TreeOk s →
    match orderOfChecks w s with
    | .refused => acceptWord w s = .next { s with RSP := s.RSP ++ [{ err := 15, data := 0 }] }
    | .error e => acceptWord w s = .next { s with
        PH := .fault, ERRCODE := errorCode e, ERRCMD := w, ERRINFO := errorInfo e,
        RSP := s.RSP ++ [{ err := errorCode e, data := 0 }] }
    | .completes => ∃ t d, acceptWord w s = .next t ∧ t.RSP = s.RSP ++ [{ err := 0, data := d }] ∧
        (t.PH = s.PH ∨ t.PH = .run) ∧ t.script = s.script ∧ t.pc = s.pc

/-- R226: in phase FAULT no second fault occurs; the fault registers keep the one fault until ECLR or SRST clears them. -/
def Obligations.FaultsDoNotNest : Prop :=
  ∀ (w : Cmd) (s t : State), s.PH = .fault → acceptWord w s = .next t →
    (t.PH = .fault ∧ t.ERRCODE = s.ERRCODE ∧ t.ERRCMD = s.ERRCMD ∧ t.ERRINFO = s.ERRINFO ∧ w ≠ encode .eclr ∧
      w ≠ encode .srst) ∨
    (t.PH = .run ∧ t.ERRCODE = 0 ∧ t.ERRCMD = 0 ∧ t.ERRINFO = 0 ∧ (w = encode .eclr ∨ w = encode .srst))

/-- R202, R225: ECLR clears PH and the fault registers and changes nothing else; SRST does the same and resets everything
else; the only ways from phase FAULT to phase RUN are ECLR, SRST and hardware reset. -/
def Obligations.OnlyAcknowledgementLeavesFault : Prop :=
  (∀ s : State, ∃ t, exec .eclr s = .next t ∧ t.PH = .run ∧ t.ERRCODE = 0 ∧ t.ERRCMD = 0 ∧ t.ERRINFO = 0 ∧
    t.RSP = s.RSP ++ [{ err := 0, data := 0 }] ∧
    { t with PH := s.PH, ERRCODE := s.ERRCODE, ERRCMD := s.ERRCMD, ERRINFO := s.ERRINFO, RSP := s.RSP } = s) ∧
  (∀ s : State, ∃ t, exec .srst s = .next t ∧ AtReset t) ∧
  (∀ s t : State, s.PH = .fault → step s = .next t → t.PH = .run →
    s.script[s.pc]? = some .reset ∨ s.script[s.pc]? = some (.command (encode .eclr)) ∨
    s.script[s.pc]? = some (.command (encode .srst)))

/-- R212 to R216, and for a decoded command R217 to R219: which command raises which error, and exactly when. -/
def Obligations.EachErrorHasItsCause : Prop :=
  ∀ (i : Instr) (s t : State), s.PH = .run → exec i s = .next t →
    ((t.PH = .fault ∧ t.ERRCODE = 1) ↔ (i = .build ∧ s.K = 0)) ∧
    ((t.PH = .fault ∧ t.ERRCODE = 2) ↔ ∃ x, i = .enc x ∧ (s.ct x).valid = false) ∧
    ((t.PH = .fault ∧ t.ERRCODE = 3) ↔ (i = .dend ∧ 0 < s.ACC.str.len.toNat)) ∧
    ((t.PH = .fault ∧ t.ERRCODE = 4) ↔ ∃ x y, i = .ild x ∧ s.CW.len ≠ 0 ∧ s.ict s.CW = some y ∧ y ≠ x) ∧
    ((t.PH = .fault ∧ t.ERRCODE = 5) ↔ ((∃ x, i = .cld x ∨ i = .ild x) ∧ s.CW.len = 0)) ∧
    ((t.PH = .fault ∧ t.ERRCODE = 6) ↔
      ((∃ n b, (i = .dbits n b ∨ i = .cwapp n b) ∧ (n.toNat = 0 ∨ 32 < n.toNat)) ∨
        (∃ j, i = .cwrd j ∧ 7 < j.toNat) ∨ (∃ n, i = .csrr n ∧ 7 < n.toNat) ∨
        ∃ n, i = .nrd n ∧ s.TV = true ∧ s.NN.toNat ≤ n.toNat)) ∧
    ((t.PH = .fault ∧ t.ERRCODE = 7) ↔ ((i = .derive ∨ ∃ n, i = .nrd n) ∧ s.TV = false)) ∧
    ((t.PH = .fault ∧ t.ERRCODE = 8) ↔
      ((∃ x, i = .finc x ∧ (s.ft x).toNat = 2 ^ 32 - 1) ∨
        (∃ n b, i = .cwapp n b ∧ 1 ≤ n.toNat ∧ n.toNat ≤ 32 ∧ 255 < s.CW.len.toNat + n.toNat) ∨
        ∃ x, i = .ild x ∧ s.CW.len ≠ 0 ∧ s.ict s.CW = none ∧ s.ICTN = 256))

/-! ## Reset and the invariants -/

/-- R50 and R201: the values after hardware reset and after SRST, from any state and in both phases. -/
def Obligations.ResetValuesOfEveryItem : Prop :=
  AtReset State.reset ∧ State.reset.EO = [] ∧ State.reset.DO = [] ∧
  (∀ s, ∃ t, act .reset s = .next t ∧ AtReset t ∧ t.EO = [] ∧ t.DO = []) ∧
  (∀ s, ∃ t, exec .srst s = .next t ∧ AtReset t ∧ t.EO = s.EO ∧ t.DO = s.DO ∧
    t.RSP = s.RSP ++ [{ err := 0, data := 0 }] ∧ t.script = s.script ∧ t.pc = s.pc)

/-- The state after reset meets every invariant. -/
def Obligations.ResetMeetsInvariant : Prop := Inv State.reset

/-- Canonical bit-strings, non-empty codewords, a clean packer, legal beats and ovf's invariant are kept by every step. -/
def Obligations.StepKeepsBitsCanonical : Prop :=
  ∀ s t : State, BitsOk s → step s = .next t → BitsOk t

/-- The tree invariants of R28 are kept by every step: BUILD makes a tree whatever FT holds, and nothing else touches it. -/
def Obligations.StepKeepsTree : Prop :=
  ∀ s t : State, TreeOk s → step s = .next t → TreeOk t

/-- Every invariant of the spec together is kept by every step. -/
def Obligations.StepKeepsInvariant : Prop :=
  ∀ s t : State, Inv s → step s = .next t → Inv t

/-- No state that meets the invariants is stuck: every step answers a next state (R204: loops always end). -/
def Obligations.StepNeverStops : Prop :=
  ∀ s : State, Inv s → ∃ t, step s = .next t

/-! ## Frequency table -/

/-- R120: FCLR empties the frequency table and touches nothing else. -/
def Obligations.FclrEmptiesCounts : Prop :=
  ∀ s : State, s.PH = .run → ∃ t, exec .fclr s = .next t ∧ (∀ x, t.ft x = 0) ∧ t.K = 0 ∧ t.TOTAL = 0 ∧
    t.RSP = s.RSP ++ [{ err := 0, data := 0 }] ∧ { t with FT := s.FT, RSP := s.RSP } = s

/-- R121: FSET replaces one count, 0 removing the entry, and leaves every other count and everything else. -/
def Obligations.FsetReplacesOneCount : Prop :=
  ∀ (s : State) (x : Sym) (count : Count), s.PH = .run → ∃ t, exec (.fset x count) s = .next t ∧
    (∀ y, t.ft y = if y = x then count else s.ft y) ∧
    t.RSP = s.RSP ++ [{ err := 0, data := 0 }] ∧ { t with FT := s.FT, RSP := s.RSP } = s

/-- R122: FINC adds 1 and answers the new count, or faults at 2^32 − 1 and leaves the count. -/
def Obligations.FincCountsOrFaults : Prop :=
  ∀ (s : State) (x : Sym), s.PH = .run → ∃ t, exec (.finc x) s = .next t ∧
    ((s.ft x).toNat < 2 ^ 32 - 1 → ∃ d : BitVec 64, (t.ft x).toNat = (s.ft x).toNat + 1 ∧
      (∀ y, y ≠ x → t.ft y = s.ft y) ∧ d.toNat = (s.ft x).toNat + 1 ∧
      t.RSP = s.RSP ++ [{ err := 0, data := d }] ∧ { t with FT := s.FT, RSP := s.RSP } = s) ∧
    ((s.ft x).toNat = 2 ^ 32 - 1 → t.PH = .fault ∧ t.ERRCODE = 8 ∧ t.ERRINFO = 1 ∧ t.ERRCMD = encode (.finc x) ∧
      t.RSP = s.RSP ++ [{ err := 8, data := 0 }] ∧
      { t with PH := s.PH, ERRCODE := s.ERRCODE, ERRCMD := s.ERRCMD, ERRINFO := s.ERRINFO, RSP := s.RSP } = s)

/-- R25: after FCLR and one FINC per input symbol the counts are the numbers of occurrences and TOTAL is the input's
length. -/
def Obligations.TallyCountsTheInput : Prop :=
  ∀ (s : State) (text : List Sym), s.PH = .run → text.length < 2 ^ 32 →
    ∃ t, execAll (.fclr :: text.map .finc) s = .next t ∧ t.PH = .run ∧
      (∀ x, (t.ft x).toNat = text.count x) ∧ t.TOTAL = text.length

/-! ## Tree builder -/

/-- R141: BUILD of an empty table faults with InvalidInput and leaves everything but the fault registers. -/
def Obligations.BuildRejectsEmptyTable : Prop :=
  ∀ s : State, s.PH = .run → (∀ x, s.ft x = 0) → ∃ t, exec .build s = .next t ∧ t.PH = .fault ∧ t.ERRCODE = 1 ∧
    t.ERRINFO = 0 ∧ t.ERRCMD = 0x2000000000000000#64 ∧ t.RSP = s.RSP ++ [{ err := 1, data := 0 }] ∧
    { t with PH := s.PH, ERRCODE := s.ERRCODE, ERRCMD := s.ERRCMD, ERRINFO := s.ERRINFO, RSP := s.RSP } = s

/-- R130, R136, R142: BUILD of a table with k ≥ 1 symbols makes a tree of 2k − 1 nodes with the root last, whose
frequency is TOTAL; it answers ROOT and NN, and writes nothing but the arena and its registers. That the arena is a tree
(R28; R139 item 2) the spec marks as its own inference from R131 to R136. -/
def Obligations.BuildMakesTree : Prop :=
  ∀ s : State, s.PH = .run → (∃ x, s.ft x ≠ 0) → ∃ (t : State) (d : BitVec 64), exec .build s = .next t ∧
    t.TV = true ∧ t.NN.toNat = 2 * s.K - 1 ∧ t.ROOT.toNat = 2 * s.K - 2 ∧ IsTree t ∧
    (t.node t.ROOT).freq.toNat = s.TOTAL ∧
    t.RSP = s.RSP ++ [{ err := 0, data := d }] ∧ d.toNat = t.ROOT.toNat + 2 ^ 16 * t.NN.toNat ∧
    { t with NODE := s.NODE, NN := s.NN, ROOT := s.ROOT, TV := s.TV, RSP := s.RSP } = s

/-- R132: the leaves are the Symbols that have a count, in ascending order from index 0, each with its count. -/
def Obligations.BuildLeavesAreTheCounts : Prop :=
  ∀ s t : State, s.PH = .run → (∃ x, s.ft x ≠ 0) → exec .build s = .next t →
    (∀ x, s.ft x ≠ 0 ↔ ∃ i : Idx, i.toNat < s.K ∧ t.node i = .leaf ((s.ft x).setWidth 40) x) ∧
    (∀ i j : Idx, ∀ f x g y, i.toNat < j.toNat → j.toNat < s.K → t.node i = .leaf f x → t.node j = .leaf g y →
      x.toNat < y.toNat)

/-- R133, R134, R135: each internal node merges the two nodes with the least keys (frequency, index) among those that have
no parent yet; the one with the smaller index is the left child, and the frequency is the sum. -/
def Obligations.BuildMergesTheTwoLeast : Prop :=
  ∀ s t : State, s.PH = .run → (∃ x, s.ft x ≠ 0) → exec .build s = .next t →
    ∀ n : Idx, s.K ≤ n.toNat → n.toNat < t.NN.toNat → ∃ f l r, t.node n = .internal f l r ∧ l.toNat < r.toNat ∧
      LiveBefore t n l ∧ LiveBefore t n r ∧
      f.toNat = (t.node l).freq.toNat + (t.node r).freq.toNat ∧
      ∀ j, LiveBefore t n j → j ≠ l → j ≠ r →
        keyLt (nodeKey t l) (nodeKey t j) = true ∧ keyLt (nodeKey t r) (nodeKey t j) = true

/-- R139 item 1: the tree is a function of FT alone, ties included. -/
def Obligations.BuildIsDeterministic : Prop :=
  ∀ s s' t t' : State, s.PH = .run → s'.PH = .run → (∃ x, s.ft x ≠ 0) → (∀ x, s.ft x = s'.ft x) →
    exec .build s = .next t → exec .build s' = .next t' →
    t.NN = t'.NN ∧ t.ROOT = t'.ROOT ∧ t.TV = t'.TV ∧ ∀ i : Idx, i.toNat < t.NN.toNat → t.node i = t'.node i

/-- R138: NRD needs a tree, then an index below NN; it answers the node's fields and changes nothing. -/
def Obligations.NrdReadsOneNode : Prop :=
  ∀ (s : State) (i : BitVec 16), s.PH = .run → ∃ t, exec (.nrd i) s = .next t ∧
    (s.TV = false → t.PH = .fault ∧ t.ERRCODE = 7 ∧ t.ERRINFO = 0) ∧
    (s.TV = true → s.NN.toNat ≤ i.toNat → t.PH = .fault ∧ t.ERRCODE = 6 ∧ t.ERRINFO = 3) ∧
    (s.TV = true → i.toNat < s.NN.toNat → ∃ d : BitVec 64,
      t.RSP = s.RSP ++ [{ err := 0, data := d }] ∧ { t with RSP := s.RSP } = s ∧
      match s.node (BitVec.ofNat 9 i.toNat) with
      | .leaf f x => d.toNat = f.toNat + 2 ^ 40 * x.toNat
      | .internal f l r => d.toNat = f.toNat + 2 ^ 40 * l.toNat + 2 ^ 49 * r.toNat + 2 ^ 58) ∧
    (t.PH = .fault → t.ERRCMD = encode (.nrd i) ∧ t.RSP = s.RSP ++ [{ err := t.ERRCODE, data := 0 }] ∧
      { t with PH := s.PH, ERRCODE := s.ERRCODE, ERRCMD := s.ERRCMD, ERRINFO := s.ERRINFO, RSP := s.RSP } = s)

/-! ## Code-table deriver -/

/-- R152, R154 item 1: on every tree of R28 DERIVE completes, answers k, makes exactly k entries in CT and in ICT, one for
each Symbol of a leaf, and writes nothing but the two tables: the tree stays. -/
def Obligations.DeriveCompletesOnTree : Prop :=
  ∀ s : State, s.PH = .run → s.TV = true → IsTree s → ∃ (t : State) (d : BitVec 64), exec .derive s = .next t ∧
    t.RSP = s.RSP ++ [{ err := 0, data := d }] ∧ d.toNat = leafCount s ∧ t.CTN = leafCount s ∧ t.ICTN = leafCount s ∧
    (∀ x, (t.ct x).valid = true ↔ ∃ i f, i.toNat < leafCount s ∧ s.node i = .leaf f x) ∧
    { t with CT := s.CT, ICT := s.ICT, RSP := s.RSP } = s

/-- R151, R153: the codeword of a Symbol is the path from the root to its leaf, "0" for a single leaf; its length is 1 to
k − 1, or 1. -/
def Obligations.DeriveCodesAreTreePaths : Prop :=
  ∀ s t : State, s.PH = .run → s.TV = true → IsTree s → exec .derive s = .next t →
    (∀ x, (t.ct x).valid = true →
      IsCodeOf s x (t.ct x).code.toList ∧ (t.ct x).code.Canonical ∧
      1 ≤ (t.ct x).code.len.toNat ∧ (t.ct x).code.len.toNat ≤ max 1 (leafCount s - 1)) ∧
    (∀ x c, IsCodeOf s x c → (t.ct x).valid = true ∧ (t.ct x).code = BitStr.ofList c)

/-- R154 item 2: no codeword DERIVE writes is a beginning of another. -/
def Obligations.DerivedCodeIsPrefixFree : Prop :=
  ∀ s t : State, s.PH = .run → s.TV = true → IsTree s → exec .derive s = .next t → PrefixFree t

/-- R154 item 3: the ICT that DERIVE writes is the inverse of its CT. -/
def Obligations.DerivedTablesAreInverse : Prop :=
  ∀ s t : State, s.PH = .run → s.TV = true → IsTree s → exec .derive s = .next t → IctInverts t

/-! ## Encoder -/

/-- R160, R161: ENC of a Symbol with a codeword of L bits answers L, appends exactly those bits to the bits encoded so
far, makes floor((PK.cnt + L) / 32) beats of 32 bits, and changes nothing but PK and EO. -/
def Obligations.EncAppendsCodeword : Prop :=
  ∀ (s : State) (x : Sym), s.PH = .run → (s.ct x).valid = true → ∃ (t : State) (d : BitVec 64),
    exec (.enc x) s = .next t ∧ t.RSP = s.RSP ++ [{ err := 0, data := d }] ∧ d.toNat = (s.ct x).code.len.toNat ∧
    encodedBits t = encodedBits s ++ (s.ct x).code.toList ∧
    (∃ new, t.EO = s.EO ++ new ∧ (∀ b ∈ new, b.cnt = 32) ∧
      new.length = (s.PK.cnt.toNat + (s.ct x).code.len.toNat) / 32) ∧
    { t with PK := s.PK, EO := s.EO, RSP := s.RSP } = s

/-- R213: ENC of a Symbol with no entry faults with UnknownSymbolError before any bit is appended. -/
def Obligations.EncRejectsUnknownSymbol : Prop :=
  ∀ (s : State) (x : Sym), s.PH = .run → (s.ct x).valid = false → ∃ t, exec (.enc x) s = .next t ∧
    t.PH = .fault ∧ t.ERRCODE = 2 ∧ t.ERRINFO.toNat = x.toNat ∧ t.ERRCMD = encode (.enc x) ∧
    t.RSP = s.RSP ++ [{ err := 2, data := 0 }] ∧
    { t with PH := s.PH, ERRCODE := s.ERRCODE, ERRCMD := s.ERRCMD, ERRINFO := s.ERRINFO, RSP := s.RSP } = s

/-- R163: EFLUSH emits the bits still in PK as one short beat, or none when there are none, answers how many, leaves PK
empty and adds no bit to the stream. -/
def Obligations.EflushEmitsTheRest : Prop :=
  ∀ s : State, s.PH = .run → ∃ (t : State) (d : BitVec 64), exec .eflush s = .next t ∧
    t.RSP = s.RSP ++ [{ err := 0, data := d }] ∧ d.toNat = s.PK.cnt.toNat ∧
    bitsEO t = encodedBits s ∧ t.PK = { cnt := 0, buf := 0 } ∧
    (s.PK.cnt = 0 → t.EO = s.EO) ∧
    (s.PK.cnt ≠ 0 → ∃ b : Beat, t.EO = s.EO ++ [b] ∧ b.data = s.PK.buf ∧ b.cnt.toNat = s.PK.cnt.toNat) ∧
    { t with PK := s.PK, EO := s.EO, RSP := s.RSP } = s

/-- R164: from an empty packer, one ENC per symbol and one EFLUSH append to bits(EO) exactly the codewords, in order. -/
def Obligations.EncodedStreamIsTheCodewords : Prop :=
  ∀ (s : State) (text : List Sym), s.PH = .run → s.PK.cnt = 0 → (∀ x ∈ text, (s.ct x).valid = true) →
    ∃ t, execAll (text.map .enc ++ [.eflush]) s = .next t ∧ t.PH = .run ∧
      bitsEO t = bitsEO s ++ text.flatMap (fun x => (s.ct x).code.toList)

/-! ## Decoder -/

/-- R170: DBITS of 1 to 32 bits completes, answers how many Symbols it emitted, at most n, and changes nothing but ACC and
DO; any other n faults with IllegalCommand. -/
def Obligations.DbitsCompletes : Prop :=
  ∀ (s : State) (n : BitVec 8) (bits : BitVec 32), s.PH = .run → ∃ t, exec (.dbits n bits) s = .next t ∧
    (1 ≤ n.toNat → n.toNat ≤ 32 → ∃ (new : List Sym) (d : BitVec 64), t.DO = s.DO ++ new ∧ new.length ≤ n.toNat ∧
      t.RSP = s.RSP ++ [{ err := 0, data := d }] ∧ d.toNat = new.length ∧
      { t with ACC := s.ACC, DO := s.DO, RSP := s.RSP } = s) ∧
    (n.toNat = 0 ∨ 32 < n.toNat → t.PH = .fault ∧ t.ERRCODE = 6 ∧ t.ERRINFO = 3 ∧
      t.RSP = s.RSP ++ [{ err := 6, data := 0 }] ∧
      { t with PH := s.PH, ERRCODE := s.ERRCODE, ERRCMD := s.ERRCMD, ERRINFO := s.ERRINFO, RSP := s.RSP } = s)

/-- R171, R174: the 255-bit accumulator with its overflow flag behaves as the document's unbounded accumulator: DBITS emits
the Symbols the document's algorithm emits, earliest match first, and ACC holds what that accumulator holds. -/
def Obligations.DbitsRefinesTheDocument : Prop :=
  ∀ (s t : State) (n : BitVec 8) (bits : BitVec 32) (u : List Bool), s.PH = .run →
    1 ≤ n.toNat → n.toNat ≤ 32 → AccHolds s.ACC u → exec (.dbits n bits) s = .next t →
    t.DO = s.DO ++ (documentDecode (inverseTable s) u (bitsOf bits n.toNat)).1 ∧
    AccHolds t.ACC (documentDecode (inverseTable s) u (bitsOf bits n.toNat)).2

/-- R172: DEND tests the accumulator: empty, it completes and changes nothing; not empty, TruncatedStreamError with the
length and the overflow flag, ACC kept. -/
def Obligations.DendTestsAccumulator : Prop :=
  ∀ s : State, s.PH = .run → ∃ t, exec .dend s = .next t ∧
    (s.ACC.str.len = 0 → t.RSP = s.RSP ++ [{ err := 0, data := 0 }] ∧ { t with RSP := s.RSP } = s) ∧
    (s.ACC.str.len ≠ 0 → t.PH = .fault ∧ t.ERRCODE = 3 ∧
      t.ERRINFO.toNat = s.ACC.str.len.toNat + 256 * s.ACC.ovf.toNat ∧ t.ERRCMD = encode .dend ∧
      t.RSP = s.RSP ++ [{ err := 3, data := 0 }] ∧
      { t with PH := s.PH, ERRCODE := s.ERRCODE, ERRCMD := s.ERRCMD, ERRINFO := s.ERRINFO, RSP := s.RSP } = s)

/-- R173: DRST empties the accumulator, whatever it holds, and touches nothing else. -/
def Obligations.DrstEmptiesAccumulator : Prop :=
  ∀ s : State, s.PH = .run → ∃ t, exec .drst s = .next t ∧ AccHolds t.ACC [] ∧ t.ACC.str.toList = [] ∧
    t.ACC.ovf = false ∧ t.RSP = s.RSP ++ [{ err := 0, data := 0 }] ∧ { t with ACC := s.ACC, RSP := s.RSP } = s

/-- R174 and the document's round trip for any table: with a prefix-free CT, ICT its inverse, and PK and ACC empty,
encoding a text and feeding the beats back emits the text, with no fault and nothing left over. -/
def Obligations.DecodingInvertsEncoding : Prop :=
  ∀ (s : State) (text : List Sym), s.PH = .run → BitsOk s → PrefixFree s → IctInverts s →
    s.PK.cnt = 0 → AccHolds s.ACC [] → (∀ x ∈ text, (s.ct x).valid = true) →
    ∃ t u, execAll (text.map .enc ++ [.eflush]) s = .next t ∧
      execAll (feedCommands (t.EO.drop s.EO.length) ++ [.dend]) t = .next u ∧
      u.DO = s.DO ++ text ∧ u.PH = .run ∧ AccHolds u.ACC []

/-- R175: from reset, counting, building, deriving and encoding a text and feeding the beats back gives the text: no
command faults, DO is the text, and the accumulator is empty. -/
def Obligations.RoundTripFromReset : Prop :=
  ∀ text : List Sym, text ≠ [] → (∀ x, text.count x < 2 ^ 32) →
    ∃ t u, execAll (encodeCommands text) State.reset = .next t ∧
      execAll (feedCommands t.EO ++ [.dend]) t = .next u ∧
      (∀ r ∈ u.RSP, r.err = 0) ∧ u.DO = text ∧ AccHolds u.ACC []

/-! ## Table port -/

/-- R180: CWCLR leaves the empty bit-string in CW. -/
def Obligations.CwclrEmptiesStaging : Prop :=
  ∀ s : State, s.PH = .run → ∃ t, exec .cwclr s = .next t ∧ t.CW.toList = [] ∧ t.CW.Canonical ∧
    t.RSP = s.RSP ++ [{ err := 0, data := 0 }] ∧ { t with CW := s.CW, RSP := s.RSP } = s

/-- R181: CWAPP appends imm[0] to imm[n − 1] to the codeword and answers the new length, or faults: n outside 1 to 32,
then a result longer than 255 bits, CW then unchanged. -/
def Obligations.CwappAppendsBits : Prop :=
  ∀ (s : State) (n : BitVec 8) (imm : BitVec 32), s.PH = .run → ∃ t, exec (.cwapp n imm) s = .next t ∧
    (1 ≤ n.toNat → n.toNat ≤ 32 → s.CW.len.toNat + n.toNat ≤ 255 → ∃ d : BitVec 64,
      t.CW.toList = s.CW.toList ++ bitsOf imm n.toNat ∧ (s.CW.Canonical → t.CW.Canonical) ∧
      t.RSP = s.RSP ++ [{ err := 0, data := d }] ∧ d.toNat = s.CW.len.toNat + n.toNat ∧
      { t with CW := s.CW, RSP := s.RSP } = s) ∧
    (n.toNat = 0 ∨ 32 < n.toNat → t.PH = .fault ∧ t.ERRCODE = 6 ∧ t.ERRINFO = 3) ∧
    (1 ≤ n.toNat → n.toNat ≤ 32 → 255 < s.CW.len.toNat + n.toNat → t.PH = .fault ∧ t.ERRCODE = 8 ∧ t.ERRINFO = 2) ∧
    (t.PH = .fault → t.ERRCMD = encode (.cwapp n imm) ∧ t.RSP = s.RSP ++ [{ err := t.ERRCODE, data := 0 }] ∧
      { t with PH := s.PH, ERRCODE := s.ERRCODE, ERRCMD := s.ERRCMD, ERRINFO := s.ERRINFO, RSP := s.RSP } = s)

/-- R182: CWRD j answers bits 32j to 32j + 31 of CW and its length, or faults for j > 7. -/
def Obligations.CwrdReadsOneChunk : Prop :=
  ∀ (s : State) (j : BitVec 16), s.PH = .run → ∃ t, exec (.cwrd j) s = .next t ∧
    (j.toNat ≤ 7 → ∃ d : BitVec 64, t.RSP = s.RSP ++ [{ err := 0, data := d }] ∧ { t with RSP := s.RSP } = s ∧
      (∀ i, i < 32 → d.getLsbD i = s.CW.bits.getLsbD (32 * j.toNat + i)) ∧
      d.toNat / 2 ^ 32 = s.CW.len.toNat) ∧
    (7 < j.toNat → t.PH = .fault ∧ t.ERRCODE = 6 ∧ t.ERRINFO = 3 ∧ t.RSP = s.RSP ++ [{ err := 6, data := 0 }] ∧
      { t with PH := s.PH, ERRCODE := s.ERRCODE, ERRCMD := s.ERRCMD, ERRINFO := s.ERRINFO, RSP := s.RSP } = s)

/-- R185, R188: CCLR clears every valid bit of CT, ICLR empties ICT; neither touches the other table nor CW, ACC or the
tree. -/
def Obligations.ClearingTheCodeTables : Prop :=
  ∀ s : State, s.PH = .run →
    (∃ t, exec .cclr s = .next t ∧ (∀ x, (t.ct x).valid = false) ∧ t.CTN = 0 ∧
      t.RSP = s.RSP ++ [{ err := 0, data := 0 }] ∧ { t with CT := s.CT, RSP := s.RSP } = s) ∧
    (∃ t, exec .iclr s = .next t ∧ (∀ k, t.ict k = none) ∧ t.ICTN = 0 ∧
      t.RSP = s.RSP ++ [{ err := 0, data := 0 }] ∧ { t with ICT := s.ICT, RSP := s.RSP } = s)

/-- R186: CLD makes CW the codeword of one Symbol, replacing any entry; an empty CW is MalformedRecordError. -/
def Obligations.CldLoadsOneEntry : Prop :=
  ∀ (s : State) (x : Sym), s.PH = .run → ∃ t, exec (.cld x) s = .next t ∧
    (s.CW.len ≠ 0 → (t.ct x).valid = true ∧ (t.ct x).code = s.CW ∧ (∀ y, y ≠ x → t.ct y = s.ct y) ∧
      t.RSP = s.RSP ++ [{ err := 0, data := 0 }] ∧ { t with CT := s.CT, RSP := s.RSP } = s) ∧
    (s.CW.len = 0 → t.PH = .fault ∧ t.ERRCODE = 5 ∧ t.ERRINFO = 0 ∧ t.ERRCMD = encode (.cld x) ∧
      t.RSP = s.RSP ++ [{ err := 5, data := 0 }] ∧
      { t with PH := s.PH, ERRCODE := s.ERRCODE, ERRCMD := s.ERRCMD, ERRINFO := s.ERRINFO, RSP := s.RSP } = s)

/-- R187: CRD copies the codeword of one Symbol into CW and answers its length and valid, or empties CW and answers 0. -/
def Obligations.CrdReadsOneEntry : Prop :=
  ∀ (s : State) (x : Sym), s.PH = .run → ∃ (t : State) (d : BitVec 64), exec (.crd x) s = .next t ∧
    t.RSP = s.RSP ++ [{ err := 0, data := d }] ∧ { t with CW := s.CW, RSP := s.RSP } = s ∧
    ((s.ct x).valid = true → t.CW = (s.ct x).code ∧ d.toNat = 256 + (s.ct x).code.len.toNat) ∧
    ((s.ct x).valid = false → t.CW.toList = [] ∧ t.CW.Canonical ∧ d = 0)

/-- R189: ILD adds the record (CW, x); an empty CW, a codeword already there for another Symbol and a full table fault in
that order, and the same record again adds nothing. -/
def Obligations.IldInsertsOneRecord : Prop :=
  ∀ (s : State) (x : Sym), s.PH = .run → ∃ t, exec (.ild x) s = .next t ∧
    (s.CW.len = 0 → t.PH = .fault ∧ t.ERRCODE = 5 ∧ t.ERRINFO = 0) ∧
    (∀ y, s.CW.len ≠ 0 → s.ict s.CW = some y → y ≠ x →
      t.PH = .fault ∧ t.ERRCODE = 4 ∧ t.ERRINFO.toNat = y.toNat + 256 * x.toNat) ∧
    (s.CW.len ≠ 0 → s.ict s.CW = some x →
      t.RSP = s.RSP ++ [{ err := 0, data := 0 }] ∧ { t with RSP := s.RSP } = s) ∧
    (s.CW.len ≠ 0 → s.ict s.CW = none → s.ICTN = 256 → t.PH = .fault ∧ t.ERRCODE = 8 ∧ t.ERRINFO = 3) ∧
    (s.CW.len ≠ 0 → s.ict s.CW = none → s.ICTN ≠ 256 →
      (∀ k, t.ict k = if k = s.CW then some x else s.ict k) ∧ t.ICTN = s.ICTN + 1 ∧
      t.RSP = s.RSP ++ [{ err := 0, data := 1 }] ∧ { t with ICT := s.ICT, RSP := s.RSP } = s) ∧
    (t.PH = .fault → t.ERRCMD = encode (.ild x) ∧ t.RSP = s.RSP ++ [{ err := t.ERRCODE, data := 0 }] ∧
      { t with PH := s.PH, ERRCODE := s.ERRCODE, ERRCMD := s.ERRCMD, ERRINFO := s.ERRINFO, RSP := s.RSP } = s)

/-- R190: ILK answers the Symbol CW maps to, or 0 on a miss; an empty CW is a miss; nothing changes. -/
def Obligations.IlkLooksUp : Prop :=
  ∀ s : State, s.PH = .run → ∃ (t : State) (d : BitVec 64), exec .ilk s = .next t ∧
    t.RSP = s.RSP ++ [{ err := 0, data := d }] ∧ { t with RSP := s.RSP } = s ∧
    (s.CW.len = 0 → d = 0) ∧
    (s.CW.len ≠ 0 → s.ict s.CW = none → d = 0) ∧
    (∀ x, s.CW.len ≠ 0 → s.ict s.CW = some x → d.toNat = 256 + x.toNat)

/-- R191: ICLR, then CRD and ILD of every valid entry in any order of the Symbols, makes ICT the inverse of CT without a
fault when no two Symbols share a codeword; when two do, a DuplicateCodeError is raised. -/
def Obligations.TableTransferInvertsCt : Prop :=
  ∀ (s : State) (order : List Sym), s.PH = .run → BitsOk s → order.Perm allSyms →
    ∃ t u, exec .iclr s = .next t ∧ transferCodes order t = .next u ∧
      ((∀ x y, (s.ct x).valid = true → (s.ct y).valid = true → (s.ct x).code = (s.ct y).code → x = y) →
        u.PH = .run ∧ u.CT = s.CT ∧ IctInverts u) ∧
      ((∃ x y, x ≠ y ∧ (s.ct x).valid = true ∧ (s.ct y).valid = true ∧ (s.ct x).code = (s.ct y).code) →
        u.PH = .fault ∧ u.ERRCODE = 4)

/-! ## System commands and registers -/

/-- R200: NOP answers 0 and changes no state, in both phases. -/
def Obligations.NopChangesNothing : Prop :=
  ∀ s : State, ∃ t, exec .nop s = .next t ∧ t.RSP = s.RSP ++ [{ err := 0, data := 0 }] ∧ { t with RSP := s.RSP } = s

/-- R40, R42, R43, R46, R48, R49, R203: CSRR n answers the register in both phases and has no side effect; the fields of
each register stand where its rule puts them, and every other bit reads 0. -/
def Obligations.CsrrReadsRegisters : Prop :=
  ∀ (s : State) (n : BitVec 16), n.toNat ≤ 7 → ∃ (t : State) (d : BitVec 64), exec (.csrr n) s = .next t ∧
    t.RSP = s.RSP ++ [{ err := 0, data := d }] ∧ { t with RSP := s.RSP } = s ∧
    (n = 0 → d = 0x0000000148554646#64) ∧
    (n = 1 → d.toNat = (if s.PH = .fault then 1 else 0) + 2 * s.TV.toNat
      + (if 0 < s.CTN then 4 else 0) + (if 0 < s.ICTN then 8 else 0) + (if 0 < s.ACC.str.len.toNat then 16 else 0)
      + 32 * s.ACC.ovf.toNat + (if 0 < s.PK.cnt.toNat then 64 else 0) + (if 0 < s.CW.len.toNat then 128 else 0)
      + 256 * s.ERRCODE.toNat) ∧
    (n = 2 → d = s.ERRCMD) ∧
    (n = 3 → d = s.ERRINFO) ∧
    (n = 4 → d.toNat = s.ROOT.toNat + 2 ^ 16 * s.NN.toNat) ∧
    (n = 5 → d.toNat = s.K + 2 ^ 24 * s.TOTAL) ∧
    (n = 6 → s.ICTN ≤ 256 → d.toNat = s.CTN + 2 ^ 16 * s.ICTN) ∧
    (n = 7 → d.toNat = s.CW.len.toNat + 2 ^ 8 * s.ACC.str.len.toNat + 2 ^ 16 * s.ACC.ovf.toNat
      + 2 ^ 24 * s.PK.cnt.toNat) ∧
    (s = State.reset → n ≠ 0 → d = 0)

/-- R203: an unassigned register number is IllegalCommand in phase RUN and refused in phase FAULT. -/
def Obligations.CsrrRejectsUnassigned : Prop :=
  ∀ (s : State) (n : BitVec 16), 7 < n.toNat → ∃ t, exec (.csrr n) s = .next t ∧
    (s.PH = .run → t.PH = .fault ∧ t.ERRCODE = 6 ∧ t.ERRINFO = 3 ∧ t.ERRCMD = encode (.csrr n) ∧
      t.RSP = s.RSP ++ [{ err := 6, data := 0 }] ∧
      { t with PH := s.PH, ERRCODE := s.ERRCODE, ERRCMD := s.ERRCMD, ERRINFO := s.ERRINFO, RSP := s.RSP } = s) ∧
    (s.PH = .fault → t.RSP = s.RSP ++ [{ err := 15, data := 0 }] ∧ { t with RSP := s.RSP } = s)

/-- R123: FRD answers one count and changes nothing. -/
def Obligations.FrdReadsOneCount : Prop :=
  ∀ (s : State) (x : Sym), s.PH = .run → ∃ (t : State) (d : BitVec 64), exec (.frd x) s = .next t ∧
    t.RSP = s.RSP ++ [{ err := 0, data := d }] ∧ d.toNat = (s.ft x).toNat ∧ { t with RSP := s.RSP } = s

/-! ## Whole-machine rules -/

/-- 20_memory.md R60 and 10_state.md R21, R22, R27, R31 to R35: which commands may change which table, register and
stream. PH and the fault registers change only under ECLR, SRST or a command that takes phase RUN to phase FAULT. -/
def Obligations.OnlyItsCommandsWriteEachItem : Prop :=
  ∀ (i : Instr) (s t : State), exec i s = .next t →
    (t.PH ≠ s.PH ∨ t.ERRCODE ≠ s.ERRCODE ∨ t.ERRCMD ≠ s.ERRCMD ∨ t.ERRINFO ≠ s.ERRINFO →
      i = .eclr ∨ i = .srst ∨ (s.PH = .run ∧ t.PH = .fault)) ∧
    (t.FT ≠ s.FT → i = .srst ∨ i = .fclr ∨ (∃ x c, i = .fset x c) ∨ ∃ x, i = .finc x) ∧
    (t.NODE ≠ s.NODE → i = .build) ∧
    (t.NN ≠ s.NN ∨ t.ROOT ≠ s.ROOT ∨ t.TV ≠ s.TV → i = .build ∨ i = .srst) ∧
    (t.CT ≠ s.CT → i = .derive ∨ i = .cclr ∨ i = .srst ∨ ∃ x, i = .cld x) ∧
    (t.ICT ≠ s.ICT → i = .derive ∨ i = .iclr ∨ i = .srst ∨ ∃ x, i = .ild x) ∧
    (t.CW ≠ s.CW → i = .cwclr ∨ i = .srst ∨ (∃ n b, i = .cwapp n b) ∨ ∃ x, i = .crd x) ∧
    (t.PK ≠ s.PK → i = .eflush ∨ i = .srst ∨ ∃ x, i = .enc x) ∧
    (t.ACC ≠ s.ACC → i = .drst ∨ i = .srst ∨ ∃ n b, i = .dbits n b) ∧
    (t.EO ≠ s.EO → i = .eflush ∨ ∃ x, i = .enc x) ∧
    (t.DO ≠ s.DO → ∃ n b, i = .dbits n b) ∧
    t.script = s.script ∧ t.pc = s.pc

/-- R34, R35: the output streams only grow, under every command. -/
def Obligations.StreamsOnlyGrow : Prop :=
  ∀ (i : Instr) (s t : State), exec i s = .next t → s.EO <+: t.EO ∧ s.DO <+: t.DO ∧ s.RSP <+: t.RSP

/-- R26, R29, R50: what the spec leaves unspecified (NODE at NN and above, the codeword of an invalid CT entry) is
unobservable: two states that agree on all else answer alike, emit alike and agree again after every step. -/
def Obligations.UnspecifiedContentIsUnobservable : Prop :=
  ∀ s s' : State, SameVisible s s' →
    (∀ t, step s = .next t → ∃ t', step s' = .next t' ∧ SameVisible t t') ∧
    (∀ r, step s = .fault r → step s' = .fault r)

/-- R101: the pseudo-instruction CWSET leaves its bit-string in CW, chunk by chunk, and faults nowhere. -/
def Obligations.CwsetLoadsTheLiteral : Prop :=
  ∀ (s : State) (c : List Bool), s.PH = .run → c.length ≤ 255 →
    ∃ t, execAll (Pseudo.cwset c).expand s = .next t ∧ t.PH = .run ∧ t.CW = BitStr.ofList c
end

