-- ==== Sys2Proof/Laws/Bits.lean ====
section
/-! SUPPORT. The laws of bits and bit-strings: writing one bit, reading a vector as a sequence, and the pair (len, bits) of
00_scope.md R10. -/

namespace Sys2Proof.Machine

theorem getLsbD_setBit {w : Nat} (v : BitVec w) (i : Nat) (x : Bool) (j : Nat) :
    (setBit v i x).getLsbD j = if j = i ∧ j < w then x else v.getLsbD j := by
  have hone : (1#w <<< i).getLsbD j = (decide (j = i) && decide (j < w)) := by
    simp only [BitVec.getLsbD_shiftLeft, BitVec.getLsbD_one]
    by_cases h : j = i
    · subst h; by_cases hw : j < w <;> simp [hw]
      omega
    · by_cases hw : j < w <;> simp [hw, h]
      omega
  unfold setBit
  by_cases hw : j < w
  · cases x
    · simp only [Bool.false_eq_true, if_false, BitVec.getLsbD_and, BitVec.getLsbD_not, hone]
      by_cases h : j = i
      · subst h; simp [hw]
      · simp [h, hw]
    · simp only [if_true, BitVec.getLsbD_or, hone]
      by_cases h : j = i
      · subst h; simp [hw]
      · simp [h]
  · simp [hw, BitVec.getLsbD_of_ge _ j (Nat.le_of_not_lt hw)]

@[simp] theorem length_bitsOf {w : Nat} (v : BitVec w) (n : Nat) : (bitsOf v n).length = n := by simp [bitsOf]

theorem getElem_bitsOf {w : Nat} (v : BitVec w) (n i : Nat) (h : i < (bitsOf v n).length) :
    (bitsOf v n)[i] = v.getLsbD i := by simp [bitsOf]

@[simp] theorem bitsOf_zero {w : Nat} (v : BitVec w) : bitsOf v 0 = [] := rfl

theorem bitsOf_succ {w : Nat} (v : BitVec w) (n : Nat) : bitsOf v (n + 1) = bitsOf v n ++ [v.getLsbD n] := by
  simp [bitsOf, List.range_succ]

/-- Two vectors with the same first n bits read the same. -/
theorem bitsOf_congr {w w' : Nat} {v : BitVec w} {v' : BitVec w'} {n : Nat}
    (h : ∀ i < n, v.getLsbD i = v'.getLsbD i) : bitsOf v n = bitsOf v' n := by
  apply List.map_congr_left
  intro i hi
  exact h i (List.mem_range.1 hi)

/-- Writing the bit after the first n makes the sequence longer by it. -/
theorem bitsOf_setBit {w : Nat} (v : BitVec w) (n : Nat) (x : Bool) (h : n < w) :
    bitsOf (setBit v n x) (n + 1) = bitsOf v n ++ [x] := by
  rw [bitsOf_succ, getLsbD_setBit, if_pos ⟨rfl, h⟩]
  congr 1
  apply bitsOf_congr
  intro i hi
  rw [getLsbD_setBit, if_neg (by omega)]

theorem testBit_natOfBits (l : List Bool) (i : Nat) : (natOfBits l).testBit i = l.getD i false := by
  induction l generalizing i with
  | nil => simp [natOfBits]
  | cons x xs ih =>
    cases i with
    | zero => cases x <;> simp [natOfBits, Nat.testBit_zero, Nat.add_mod]
    | succ i =>
      have : (x.toNat + 2 * natOfBits xs) / 2 = natOfBits xs := by cases x <;> simp <;> omega
      rw [natOfBits, Nat.testBit_succ, this, ih]
      simp

theorem natOfBits_lt (l : List Bool) : natOfBits l < 2 ^ l.length := by
  induction l with
  | nil => simp [natOfBits]
  | cons x xs ih =>
    have : x.toNat ≤ 1 := by cases x <;> simp
    simp only [natOfBits, List.length_cons, Nat.pow_succ]
    omega

/-- The vector of a list of bits has the list's bits first and 0 above. -/
theorem getLsbD_ofNat_natOfBits (w : Nat) (l : List Bool) (i : Nat) :
    (BitVec.ofNat w (natOfBits l)).getLsbD i = (decide (i < w) && l.getD i false) := by
  simp [BitVec.getLsbD_ofNat, testBit_natOfBits]

theorem bitsOf_ofNat_natOfBits (w : Nat) (l : List Bool) (h : l.length ≤ w) :
    bitsOf (BitVec.ofNat w (natOfBits l)) l.length = l := by
  apply List.ext_getElem (by simp)
  intro i h1 h2
  have hi : i < w := Nat.lt_of_lt_of_le h2 h
  rw [getElem_bitsOf, getLsbD_ofNat_natOfBits]
  simp [hi, h2]

/-- No bit at n or above, bit by bit. -/
theorem shiftRight_eq_zero_iff {w : Nat} (v : BitVec w) (n : Nat) :
    v >>> n = 0 ↔ ∀ i, n ≤ i → v.getLsbD i = false := by
  constructor
  · intro h i hi
    have : (v >>> n).getLsbD (i - n) = false := by rw [h]; simp
    rwa [BitVec.getLsbD_ushiftRight, show n + (i - n) = i by omega] at this
  · intro h
    apply BitVec.eq_of_getLsbD_eq
    intro i _
    rw [BitVec.getLsbD_ushiftRight, h _ (by omega)]
    simp

end Sys2Proof.Machine

namespace Sys2Proof.BitStr

open Machine

@[simp] theorem length_toList (c : BitStr) : c.toList.length = c.len.toNat := by simp [toList]

theorem len_ofList {l : List Bool} (h : l.length ≤ 255) : (ofList l).len.toNat = l.length := by
  simp [ofList]; omega

/-- str(pair(c)) = c for a bit-string of at most 255 bits (R10). -/
theorem toList_ofList {l : List Bool} (h : l.length ≤ 255) : (ofList l).toList = l := by
  rw [toList, len_ofList h]
  exact bitsOf_ofNat_natOfBits 255 l h

theorem canonical_ofList {l : List Bool} (h : l.length ≤ 255) : (ofList l).Canonical := by
  rw [Canonical, shiftRight_eq_zero_iff, len_ofList h]
  intro i hi
  rw [ofList, getLsbD_ofNat_natOfBits]
  simp [hi]

/-- Two canonical pairs are equal exactly when their bit-strings are (R10). -/
theorem eq_of_toList_eq {c d : BitStr} (hc : c.Canonical) (hd : d.Canonical) (h : c.toList = d.toList) : c = d := by
  have hl : c.len = d.len := by
    apply BitVec.eq_of_toNat_eq
    rw [← length_toList, ← length_toList, h]
  rw [Canonical, shiftRight_eq_zero_iff] at hc hd
  have hb : c.bits = d.bits := by
    apply BitVec.eq_of_getLsbD_eq
    intro i _
    by_cases hi : i < c.len.toNat
    · have h1 : c.toList[i]? = d.toList[i]? := by rw [h]
      have hi' : i < d.len.toNat := hl ▸ hi
      simpa [toList, bitsOf, hi, hi'] using h1
    · rw [hc i (by omega), hd i (by rw [← hl]; omega)]
  cases c; cases d; simp_all

/-- pair(str(c)) = c for a canonical pair (R10). -/
theorem ofList_toList {c : BitStr} (hc : c.Canonical) : ofList c.toList = c := by
  have hlen : c.toList.length ≤ 255 := by have := c.len.isLt; simp; omega
  exact eq_of_toList_eq (canonical_ofList hlen) hc (toList_ofList hlen)

theorem ofList_injective {l m : List Bool} (hl : l.length ≤ 255) (hm : m.length ≤ 255) (h : ofList l = ofList m) :
    l = m := by rw [← toList_ofList hl, ← toList_ofList hm, h]

theorem len_push {c : BitStr} (h : c.len.toNat < 255) (x : Bool) : (c.push x).len.toNat = c.len.toNat + 1 := by
  simp [push, BitVec.toNat_add]; omega

/-- One bit after those already there. -/
theorem toList_push {c : BitStr} (h : c.len.toNat < 255) (x : Bool) : (c.push x).toList = c.toList ++ [x] := by
  rw [toList, len_push h]
  exact bitsOf_setBit c.bits c.len.toNat x h

theorem canonical_push {c : BitStr} (hc : c.Canonical) (h : c.len.toNat < 255) (x : Bool) : (c.push x).Canonical := by
  rw [Canonical, shiftRight_eq_zero_iff] at *
  rw [len_push h]
  intro i hi
  rw [push, getLsbD_setBit, if_neg (by omega)]
  exact hc i (by omega)

theorem push_ofList {l : List Bool} (h : l.length < 255) (x : Bool) : (ofList l).push x = ofList (l ++ [x]) := by
  have hl : (ofList l).len.toNat < 255 := by rw [len_ofList (by omega)]; exact h
  apply eq_of_toList_eq (canonical_push (canonical_ofList (by omega)) hl x) (canonical_ofList (by simp; omega))
  rw [toList_push hl, toList_ofList (by omega), toList_ofList (by simp; omega)]

theorem len_append {c : BitStr} {l : List Bool} (h : c.len.toNat + l.length ≤ 255) :
    (c.append l).len.toNat = c.len.toNat + l.length := by
  induction l generalizing c with
  | nil => rfl
  | cons x xs ih =>
    simp only [List.length_cons] at h
    have h1 := len_push (c := c) (by omega) x
    rw [append, List.foldl_cons, ← append, ih (by omega), h1]
    simp; omega

/-- Several bits after those already there (R181). -/
theorem toList_append {c : BitStr} {l : List Bool} (h : c.len.toNat + l.length ≤ 255) :
    (c.append l).toList = c.toList ++ l := by
  induction l generalizing c with
  | nil => simp [append]
  | cons x xs ih =>
    simp only [List.length_cons] at h
    have h1 := len_push (c := c) (by omega) x
    rw [append, List.foldl_cons, ← append, ih (by omega), toList_push (by omega)]
    simp

theorem canonical_append {c : BitStr} {l : List Bool} (hc : c.Canonical) (h : c.len.toNat + l.length ≤ 255) :
    (c.append l).Canonical := by
  induction l generalizing c with
  | nil => exact hc
  | cons x xs ih =>
    simp only [List.length_cons] at h
    have h1 := len_push (c := c) (by omega) x
    rw [append, List.foldl_cons, ← append]
    exact ih (canonical_push hc (by omega) x) (by omega)

/-- Each pair has a number of its own. -/
theorem key_injective (c d : BitStr) (h : c.key = d.key) : c = d := by
  have h' : (c.bits ++ c.len : BitVec (255 + 8)) = d.bits ++ d.len := BitVec.eq_of_toNat_eq h
  have hl : c.len = d.len := by
    apply BitVec.eq_of_getLsbD_eq
    intro i hi
    have e := congrArg (fun v => BitVec.getLsbD v i) h'
    rw [BitVec.getLsbD_append, BitVec.getLsbD_append, if_pos hi, if_pos hi] at e
    exact e
  have hb : c.bits = d.bits := by
    apply BitVec.eq_of_getLsbD_eq
    intro i _
    have e := congrArg (fun v => BitVec.getLsbD v (i + 8)) h'
    rw [BitVec.getLsbD_append, BitVec.getLsbD_append, if_neg (by omega), if_neg (by omega)] at e
    simpa using e
  cases c; cases d; simp_all

end Sys2Proof.BitStr
end

