-- ==== Sys2Proof/Laws/Operands.lean ====
section
/-! SUPPORT. The legal operand ranges as propositions (30_encoding.md R92), and the number a concatenation holds. -/

namespace Sys2Proof.Machine

theorem legalBitCount_iff (n : BitVec 8) : legalBitCount n = true ↔ 1 ≤ n.toNat ∧ n.toNat ≤ 32 := by
  rw [legalBitCount, Bool.and_eq_true, decide_eq_true_iff, decide_eq_true_iff, Config.beatW]

theorem legalBitCount_eq_false_iff (n : BitVec 8) : legalBitCount n = false ↔ n.toNat = 0 ∨ 32 < n.toNat := by
  rw [← Bool.not_eq_true, legalBitCount_iff]
  omega

theorem legalChunk_iff (j : BitVec 16) : legalChunk j = true ↔ j.toNat ≤ 7 := by
  rw [legalChunk, decide_eq_true_iff]

theorem legalCsr_iff (n : BitVec 16) : legalCsr n = true ↔ n.toNat ≤ 7 := by
  rw [legalCsr, decide_eq_true_iff]

theorem legalNode_iff (i : BitVec 16) (nn : Idx) : legalNode i nn = true ↔ i.toNat < nn.toNat := by
  rw [legalNode, decide_eq_true_iff]

/-- The high part of a concatenation counts in units of the low part's range. -/
theorem toNat_append_eq {a b : Nat} (x : BitVec a) (y : BitVec b) : (x ++ y).toNat = x.toNat * 2 ^ b + y.toNat := by
  rw [BitVec.toNat_append, Nat.shiftLeft_eq, Nat.mul_comm, ← Nat.two_pow_add_eq_or_of_lt y.isLt]

end Sys2Proof.Machine
end

