-- ==== Sys2Proof/Laws/Table.lean ====
section
/-! SUPPORT. The laws of the tables: a read after a write, a write leaves every other key alone, and every operation keeps
the canonical form. The read laws hold of every list, canonical or not. -/

namespace Sys2Proof.Machine.Table

variable {κ β : Type} [DecidableEq κ]

@[simp] theorem find?_nil (k : κ) : find? ([] : Table κ β) k = none := rfl

theorem find?_cons (p : κ × β) (t : Table κ β) (k : κ) :
    find? (p :: t) k = if p.1 = k then some p.2 else find? t k := rfl

theorem find?_eq_none_iff (t : Table κ β) (k : κ) : find? t k = none ↔ ∀ p ∈ t, p.1 ≠ k := by
  induction t with
  | nil => simp
  | cons p t ih => by_cases h : p.1 = k <;> simp [find?_cons, h, ih]

theorem mem_of_find? {t : Table κ β} {k : κ} {v : β} (h : find? t k = some v) : (k, v) ∈ t := by
  induction t with
  | nil => simp at h
  | cons p t ih =>
    by_cases hk : p.1 = k
    · simp [find?_cons, hk] at h
      have : p = (k, v) := Prod.ext hk h
      simp [this]
    · simp [find?_cons, hk] at h
      exact List.mem_cons_of_mem _ (ih h)

theorem find?_erase (t : Table κ β) (k k' : κ) :
    find? (erase t k) k' = if k' = k then none else find? t k' := by
  induction t with
  | nil => simp [erase]
  | cons p t ih =>
    by_cases hp : p.1 = k
    · have he : erase (p :: t) k = erase t k := by simp [erase, hp]
      rw [he, ih, find?_cons]
      by_cases hk : k' = k
      · simp [hk]
      · have hp' : p.1 ≠ k' := fun h => hk (h.symm.trans hp)
        simp [hk, hp']
    · have he : erase (p :: t) k = p :: erase t k := by simp [erase, hp]
      rw [he, find?_cons, ih, find?_cons]
      by_cases hk : k' = k
      · subst hk; simp [hp]
      · simp [hk]

theorem find?_insertSorted (ord : κ → Nat) {t : Table κ β} {k : κ} (hk : find? t k = none) (v : β) (k' : κ) :
    find? (insertSorted ord k v t) k' = if k' = k then some v else find? t k' := by
  induction t with
  | nil => simp [insertSorted, find?_cons, eq_comm]
  | cons p t ih =>
    by_cases hlt : ord k < ord p.1
    · simp only [insertSorted, hlt, if_true]
      rw [find?_cons (k, v)]
      by_cases h : k' = k
      · simp [h]
      · simp [h, Ne.symm h]
    · simp only [insertSorted, hlt, if_false]
      have hp : p.1 ≠ k := by
        intro h
        simp [find?_cons, h] at hk
      have ht : find? t k = none := by simpa [find?_cons, hp] using hk
      rw [find?_cons, ih ht, find?_cons]
      by_cases h : k' = k
      · subst h; simp [hp]
      · simp [h]

/-- A read after a write, and a write leaves every other key alone. -/
theorem find?_put (ord : κ → Nat) (t : Table κ β) (k : κ) (v : β) (k' : κ) :
    find? (put ord t k v) k' = if k' = k then some v else find? t k' := by
  have h : find? (erase t k) k = none := by simp [find?_erase]
  rw [put, find?_insertSorted ord h, find?_erase]
  by_cases hk : k' = k <;> simp [hk]

@[simp] theorem get_nil (d : β) (k : κ) : get d [] k = d := rfl

/-- A read after a write, and a write leaves every other key alone. -/
theorem get_set [DecidableEq β] (ord : κ → Nat) (d : β) (t : Table κ β) (k : κ) (v : β) (k' : κ) :
    get d (set ord d t k v) k' = if k' = k then v else get d t k' := by
  unfold get set
  by_cases hv : v = d
  · rw [if_pos hv, find?_erase]
    by_cases hk : k' = k <;> simp [hk, hv]
  · rw [if_neg hv, find?_put]
    by_cases hk : k' = k <;> simp [hk]

theorem get_mapAll [DecidableEq β] (ord : κ → Nat) (d : β) (f : β → β) (hf : f d = d) (t : Table κ β) (k : κ) :
    get d (mapAll ord d f t) k = f (get d t k) := by
  induction t with
  | nil => simp [mapAll, get, hf]
  | cons p t ih =>
    have hm : mapAll ord d f (p :: t) = set ord d (mapAll ord d f t) p.1 (f p.2) := rfl
    rw [hm, get_set, ih]
    by_cases h : k = p.1
    · simp [h, get, find?_cons]
    · simp [h, get, find?_cons, Ne.symm h]

/-! The canonical form. -/

theorem mem_erase {t : Table κ β} {k : κ} {p : κ × β} : p ∈ erase t k ↔ p ∈ t ∧ p.1 ≠ k := by
  simp [erase]

theorem rising_erase {ord : κ → Nat} {t : Table κ β} (h : Rising ord t) (k : κ) : Rising ord (erase t k) := by
  simp only [Rising, List.pairwise_map, erase] at *
  exact h.filter _

omit [DecidableEq κ] in
theorem mem_insertSorted (ord : κ → Nat) (k : κ) (v : β) (t : Table κ β) (p : κ × β) :
    p ∈ insertSorted ord k v t ↔ p = (k, v) ∨ p ∈ t := by
  induction t with
  | nil => simp [insertSorted]
  | cons q t ih =>
    by_cases hlt : ord k < ord q.1
    · simp [insertSorted, hlt]
    · simp [insertSorted, hlt, ih]
      constructor
      · rintro (h | h | h) <;> simp [h]
      · rintro (h | h | h) <;> simp [h]

omit [DecidableEq κ] in
theorem rising_insertSorted {ord : κ → Nat} {t : Table κ β} (h : Rising ord t) {k : κ} (v : β)
    (hk : ∀ p ∈ t, ord p.1 ≠ ord k) : Rising ord (insertSorted ord k v t) := by
  induction t with
  | nil => simp [insertSorted, Rising]
  | cons q t ih =>
    simp only [Rising, List.map_cons, List.pairwise_cons, List.mem_map, forall_exists_index, and_imp,
      forall_apply_eq_imp_iff₂] at h
    by_cases hlt : ord k < ord q.1
    · simp only [insertSorted, hlt, if_true, Rising, List.map_cons, List.pairwise_cons, List.mem_cons, List.mem_map]
      refine ⟨?_, ?_, h.2⟩
      · rintro x (rfl | ⟨p, hp, rfl⟩)
        · exact hlt
        · exact Nat.lt_trans hlt (h.1 p hp)
      · rintro x ⟨p, hp, rfl⟩
        exact h.1 p hp
    · simp only [insertSorted, hlt, if_false, Rising, List.map_cons, List.pairwise_cons, List.mem_map]
      refine ⟨?_, ih h.2 (fun p hp => hk p (List.mem_cons_of_mem _ hp))⟩
      rintro x ⟨p, hp, rfl⟩
      rcases (mem_insertSorted ord k v t p).1 hp with rfl | hp
      · have := hk q List.mem_cons_self
        simp only
        omega
      · exact h.1 p hp

theorem rising_put {ord : κ → Nat} (hinj : ∀ a b, ord a = ord b → a = b) {t : Table κ β} (h : Rising ord t)
    (k : κ) (v : β) : Rising ord (put ord t k v) :=
  rising_insertSorted (rising_erase h k) v fun _ hp he => (mem_erase.1 hp).2 (hinj _ _ he)

omit [DecidableEq κ] in
theorem canonical_nil [DecidableEq β] (ord : κ → Nat) (d : β) : Canonical ord d ([] : Table κ β) := by
  simp [Canonical, Rising]

/-- Every write keeps the canonical form. -/
theorem canonical_set [DecidableEq β] {ord : κ → Nat} (hinj : ∀ a b, ord a = ord b → a = b) {d : β} {t : Table κ β}
    (h : Canonical ord d t) (k : κ) (v : β) : Canonical ord d (set ord d t k v) := by
  unfold set
  by_cases hv : v = d
  · rw [if_pos hv]
    exact ⟨rising_erase h.1 k, fun p hp => h.2 p (mem_erase.1 hp).1⟩
  · rw [if_neg hv]
    refine ⟨rising_put hinj h.1 k v, fun p hp => ?_⟩
    rcases (mem_insertSorted ord k v _ p).1 hp with rfl | hp
    · exact hv
    · exact h.2 p (mem_erase.1 hp).1

theorem canonical_mapAll [DecidableEq β] {ord : κ → Nat} (hinj : ∀ a b, ord a = ord b → a = b) (d : β) (f : β → β)
    (t : Table κ β) : Canonical ord d (mapAll ord d f t) := by
  induction t with
  | nil => exact canonical_nil ord d
  | cons p t ih => exact canonical_set hinj ih _ _

omit [DecidableEq κ] in
theorem length_insertSorted (ord : κ → Nat) (k : κ) (v : β) (t : Table κ β) :
    (insertSorted ord k v t).length = t.length + 1 := by
  induction t with
  | nil => rfl
  | cons q t ih => by_cases h : ord k < ord q.1 <;> simp [insertSorted, h, ih]

theorem erase_of_find?_none {t : Table κ β} {k : κ} (h : find? t k = none) : erase t k = t := by
  rw [erase, List.filter_eq_self]
  intro p hp
  simpa using (find?_eq_none_iff t k).1 h p hp

/-- A new key makes the table longer by one. -/
theorem length_put_new (ord : κ → Nat) {t : Table κ β} {k : κ} (h : find? t k = none) (v : β) :
    (put ord t k v).length = t.length + 1 := by
  rw [put, erase_of_find?_none h, length_insertSorted]

theorem mem_put {ord : κ → Nat} {t : Table κ β} {k : κ} {v : β} {p : κ × β} (h : p ∈ put ord t k v) :
    p = (k, v) ∨ p ∈ t := by
  rcases (mem_insertSorted ord k v _ p).1 h with h | h
  · exact .inl h
  · exact .inr (mem_erase.1 h).1

/-- In a table whose keys rise, every listed pair is found under its key. -/
theorem find?_of_mem {ord : κ → Nat} {t : Table κ β} (h : Rising ord t) {p : κ × β} (hp : p ∈ t) :
    find? t p.1 = some p.2 := by
  induction t with
  | nil => simp at hp
  | cons q t ih =>
    simp only [Rising, List.map_cons, List.pairwise_cons, List.mem_map, forall_exists_index, and_imp,
      forall_apply_eq_imp_iff₂] at h
    rcases List.mem_cons.1 hp with rfl | hp
    · simp [find?_cons]
    · have : q.1 ≠ p.1 := fun he => by have := h.1 p hp; rw [he] at this; omega
      simp [find?_cons, this, ih h.2 hp]

/-- Two tables whose keys rise and that list the same pairs are the same list. -/
theorem eq_of_find?_eq {ord : κ → Nat} {t u : Table κ β} (ht : Rising ord t)
    (hu : Rising ord u) (h : ∀ k, find? t k = find? u k) : t = u := by
  induction t generalizing u with
  | nil =>
    cases u with
    | nil => rfl
    | cons q u => have := h q.1; simp [find?_cons] at this
  | cons p t ih =>
    cases u with
    | nil => have := h p.1; simp [find?_cons] at this
    | cons q u =>
      have hp := mem_of_find? (t := q :: u) (k := p.1) (v := p.2) (by rw [← h]; simp [find?_cons])
      have hq := mem_of_find? (t := p :: t) (k := q.1) (v := q.2) (by rw [h]; simp [find?_cons])
      have ht' := ht
      have hu' := hu
      simp only [Rising, List.map_cons, List.pairwise_cons, List.mem_map, forall_exists_index, and_imp,
        forall_apply_eq_imp_iff₂] at ht' hu'
      have hpq : p = q := by
        rcases List.mem_cons.1 hp with e | hp
        · exact e
        · rcases List.mem_cons.1 hq with e | hq
          · exact e.symm
          · have h1 := hu'.1 _ hp
            have h2 := ht'.1 _ hq
            simp only at h1 h2
            omega
      subst hpq
      congr 1
      apply ih ht'.2 hu'.2
      intro k
      by_cases hk : p.1 = k
      · have e1 : find? t k = none := (find?_eq_none_iff t k).2 fun x hx he => by
          have := ht'.1 x hx; rw [he, hk] at this; omega
        have e2 : find? u k = none := (find?_eq_none_iff u k).2 fun x hx he => by
          have := hu'.1 x hx; rw [he, hk] at this; omega
        rw [e1, e2]
      · simpa [find?_cons, hk] using h k

end Sys2Proof.Machine.Table
end

