-- ==== Sys2Proof/Laws/State.lean ====
section
/-! SUPPORT. What each named update of State does to each field and to each table read: one lemma a field, true by rfl,
so that no later proof unfolds an update. The reads of the table an update writes come last. -/

namespace Sys2Proof.Machine

@[simp] theorem respond_eq (d : BitVec 64) (s : State) : respond d s = s.answer 0 d := rfl

@[simp] theorem refuse_eq (s : State) : refuse s = s.answer 15 0 := rfl

@[simp] theorem raise_eq (i : Instr) (e : CmdError) (s : State) : raise i e s = faultEntry (encode i) e s := rfl

theorem whenRun_run {s : State} (h : s.PH = .run) (t : State) : whenRun s t = t := by simp [whenRun, h]

theorem whenRun_fault {s : State} (h : s.PH = .fault) (t : State) : whenRun s t = s.answer 15 0 := by simp [whenRun, h]

theorem advance_eq (s : State) : { advance s with pc := s.pc } = s := rfl

@[simp] theorem answer_PH (s : State) (e : BitVec 4) (d : BitVec 64) : (s.answer e d).PH = s.PH := rfl
@[simp] theorem answer_ERRCODE (s : State) (e : BitVec 4) (d : BitVec 64) : (s.answer e d).ERRCODE = s.ERRCODE := rfl
@[simp] theorem answer_ERRCMD (s : State) (e : BitVec 4) (d : BitVec 64) : (s.answer e d).ERRCMD = s.ERRCMD := rfl
@[simp] theorem answer_ERRINFO (s : State) (e : BitVec 4) (d : BitVec 64) : (s.answer e d).ERRINFO = s.ERRINFO := rfl
@[simp] theorem answer_FT (s : State) (e : BitVec 4) (d : BitVec 64) : (s.answer e d).FT = s.FT := rfl
@[simp] theorem answer_NODE (s : State) (e : BitVec 4) (d : BitVec 64) : (s.answer e d).NODE = s.NODE := rfl
@[simp] theorem answer_NN (s : State) (e : BitVec 4) (d : BitVec 64) : (s.answer e d).NN = s.NN := rfl
@[simp] theorem answer_ROOT (s : State) (e : BitVec 4) (d : BitVec 64) : (s.answer e d).ROOT = s.ROOT := rfl
@[simp] theorem answer_TV (s : State) (e : BitVec 4) (d : BitVec 64) : (s.answer e d).TV = s.TV := rfl
@[simp] theorem answer_CT (s : State) (e : BitVec 4) (d : BitVec 64) : (s.answer e d).CT = s.CT := rfl
@[simp] theorem answer_ICT (s : State) (e : BitVec 4) (d : BitVec 64) : (s.answer e d).ICT = s.ICT := rfl
@[simp] theorem answer_CW (s : State) (e : BitVec 4) (d : BitVec 64) : (s.answer e d).CW = s.CW := rfl
@[simp] theorem answer_PK (s : State) (e : BitVec 4) (d : BitVec 64) : (s.answer e d).PK = s.PK := rfl
@[simp] theorem answer_ACC (s : State) (e : BitVec 4) (d : BitVec 64) : (s.answer e d).ACC = s.ACC := rfl
@[simp] theorem answer_EO (s : State) (e : BitVec 4) (d : BitVec 64) : (s.answer e d).EO = s.EO := rfl
@[simp] theorem answer_DO (s : State) (e : BitVec 4) (d : BitVec 64) : (s.answer e d).DO = s.DO := rfl
@[simp] theorem answer_RSP (s : State) (e : BitVec 4) (d : BitVec 64) : (s.answer e d).RSP = s.RSP ++ [{ err := e, data := d }] := rfl
@[simp] theorem answer_script (s : State) (e : BitVec 4) (d : BitVec 64) : (s.answer e d).script = s.script := rfl
@[simp] theorem answer_pc (s : State) (e : BitVec 4) (d : BitVec 64) : (s.answer e d).pc = s.pc := rfl
@[simp] theorem answer_ft (s : State) (e : BitVec 4) (d : BitVec 64) (y : Sym) : (s.answer e d).ft y = s.ft y := rfl
@[simp] theorem answer_node (s : State) (e : BitVec 4) (d : BitVec 64) (j : Idx) : (s.answer e d).node j = s.node j := rfl
@[simp] theorem answer_ct (s : State) (e : BitVec 4) (d : BitVec 64) (y : Sym) : (s.answer e d).ct y = s.ct y := rfl
@[simp] theorem answer_ict (s : State) (e : BitVec 4) (d : BitVec 64) (k : BitStr) : (s.answer e d).ict k = s.ict k := rfl
@[simp] theorem answer_K (s : State) (e : BitVec 4) (d : BitVec 64) : (s.answer e d).K = s.K := rfl
@[simp] theorem answer_TOTAL (s : State) (e : BitVec 4) (d : BitVec 64) : (s.answer e d).TOTAL = s.TOTAL := rfl
@[simp] theorem answer_CTN (s : State) (e : BitVec 4) (d : BitVec 64) : (s.answer e d).CTN = s.CTN := rfl
@[simp] theorem answer_ICTN (s : State) (e : BitVec 4) (d : BitVec 64) : (s.answer e d).ICTN = s.ICTN := rfl

@[simp] theorem faultEntry_PH (s : State) (w : Cmd) (e : CmdError) : (faultEntry w e s).PH = .fault := rfl
@[simp] theorem faultEntry_ERRCODE (s : State) (w : Cmd) (e : CmdError) : (faultEntry w e s).ERRCODE = errorCode e := rfl
@[simp] theorem faultEntry_ERRCMD (s : State) (w : Cmd) (e : CmdError) : (faultEntry w e s).ERRCMD = w := rfl
@[simp] theorem faultEntry_ERRINFO (s : State) (w : Cmd) (e : CmdError) : (faultEntry w e s).ERRINFO = errorInfo e := rfl
@[simp] theorem faultEntry_FT (s : State) (w : Cmd) (e : CmdError) : (faultEntry w e s).FT = s.FT := rfl
@[simp] theorem faultEntry_NODE (s : State) (w : Cmd) (e : CmdError) : (faultEntry w e s).NODE = s.NODE := rfl
@[simp] theorem faultEntry_NN (s : State) (w : Cmd) (e : CmdError) : (faultEntry w e s).NN = s.NN := rfl
@[simp] theorem faultEntry_ROOT (s : State) (w : Cmd) (e : CmdError) : (faultEntry w e s).ROOT = s.ROOT := rfl
@[simp] theorem faultEntry_TV (s : State) (w : Cmd) (e : CmdError) : (faultEntry w e s).TV = s.TV := rfl
@[simp] theorem faultEntry_CT (s : State) (w : Cmd) (e : CmdError) : (faultEntry w e s).CT = s.CT := rfl
@[simp] theorem faultEntry_ICT (s : State) (w : Cmd) (e : CmdError) : (faultEntry w e s).ICT = s.ICT := rfl
@[simp] theorem faultEntry_CW (s : State) (w : Cmd) (e : CmdError) : (faultEntry w e s).CW = s.CW := rfl
@[simp] theorem faultEntry_PK (s : State) (w : Cmd) (e : CmdError) : (faultEntry w e s).PK = s.PK := rfl
@[simp] theorem faultEntry_ACC (s : State) (w : Cmd) (e : CmdError) : (faultEntry w e s).ACC = s.ACC := rfl
@[simp] theorem faultEntry_EO (s : State) (w : Cmd) (e : CmdError) : (faultEntry w e s).EO = s.EO := rfl
@[simp] theorem faultEntry_DO (s : State) (w : Cmd) (e : CmdError) : (faultEntry w e s).DO = s.DO := rfl
@[simp] theorem faultEntry_RSP (s : State) (w : Cmd) (e : CmdError) : (faultEntry w e s).RSP = s.RSP ++ [{ err := errorCode e, data := 0 }] := rfl
@[simp] theorem faultEntry_script (s : State) (w : Cmd) (e : CmdError) : (faultEntry w e s).script = s.script := rfl
@[simp] theorem faultEntry_pc (s : State) (w : Cmd) (e : CmdError) : (faultEntry w e s).pc = s.pc := rfl
@[simp] theorem faultEntry_ft (s : State) (w : Cmd) (e : CmdError) (y : Sym) : (faultEntry w e s).ft y = s.ft y := rfl
@[simp] theorem faultEntry_node (s : State) (w : Cmd) (e : CmdError) (j : Idx) : (faultEntry w e s).node j = s.node j := rfl
@[simp] theorem faultEntry_ct (s : State) (w : Cmd) (e : CmdError) (y : Sym) : (faultEntry w e s).ct y = s.ct y := rfl
@[simp] theorem faultEntry_ict (s : State) (w : Cmd) (e : CmdError) (k : BitStr) : (faultEntry w e s).ict k = s.ict k := rfl
@[simp] theorem faultEntry_K (s : State) (w : Cmd) (e : CmdError) : (faultEntry w e s).K = s.K := rfl
@[simp] theorem faultEntry_TOTAL (s : State) (w : Cmd) (e : CmdError) : (faultEntry w e s).TOTAL = s.TOTAL := rfl
@[simp] theorem faultEntry_CTN (s : State) (w : Cmd) (e : CmdError) : (faultEntry w e s).CTN = s.CTN := rfl
@[simp] theorem faultEntry_ICTN (s : State) (w : Cmd) (e : CmdError) : (faultEntry w e s).ICTN = s.ICTN := rfl

@[simp] theorem clearFault_PH (s : State) : (clearFault s).PH = .run := rfl
@[simp] theorem clearFault_ERRCODE (s : State) : (clearFault s).ERRCODE = 0 := rfl
@[simp] theorem clearFault_ERRCMD (s : State) : (clearFault s).ERRCMD = 0 := rfl
@[simp] theorem clearFault_ERRINFO (s : State) : (clearFault s).ERRINFO = 0 := rfl
@[simp] theorem clearFault_FT (s : State) : (clearFault s).FT = s.FT := rfl
@[simp] theorem clearFault_NODE (s : State) : (clearFault s).NODE = s.NODE := rfl
@[simp] theorem clearFault_NN (s : State) : (clearFault s).NN = s.NN := rfl
@[simp] theorem clearFault_ROOT (s : State) : (clearFault s).ROOT = s.ROOT := rfl
@[simp] theorem clearFault_TV (s : State) : (clearFault s).TV = s.TV := rfl
@[simp] theorem clearFault_CT (s : State) : (clearFault s).CT = s.CT := rfl
@[simp] theorem clearFault_ICT (s : State) : (clearFault s).ICT = s.ICT := rfl
@[simp] theorem clearFault_CW (s : State) : (clearFault s).CW = s.CW := rfl
@[simp] theorem clearFault_PK (s : State) : (clearFault s).PK = s.PK := rfl
@[simp] theorem clearFault_ACC (s : State) : (clearFault s).ACC = s.ACC := rfl
@[simp] theorem clearFault_EO (s : State) : (clearFault s).EO = s.EO := rfl
@[simp] theorem clearFault_DO (s : State) : (clearFault s).DO = s.DO := rfl
@[simp] theorem clearFault_RSP (s : State) : (clearFault s).RSP = s.RSP := rfl
@[simp] theorem clearFault_script (s : State) : (clearFault s).script = s.script := rfl
@[simp] theorem clearFault_pc (s : State) : (clearFault s).pc = s.pc := rfl
@[simp] theorem clearFault_ft (s : State) (y : Sym) : (clearFault s).ft y = s.ft y := rfl
@[simp] theorem clearFault_node (s : State) (j : Idx) : (clearFault s).node j = s.node j := rfl
@[simp] theorem clearFault_ct (s : State) (y : Sym) : (clearFault s).ct y = s.ct y := rfl
@[simp] theorem clearFault_ict (s : State) (k : BitStr) : (clearFault s).ict k = s.ict k := rfl
@[simp] theorem clearFault_K (s : State) : (clearFault s).K = s.K := rfl
@[simp] theorem clearFault_TOTAL (s : State) : (clearFault s).TOTAL = s.TOTAL := rfl
@[simp] theorem clearFault_CTN (s : State) : (clearFault s).CTN = s.CTN := rfl
@[simp] theorem clearFault_ICTN (s : State) : (clearFault s).ICTN = s.ICTN := rfl

@[simp] theorem setFt_PH (s : State) (x : Sym) (v : Count) : (s.setFt x v).PH = s.PH := rfl
@[simp] theorem setFt_ERRCODE (s : State) (x : Sym) (v : Count) : (s.setFt x v).ERRCODE = s.ERRCODE := rfl
@[simp] theorem setFt_ERRCMD (s : State) (x : Sym) (v : Count) : (s.setFt x v).ERRCMD = s.ERRCMD := rfl
@[simp] theorem setFt_ERRINFO (s : State) (x : Sym) (v : Count) : (s.setFt x v).ERRINFO = s.ERRINFO := rfl
@[simp] theorem setFt_NODE (s : State) (x : Sym) (v : Count) : (s.setFt x v).NODE = s.NODE := rfl
@[simp] theorem setFt_NN (s : State) (x : Sym) (v : Count) : (s.setFt x v).NN = s.NN := rfl
@[simp] theorem setFt_ROOT (s : State) (x : Sym) (v : Count) : (s.setFt x v).ROOT = s.ROOT := rfl
@[simp] theorem setFt_TV (s : State) (x : Sym) (v : Count) : (s.setFt x v).TV = s.TV := rfl
@[simp] theorem setFt_CT (s : State) (x : Sym) (v : Count) : (s.setFt x v).CT = s.CT := rfl
@[simp] theorem setFt_ICT (s : State) (x : Sym) (v : Count) : (s.setFt x v).ICT = s.ICT := rfl
@[simp] theorem setFt_CW (s : State) (x : Sym) (v : Count) : (s.setFt x v).CW = s.CW := rfl
@[simp] theorem setFt_PK (s : State) (x : Sym) (v : Count) : (s.setFt x v).PK = s.PK := rfl
@[simp] theorem setFt_ACC (s : State) (x : Sym) (v : Count) : (s.setFt x v).ACC = s.ACC := rfl
@[simp] theorem setFt_EO (s : State) (x : Sym) (v : Count) : (s.setFt x v).EO = s.EO := rfl
@[simp] theorem setFt_DO (s : State) (x : Sym) (v : Count) : (s.setFt x v).DO = s.DO := rfl
@[simp] theorem setFt_RSP (s : State) (x : Sym) (v : Count) : (s.setFt x v).RSP = s.RSP := rfl
@[simp] theorem setFt_script (s : State) (x : Sym) (v : Count) : (s.setFt x v).script = s.script := rfl
@[simp] theorem setFt_pc (s : State) (x : Sym) (v : Count) : (s.setFt x v).pc = s.pc := rfl
@[simp] theorem setFt_node (s : State) (x : Sym) (v : Count) (j : Idx) : (s.setFt x v).node j = s.node j := rfl
@[simp] theorem setFt_ct (s : State) (x : Sym) (v : Count) (y : Sym) : (s.setFt x v).ct y = s.ct y := rfl
@[simp] theorem setFt_ict (s : State) (x : Sym) (v : Count) (k : BitStr) : (s.setFt x v).ict k = s.ict k := rfl
@[simp] theorem setFt_CTN (s : State) (x : Sym) (v : Count) : (s.setFt x v).CTN = s.CTN := rfl
@[simp] theorem setFt_ICTN (s : State) (x : Sym) (v : Count) : (s.setFt x v).ICTN = s.ICTN := rfl

@[simp] theorem setNode_PH (s : State) (i : Idx) (n : Node) : (s.setNode i n).PH = s.PH := rfl
@[simp] theorem setNode_ERRCODE (s : State) (i : Idx) (n : Node) : (s.setNode i n).ERRCODE = s.ERRCODE := rfl
@[simp] theorem setNode_ERRCMD (s : State) (i : Idx) (n : Node) : (s.setNode i n).ERRCMD = s.ERRCMD := rfl
@[simp] theorem setNode_ERRINFO (s : State) (i : Idx) (n : Node) : (s.setNode i n).ERRINFO = s.ERRINFO := rfl
@[simp] theorem setNode_FT (s : State) (i : Idx) (n : Node) : (s.setNode i n).FT = s.FT := rfl
@[simp] theorem setNode_NN (s : State) (i : Idx) (n : Node) : (s.setNode i n).NN = s.NN := rfl
@[simp] theorem setNode_ROOT (s : State) (i : Idx) (n : Node) : (s.setNode i n).ROOT = s.ROOT := rfl
@[simp] theorem setNode_TV (s : State) (i : Idx) (n : Node) : (s.setNode i n).TV = s.TV := rfl
@[simp] theorem setNode_CT (s : State) (i : Idx) (n : Node) : (s.setNode i n).CT = s.CT := rfl
@[simp] theorem setNode_ICT (s : State) (i : Idx) (n : Node) : (s.setNode i n).ICT = s.ICT := rfl
@[simp] theorem setNode_CW (s : State) (i : Idx) (n : Node) : (s.setNode i n).CW = s.CW := rfl
@[simp] theorem setNode_PK (s : State) (i : Idx) (n : Node) : (s.setNode i n).PK = s.PK := rfl
@[simp] theorem setNode_ACC (s : State) (i : Idx) (n : Node) : (s.setNode i n).ACC = s.ACC := rfl
@[simp] theorem setNode_EO (s : State) (i : Idx) (n : Node) : (s.setNode i n).EO = s.EO := rfl
@[simp] theorem setNode_DO (s : State) (i : Idx) (n : Node) : (s.setNode i n).DO = s.DO := rfl
@[simp] theorem setNode_RSP (s : State) (i : Idx) (n : Node) : (s.setNode i n).RSP = s.RSP := rfl
@[simp] theorem setNode_script (s : State) (i : Idx) (n : Node) : (s.setNode i n).script = s.script := rfl
@[simp] theorem setNode_pc (s : State) (i : Idx) (n : Node) : (s.setNode i n).pc = s.pc := rfl
@[simp] theorem setNode_ft (s : State) (i : Idx) (n : Node) (y : Sym) : (s.setNode i n).ft y = s.ft y := rfl
@[simp] theorem setNode_ct (s : State) (i : Idx) (n : Node) (y : Sym) : (s.setNode i n).ct y = s.ct y := rfl
@[simp] theorem setNode_ict (s : State) (i : Idx) (n : Node) (k : BitStr) : (s.setNode i n).ict k = s.ict k := rfl
@[simp] theorem setNode_K (s : State) (i : Idx) (n : Node) : (s.setNode i n).K = s.K := rfl
@[simp] theorem setNode_TOTAL (s : State) (i : Idx) (n : Node) : (s.setNode i n).TOTAL = s.TOTAL := rfl
@[simp] theorem setNode_CTN (s : State) (i : Idx) (n : Node) : (s.setNode i n).CTN = s.CTN := rfl
@[simp] theorem setNode_ICTN (s : State) (i : Idx) (n : Node) : (s.setNode i n).ICTN = s.ICTN := rfl

@[simp] theorem setCt_PH (s : State) (x : Sym) (v : CodeEntry) : (s.setCt x v).PH = s.PH := rfl
@[simp] theorem setCt_ERRCODE (s : State) (x : Sym) (v : CodeEntry) : (s.setCt x v).ERRCODE = s.ERRCODE := rfl
@[simp] theorem setCt_ERRCMD (s : State) (x : Sym) (v : CodeEntry) : (s.setCt x v).ERRCMD = s.ERRCMD := rfl
@[simp] theorem setCt_ERRINFO (s : State) (x : Sym) (v : CodeEntry) : (s.setCt x v).ERRINFO = s.ERRINFO := rfl
@[simp] theorem setCt_FT (s : State) (x : Sym) (v : CodeEntry) : (s.setCt x v).FT = s.FT := rfl
@[simp] theorem setCt_NODE (s : State) (x : Sym) (v : CodeEntry) : (s.setCt x v).NODE = s.NODE := rfl
@[simp] theorem setCt_NN (s : State) (x : Sym) (v : CodeEntry) : (s.setCt x v).NN = s.NN := rfl
@[simp] theorem setCt_ROOT (s : State) (x : Sym) (v : CodeEntry) : (s.setCt x v).ROOT = s.ROOT := rfl
@[simp] theorem setCt_TV (s : State) (x : Sym) (v : CodeEntry) : (s.setCt x v).TV = s.TV := rfl
@[simp] theorem setCt_ICT (s : State) (x : Sym) (v : CodeEntry) : (s.setCt x v).ICT = s.ICT := rfl
@[simp] theorem setCt_CW (s : State) (x : Sym) (v : CodeEntry) : (s.setCt x v).CW = s.CW := rfl
@[simp] theorem setCt_PK (s : State) (x : Sym) (v : CodeEntry) : (s.setCt x v).PK = s.PK := rfl
@[simp] theorem setCt_ACC (s : State) (x : Sym) (v : CodeEntry) : (s.setCt x v).ACC = s.ACC := rfl
@[simp] theorem setCt_EO (s : State) (x : Sym) (v : CodeEntry) : (s.setCt x v).EO = s.EO := rfl
@[simp] theorem setCt_DO (s : State) (x : Sym) (v : CodeEntry) : (s.setCt x v).DO = s.DO := rfl
@[simp] theorem setCt_RSP (s : State) (x : Sym) (v : CodeEntry) : (s.setCt x v).RSP = s.RSP := rfl
@[simp] theorem setCt_script (s : State) (x : Sym) (v : CodeEntry) : (s.setCt x v).script = s.script := rfl
@[simp] theorem setCt_pc (s : State) (x : Sym) (v : CodeEntry) : (s.setCt x v).pc = s.pc := rfl
@[simp] theorem setCt_ft (s : State) (x : Sym) (v : CodeEntry) (y : Sym) : (s.setCt x v).ft y = s.ft y := rfl
@[simp] theorem setCt_node (s : State) (x : Sym) (v : CodeEntry) (j : Idx) : (s.setCt x v).node j = s.node j := rfl
@[simp] theorem setCt_ict (s : State) (x : Sym) (v : CodeEntry) (k : BitStr) : (s.setCt x v).ict k = s.ict k := rfl
@[simp] theorem setCt_K (s : State) (x : Sym) (v : CodeEntry) : (s.setCt x v).K = s.K := rfl
@[simp] theorem setCt_TOTAL (s : State) (x : Sym) (v : CodeEntry) : (s.setCt x v).TOTAL = s.TOTAL := rfl
@[simp] theorem setCt_ICTN (s : State) (x : Sym) (v : CodeEntry) : (s.setCt x v).ICTN = s.ICTN := rfl

@[simp] theorem insertIct_PH (s : State) (c : BitStr) (x : Sym) : (s.insertIct c x).PH = s.PH := rfl
@[simp] theorem insertIct_ERRCODE (s : State) (c : BitStr) (x : Sym) : (s.insertIct c x).ERRCODE = s.ERRCODE := rfl
@[simp] theorem insertIct_ERRCMD (s : State) (c : BitStr) (x : Sym) : (s.insertIct c x).ERRCMD = s.ERRCMD := rfl
@[simp] theorem insertIct_ERRINFO (s : State) (c : BitStr) (x : Sym) : (s.insertIct c x).ERRINFO = s.ERRINFO := rfl
@[simp] theorem insertIct_FT (s : State) (c : BitStr) (x : Sym) : (s.insertIct c x).FT = s.FT := rfl
@[simp] theorem insertIct_NODE (s : State) (c : BitStr) (x : Sym) : (s.insertIct c x).NODE = s.NODE := rfl
@[simp] theorem insertIct_NN (s : State) (c : BitStr) (x : Sym) : (s.insertIct c x).NN = s.NN := rfl
@[simp] theorem insertIct_ROOT (s : State) (c : BitStr) (x : Sym) : (s.insertIct c x).ROOT = s.ROOT := rfl
@[simp] theorem insertIct_TV (s : State) (c : BitStr) (x : Sym) : (s.insertIct c x).TV = s.TV := rfl
@[simp] theorem insertIct_CT (s : State) (c : BitStr) (x : Sym) : (s.insertIct c x).CT = s.CT := rfl
@[simp] theorem insertIct_CW (s : State) (c : BitStr) (x : Sym) : (s.insertIct c x).CW = s.CW := rfl
@[simp] theorem insertIct_PK (s : State) (c : BitStr) (x : Sym) : (s.insertIct c x).PK = s.PK := rfl
@[simp] theorem insertIct_ACC (s : State) (c : BitStr) (x : Sym) : (s.insertIct c x).ACC = s.ACC := rfl
@[simp] theorem insertIct_EO (s : State) (c : BitStr) (x : Sym) : (s.insertIct c x).EO = s.EO := rfl
@[simp] theorem insertIct_DO (s : State) (c : BitStr) (x : Sym) : (s.insertIct c x).DO = s.DO := rfl
@[simp] theorem insertIct_RSP (s : State) (c : BitStr) (x : Sym) : (s.insertIct c x).RSP = s.RSP := rfl
@[simp] theorem insertIct_script (s : State) (c : BitStr) (x : Sym) : (s.insertIct c x).script = s.script := rfl
@[simp] theorem insertIct_pc (s : State) (c : BitStr) (x : Sym) : (s.insertIct c x).pc = s.pc := rfl
@[simp] theorem insertIct_ft (s : State) (c : BitStr) (x : Sym) (y : Sym) : (s.insertIct c x).ft y = s.ft y := rfl
@[simp] theorem insertIct_node (s : State) (c : BitStr) (x : Sym) (j : Idx) : (s.insertIct c x).node j = s.node j := rfl
@[simp] theorem insertIct_ct (s : State) (c : BitStr) (x : Sym) (y : Sym) : (s.insertIct c x).ct y = s.ct y := rfl
@[simp] theorem insertIct_K (s : State) (c : BitStr) (x : Sym) : (s.insertIct c x).K = s.K := rfl
@[simp] theorem insertIct_TOTAL (s : State) (c : BitStr) (x : Sym) : (s.insertIct c x).TOTAL = s.TOTAL := rfl
@[simp] theorem insertIct_CTN (s : State) (c : BitStr) (x : Sym) : (s.insertIct c x).CTN = s.CTN := rfl

@[simp] theorem clearCt_PH (s : State) : s.clearCt.PH = s.PH := rfl
@[simp] theorem clearCt_ERRCODE (s : State) : s.clearCt.ERRCODE = s.ERRCODE := rfl
@[simp] theorem clearCt_ERRCMD (s : State) : s.clearCt.ERRCMD = s.ERRCMD := rfl
@[simp] theorem clearCt_ERRINFO (s : State) : s.clearCt.ERRINFO = s.ERRINFO := rfl
@[simp] theorem clearCt_FT (s : State) : s.clearCt.FT = s.FT := rfl
@[simp] theorem clearCt_NODE (s : State) : s.clearCt.NODE = s.NODE := rfl
@[simp] theorem clearCt_NN (s : State) : s.clearCt.NN = s.NN := rfl
@[simp] theorem clearCt_ROOT (s : State) : s.clearCt.ROOT = s.ROOT := rfl
@[simp] theorem clearCt_TV (s : State) : s.clearCt.TV = s.TV := rfl
@[simp] theorem clearCt_ICT (s : State) : s.clearCt.ICT = s.ICT := rfl
@[simp] theorem clearCt_CW (s : State) : s.clearCt.CW = s.CW := rfl
@[simp] theorem clearCt_PK (s : State) : s.clearCt.PK = s.PK := rfl
@[simp] theorem clearCt_ACC (s : State) : s.clearCt.ACC = s.ACC := rfl
@[simp] theorem clearCt_EO (s : State) : s.clearCt.EO = s.EO := rfl
@[simp] theorem clearCt_DO (s : State) : s.clearCt.DO = s.DO := rfl
@[simp] theorem clearCt_RSP (s : State) : s.clearCt.RSP = s.RSP := rfl
@[simp] theorem clearCt_script (s : State) : s.clearCt.script = s.script := rfl
@[simp] theorem clearCt_pc (s : State) : s.clearCt.pc = s.pc := rfl
@[simp] theorem clearCt_ft (s : State) (y : Sym) : s.clearCt.ft y = s.ft y := rfl
@[simp] theorem clearCt_node (s : State) (j : Idx) : s.clearCt.node j = s.node j := rfl
@[simp] theorem clearCt_ict (s : State) (k : BitStr) : s.clearCt.ict k = s.ict k := rfl
@[simp] theorem clearCt_K (s : State) : s.clearCt.K = s.K := rfl
@[simp] theorem clearCt_TOTAL (s : State) : s.clearCt.TOTAL = s.TOTAL := rfl
@[simp] theorem clearCt_ICTN (s : State) : s.clearCt.ICTN = s.ICTN := rfl

@[simp] theorem emitEO_PH (s : State) (b : BitVec 32) (n : BitVec 6) : (s.emitEO b n).PH = s.PH := rfl
@[simp] theorem emitEO_ERRCODE (s : State) (b : BitVec 32) (n : BitVec 6) : (s.emitEO b n).ERRCODE = s.ERRCODE := rfl
@[simp] theorem emitEO_ERRCMD (s : State) (b : BitVec 32) (n : BitVec 6) : (s.emitEO b n).ERRCMD = s.ERRCMD := rfl
@[simp] theorem emitEO_ERRINFO (s : State) (b : BitVec 32) (n : BitVec 6) : (s.emitEO b n).ERRINFO = s.ERRINFO := rfl
@[simp] theorem emitEO_FT (s : State) (b : BitVec 32) (n : BitVec 6) : (s.emitEO b n).FT = s.FT := rfl
@[simp] theorem emitEO_NODE (s : State) (b : BitVec 32) (n : BitVec 6) : (s.emitEO b n).NODE = s.NODE := rfl
@[simp] theorem emitEO_NN (s : State) (b : BitVec 32) (n : BitVec 6) : (s.emitEO b n).NN = s.NN := rfl
@[simp] theorem emitEO_ROOT (s : State) (b : BitVec 32) (n : BitVec 6) : (s.emitEO b n).ROOT = s.ROOT := rfl
@[simp] theorem emitEO_TV (s : State) (b : BitVec 32) (n : BitVec 6) : (s.emitEO b n).TV = s.TV := rfl
@[simp] theorem emitEO_CT (s : State) (b : BitVec 32) (n : BitVec 6) : (s.emitEO b n).CT = s.CT := rfl
@[simp] theorem emitEO_ICT (s : State) (b : BitVec 32) (n : BitVec 6) : (s.emitEO b n).ICT = s.ICT := rfl
@[simp] theorem emitEO_CW (s : State) (b : BitVec 32) (n : BitVec 6) : (s.emitEO b n).CW = s.CW := rfl
@[simp] theorem emitEO_PK (s : State) (b : BitVec 32) (n : BitVec 6) : (s.emitEO b n).PK = s.PK := rfl
@[simp] theorem emitEO_ACC (s : State) (b : BitVec 32) (n : BitVec 6) : (s.emitEO b n).ACC = s.ACC := rfl
@[simp] theorem emitEO_EO (s : State) (b : BitVec 32) (n : BitVec 6) : (s.emitEO b n).EO = s.EO ++ [{ data := b, cnt := n }] := rfl
@[simp] theorem emitEO_DO (s : State) (b : BitVec 32) (n : BitVec 6) : (s.emitEO b n).DO = s.DO := rfl
@[simp] theorem emitEO_RSP (s : State) (b : BitVec 32) (n : BitVec 6) : (s.emitEO b n).RSP = s.RSP := rfl
@[simp] theorem emitEO_script (s : State) (b : BitVec 32) (n : BitVec 6) : (s.emitEO b n).script = s.script := rfl
@[simp] theorem emitEO_pc (s : State) (b : BitVec 32) (n : BitVec 6) : (s.emitEO b n).pc = s.pc := rfl
@[simp] theorem emitEO_ft (s : State) (b : BitVec 32) (n : BitVec 6) (y : Sym) : (s.emitEO b n).ft y = s.ft y := rfl
@[simp] theorem emitEO_node (s : State) (b : BitVec 32) (n : BitVec 6) (j : Idx) : (s.emitEO b n).node j = s.node j := rfl
@[simp] theorem emitEO_ct (s : State) (b : BitVec 32) (n : BitVec 6) (y : Sym) : (s.emitEO b n).ct y = s.ct y := rfl
@[simp] theorem emitEO_ict (s : State) (b : BitVec 32) (n : BitVec 6) (k : BitStr) : (s.emitEO b n).ict k = s.ict k := rfl
@[simp] theorem emitEO_K (s : State) (b : BitVec 32) (n : BitVec 6) : (s.emitEO b n).K = s.K := rfl
@[simp] theorem emitEO_TOTAL (s : State) (b : BitVec 32) (n : BitVec 6) : (s.emitEO b n).TOTAL = s.TOTAL := rfl
@[simp] theorem emitEO_CTN (s : State) (b : BitVec 32) (n : BitVec 6) : (s.emitEO b n).CTN = s.CTN := rfl
@[simp] theorem emitEO_ICTN (s : State) (b : BitVec 32) (n : BitVec 6) : (s.emitEO b n).ICTN = s.ICTN := rfl

@[simp] theorem advance_PH (s : State) : (advance s).PH = s.PH := rfl
@[simp] theorem advance_ERRCODE (s : State) : (advance s).ERRCODE = s.ERRCODE := rfl
@[simp] theorem advance_ERRCMD (s : State) : (advance s).ERRCMD = s.ERRCMD := rfl
@[simp] theorem advance_ERRINFO (s : State) : (advance s).ERRINFO = s.ERRINFO := rfl
@[simp] theorem advance_FT (s : State) : (advance s).FT = s.FT := rfl
@[simp] theorem advance_NODE (s : State) : (advance s).NODE = s.NODE := rfl
@[simp] theorem advance_NN (s : State) : (advance s).NN = s.NN := rfl
@[simp] theorem advance_ROOT (s : State) : (advance s).ROOT = s.ROOT := rfl
@[simp] theorem advance_TV (s : State) : (advance s).TV = s.TV := rfl
@[simp] theorem advance_CT (s : State) : (advance s).CT = s.CT := rfl
@[simp] theorem advance_ICT (s : State) : (advance s).ICT = s.ICT := rfl
@[simp] theorem advance_CW (s : State) : (advance s).CW = s.CW := rfl
@[simp] theorem advance_PK (s : State) : (advance s).PK = s.PK := rfl
@[simp] theorem advance_ACC (s : State) : (advance s).ACC = s.ACC := rfl
@[simp] theorem advance_EO (s : State) : (advance s).EO = s.EO := rfl
@[simp] theorem advance_DO (s : State) : (advance s).DO = s.DO := rfl
@[simp] theorem advance_RSP (s : State) : (advance s).RSP = s.RSP := rfl
@[simp] theorem advance_script (s : State) : (advance s).script = s.script := rfl
@[simp] theorem advance_pc (s : State) : (advance s).pc = s.pc + 1 := rfl
@[simp] theorem advance_ft (s : State) (y : Sym) : (advance s).ft y = s.ft y := rfl
@[simp] theorem advance_node (s : State) (j : Idx) : (advance s).node j = s.node j := rfl
@[simp] theorem advance_ct (s : State) (y : Sym) : (advance s).ct y = s.ct y := rfl
@[simp] theorem advance_ict (s : State) (k : BitStr) : (advance s).ict k = s.ict k := rfl
@[simp] theorem advance_K (s : State) : (advance s).K = s.K := rfl
@[simp] theorem advance_TOTAL (s : State) : (advance s).TOTAL = s.TOTAL := rfl
@[simp] theorem advance_CTN (s : State) : (advance s).CTN = s.CTN := rfl
@[simp] theorem advance_ICTN (s : State) : (advance s).ICTN = s.ICTN := rfl

@[simp] theorem softReset_PH (s : State) : (softReset s).PH = .run := rfl
@[simp] theorem softReset_ERRCODE (s : State) : (softReset s).ERRCODE = 0 := rfl
@[simp] theorem softReset_ERRCMD (s : State) : (softReset s).ERRCMD = 0 := rfl
@[simp] theorem softReset_ERRINFO (s : State) : (softReset s).ERRINFO = 0 := rfl
@[simp] theorem softReset_FT (s : State) : (softReset s).FT = [] := rfl
@[simp] theorem softReset_NODE (s : State) : (softReset s).NODE = s.NODE := rfl
@[simp] theorem softReset_NN (s : State) : (softReset s).NN = 0 := rfl
@[simp] theorem softReset_ROOT (s : State) : (softReset s).ROOT = 0 := rfl
@[simp] theorem softReset_TV (s : State) : (softReset s).TV = false := rfl
@[simp] theorem softReset_ICT (s : State) : (softReset s).ICT = [] := rfl
@[simp] theorem softReset_CW (s : State) : (softReset s).CW = emptyStr := rfl
@[simp] theorem softReset_PK (s : State) : (softReset s).PK = { cnt := 0, buf := 0 } := rfl
@[simp] theorem softReset_ACC (s : State) : (softReset s).ACC = { str := emptyStr, ovf := false } := rfl
@[simp] theorem softReset_EO (s : State) : (softReset s).EO = s.EO := rfl
@[simp] theorem softReset_DO (s : State) : (softReset s).DO = s.DO := rfl
@[simp] theorem softReset_RSP (s : State) : (softReset s).RSP = s.RSP := rfl
@[simp] theorem softReset_script (s : State) : (softReset s).script = s.script := rfl
@[simp] theorem softReset_pc (s : State) : (softReset s).pc = s.pc := rfl
@[simp] theorem softReset_node (s : State) (j : Idx) : (softReset s).node j = s.node j := rfl

@[simp] theorem hardReset_PH (s : State) : (hardReset s).PH = .run := rfl
@[simp] theorem hardReset_ERRCODE (s : State) : (hardReset s).ERRCODE = 0 := rfl
@[simp] theorem hardReset_ERRCMD (s : State) : (hardReset s).ERRCMD = 0 := rfl
@[simp] theorem hardReset_ERRINFO (s : State) : (hardReset s).ERRINFO = 0 := rfl
@[simp] theorem hardReset_FT (s : State) : (hardReset s).FT = [] := rfl
@[simp] theorem hardReset_NODE (s : State) : (hardReset s).NODE = [] := rfl
@[simp] theorem hardReset_NN (s : State) : (hardReset s).NN = 0 := rfl
@[simp] theorem hardReset_ROOT (s : State) : (hardReset s).ROOT = 0 := rfl
@[simp] theorem hardReset_TV (s : State) : (hardReset s).TV = false := rfl
@[simp] theorem hardReset_CT (s : State) : (hardReset s).CT = [] := rfl
@[simp] theorem hardReset_ICT (s : State) : (hardReset s).ICT = [] := rfl
@[simp] theorem hardReset_CW (s : State) : (hardReset s).CW = emptyStr := rfl
@[simp] theorem hardReset_PK (s : State) : (hardReset s).PK = { cnt := 0, buf := 0 } := rfl
@[simp] theorem hardReset_ACC (s : State) : (hardReset s).ACC = { str := emptyStr, ovf := false } := rfl
@[simp] theorem hardReset_EO (s : State) : (hardReset s).EO = [] := rfl
@[simp] theorem hardReset_DO (s : State) : (hardReset s).DO = [] := rfl
@[simp] theorem hardReset_RSP (s : State) : (hardReset s).RSP = [] := rfl
@[simp] theorem hardReset_script (s : State) : (hardReset s).script = s.script := rfl
@[simp] theorem hardReset_pc (s : State) : (hardReset s).pc = s.pc := rfl

@[simp] theorem emitDO_PH (s : State) (x : Sym) : (s.emitDO x).PH = s.PH := rfl
@[simp] theorem emitDO_ERRCODE (s : State) (x : Sym) : (s.emitDO x).ERRCODE = s.ERRCODE := rfl
@[simp] theorem emitDO_ERRCMD (s : State) (x : Sym) : (s.emitDO x).ERRCMD = s.ERRCMD := rfl
@[simp] theorem emitDO_ERRINFO (s : State) (x : Sym) : (s.emitDO x).ERRINFO = s.ERRINFO := rfl
@[simp] theorem emitDO_FT (s : State) (x : Sym) : (s.emitDO x).FT = s.FT := rfl
@[simp] theorem emitDO_NODE (s : State) (x : Sym) : (s.emitDO x).NODE = s.NODE := rfl
@[simp] theorem emitDO_NN (s : State) (x : Sym) : (s.emitDO x).NN = s.NN := rfl
@[simp] theorem emitDO_ROOT (s : State) (x : Sym) : (s.emitDO x).ROOT = s.ROOT := rfl
@[simp] theorem emitDO_TV (s : State) (x : Sym) : (s.emitDO x).TV = s.TV := rfl
@[simp] theorem emitDO_CT (s : State) (x : Sym) : (s.emitDO x).CT = s.CT := rfl
@[simp] theorem emitDO_ICT (s : State) (x : Sym) : (s.emitDO x).ICT = s.ICT := rfl
@[simp] theorem emitDO_CW (s : State) (x : Sym) : (s.emitDO x).CW = s.CW := rfl
@[simp] theorem emitDO_PK (s : State) (x : Sym) : (s.emitDO x).PK = s.PK := rfl
@[simp] theorem emitDO_ACC (s : State) (x : Sym) : (s.emitDO x).ACC = s.ACC := rfl
@[simp] theorem emitDO_EO (s : State) (x : Sym) : (s.emitDO x).EO = s.EO := rfl
@[simp] theorem emitDO_DO (s : State) (x : Sym) : (s.emitDO x).DO = s.DO ++ [x] := rfl
@[simp] theorem emitDO_RSP (s : State) (x : Sym) : (s.emitDO x).RSP = s.RSP := rfl
@[simp] theorem emitDO_script (s : State) (x : Sym) : (s.emitDO x).script = s.script := rfl
@[simp] theorem emitDO_pc (s : State) (x : Sym) : (s.emitDO x).pc = s.pc := rfl
@[simp] theorem emitDO_ft (s : State) (x : Sym) (y : Sym) : (s.emitDO x).ft y = s.ft y := rfl
@[simp] theorem emitDO_node (s : State) (x : Sym) (j : Idx) : (s.emitDO x).node j = s.node j := rfl
@[simp] theorem emitDO_ct (s : State) (x : Sym) (y : Sym) : (s.emitDO x).ct y = s.ct y := rfl
@[simp] theorem emitDO_ict (s : State) (x : Sym) (k : BitStr) : (s.emitDO x).ict k = s.ict k := rfl
@[simp] theorem emitDO_K (s : State) (x : Sym) : (s.emitDO x).K = s.K := rfl
@[simp] theorem emitDO_TOTAL (s : State) (x : Sym) : (s.emitDO x).TOTAL = s.TOTAL := rfl
@[simp] theorem emitDO_CTN (s : State) (x : Sym) : (s.emitDO x).CTN = s.CTN := rfl
@[simp] theorem emitDO_ICTN (s : State) (x : Sym) : (s.emitDO x).ICTN = s.ICTN := rfl

/-- FT after a write: the written count, every other count as before. -/
@[simp] theorem setFt_ft (s : State) (x : Sym) (v : Count) (y : Sym) :
    (s.setFt x v).ft y = if y = x then v else s.ft y := Table.get_set _ _ _ _ _ _

/-- NODE after a write. -/
@[simp] theorem setNode_node (s : State) (i : Idx) (n : Node) (j : Idx) :
    (s.setNode i n).node j = if j = i then n else s.node j := Table.get_set _ _ _ _ _ _

/-- CT after a write. -/
@[simp] theorem setCt_ct (s : State) (x : Sym) (v : CodeEntry) (y : Sym) :
    (s.setCt x v).ct y = if y = x then v else s.ct y := Table.get_set _ _ _ _ _ _

/-- ICT after an insertion. -/
@[simp] theorem insertIct_ict (s : State) (c : BitStr) (x : Sym) (k : BitStr) :
    (s.insertIct c x).ict k = if k = c then some x else s.ict k := Table.find?_put _ _ _ _ _

@[simp] theorem softReset_ft (s : State) (y : Sym) : (softReset s).ft y = 0 := rfl

@[simp] theorem softReset_ict (s : State) (k : BitStr) : (softReset s).ict k = none := rfl

@[simp] theorem hardReset_ft (s : State) (y : Sym) : (hardReset s).ft y = 0 := rfl

@[simp] theorem hardReset_node (s : State) (j : Idx) : (hardReset s).node j = unwrittenNode := rfl

@[simp] theorem hardReset_ct (s : State) (y : Sym) : (hardReset s).ct y = unwrittenEntry := rfl

@[simp] theorem hardReset_ict (s : State) (k : BitStr) : (hardReset s).ict k = none := rfl

/-- CT with every valid bit cleared. -/
@[simp] theorem clearCt_ct (s : State) (y : Sym) : s.clearCt.ct y = { s.ct y with valid := false } :=
  Table.get_mapAll BitVec.toNat unwrittenEntry (fun e => { e with valid := false }) rfl s.CT y

@[simp] theorem softReset_ct (s : State) (y : Sym) : (softReset s).ct y = { s.ct y with valid := false } :=
  clearCt_ct (clearFault s) y

end Sys2Proof.Machine
end

