-- ==== Sys2Proof/Laws/Flags.lean ====
section
/-! SUPPORT. Bounds of the counted quantities (10_state.md R25, R29), and a bit as a number. -/

namespace Sys2Proof.Machine

@[simp] theorem length_allSyms : allSyms.length = 256 := by simp [allSyms, Config.nsym]

theorem mem_allSyms (x : Sym) : x ∈ allSyms :=
  List.mem_map.2 ⟨x.toNat, List.mem_range.2 x.isLt, by simp⟩

theorem nodup_allSyms : allSyms.Nodup := by
  rw [List.nodup_iff_pairwise_ne, allSyms, List.pairwise_map]
  refine List.Pairwise.imp_of_mem ?_ (List.nodup_iff_pairwise_ne.1 List.nodup_range)
  intro i j hi hj hij he
  rw [List.mem_range, Config.nsym] at hi hj
  have := congrArg BitVec.toNat he
  simp at this
  omega

/-- K is at most 256 (R25). -/
theorem K_le (s : State) : s.K ≤ 256 :=
  Nat.le_trans (List.length_filter_le _ _) (by simp)

/-- CTN is at most 256 (R29). -/
theorem CTN_le (s : State) : s.CTN ≤ 256 :=
  Nat.le_trans (List.length_filter_le _ _) (by simp)

theorem sum_counts_le (l : List Sym) (f : Sym → Count) :
    (l.map (fun x => (f x).toNat)).sum ≤ l.length * (2 ^ 32 - 1) := by
  induction l with
  | nil => simp
  | cons x xs ih =>
    have := (f x).isLt
    simp at *
    omega

/-- TOTAL is at most 256 · (2^32 − 1) (R25). -/
theorem TOTAL_le (s : State) : s.TOTAL ≤ 256 * (2 ^ 32 - 1) := by
  have := sum_counts_le allSyms s.ft
  simpa [State.TOTAL] using this

theorem K_eq_zero_iff (s : State) : s.K = 0 ↔ ∀ x, s.ft x = 0 := by
  simp [State.K, mem_allSyms]

theorem toNat_ofBool_eq (b : Bool) : (BitVec.ofBool b).toNat = b.toNat := by cases b <;> rfl

/-- The number of a register that holds one (10_state.md R39). -/
theorem csr_values (s : State) : csr s 0 = some Config.idValue ∧ csr s 1 = some (statusReg s) ∧
    csr s 2 = some s.ERRCMD ∧ csr s 3 = some s.ERRINFO ∧ csr s 4 = some (treeInfoReg s) ∧
    csr s 5 = some (ftInfoReg s) ∧ csr s 6 = some (tabInfoReg s) ∧ csr s 7 = some (regInfoReg s) :=
  ⟨rfl, rfl, rfl, rfl, rfl, rfl, rfl, rfl⟩

end Sys2Proof.Machine
end

