-- ==== Sys2Proof/Laws/Tree.lean ====
section
/-! SUPPORT. Paths in the node arena, and what the tree invariants of 10_state.md R28 say of them: a path names one node,
a node of a tree has one path, a path is no longer than there are Internal entries. -/

namespace Sys2Proof.Machine

/-- The node a path of branches leads to from a node, if the path stays in the tree. -/
def follow (s : State) : Idx → List Bool → Option Idx
  | i, [] => some i
  | i, b :: c =>
    match s.node i with
    | .leaf _ _ => none
    | .internal _ l r => follow s (if b then r else l) c

theorem follow_leaf {s : State} {i : Idx} {f : Freq} {x : Sym} (h : s.node i = .leaf f x) {c : List Bool} {j : Idx}
    (hc : follow s i c = some j) : c = [] := by
  cases c with
  | nil => rfl
  | cons b c => simp [follow, h] at hc

theorem follow_append (s : State) (i : Idx) (c d : List Bool) :
    follow s i (c ++ d) = (follow s i c).bind fun j => follow s j d := by
  induction c generalizing i with
  | nil => rfl
  | cons b c ih =>
    simp only [List.cons_append, follow]
    cases s.node i with
    | leaf f x => rfl
    | internal f l r => exact ih _

/-- The last branch of a path. -/
theorem follow_snoc {s : State} {i : Idx} {c : List Bool} {b : Bool} {j : Idx} :
    follow s i (c ++ [b]) = some j ↔
      ∃ p f l r, follow s i c = some p ∧ s.node p = .internal f l r ∧ j = if b then r else l := by
  rw [follow_append]
  constructor
  · intro h
    cases hp : follow s i c with
    | none => simp [hp] at h
    | some p =>
      simp only [hp, Option.bind_some, follow] at h
      cases hn : s.node p with
      | leaf f x => simp [hn] at h
      | internal f l r =>
        simp only [hn, Option.some.injEq] at h
        exact ⟨p, f, l, r, rfl, hn, h.symm⟩
  · rintro ⟨p, f, l, r, hp, hn, rfl⟩
    simp [hp, follow, hn]

/-- PathTo is following from the root. -/
theorem pathTo_iff {s : State} {i : Idx} {c : List Bool} : PathTo s i c ↔ follow s s.ROOT c = some i := by
  constructor
  · intro h
    induction h with
    | root => rfl
    | left _ hn ih => exact follow_snoc.2 ⟨_, _, _, _, ih, hn, by simp⟩
    | right _ hn ih => exact follow_snoc.2 ⟨_, _, _, _, ih, hn, by simp⟩
  · generalize hn : c.length = n
    induction n generalizing c i with
    | zero =>
      have : c = [] := List.length_eq_zero_iff.1 hn
      subst this
      intro h
      cases h
      exact .root
    | succ n ih =>
      intro h
      have hne : c ≠ [] := by intro e; simp [e] at hn
      have hlen : c.dropLast.length = n := by rw [List.length_dropLast]; omega
      rw [← List.dropLast_concat_getLast hne] at h ⊢
      obtain ⟨p, f, l, r, hp, hi, rfl⟩ := follow_snoc.1 h
      cases c.getLast hne with
      | false => exact .left (ih hlen hp) hi
      | true => exact .right (ih hlen hp) hi

section Tree

variable {s : State} (ht : IsTree s)
include ht

theorem IsTree.root_lt : s.ROOT.toNat < s.NN.toNat := by
  have := ht.size
  have := ht.root
  omega

/-- An entry below NN is a Leaf below k and Internal from k on. -/
theorem IsTree.leaf_index {i : Idx} {f : Freq} {x : Sym} (hi : i.toNat < s.NN.toNat) (h : s.node i = .leaf f x) :
    i.toNat < leafCount s := by
  apply Nat.lt_of_not_le
  intro hk
  obtain ⟨g, l, r, hn, -⟩ := ht.internals i hk hi
  rw [h] at hn
  cases hn

theorem IsTree.internal_index {i l r : Idx} {f : Freq} (h : s.node i = .internal f l r) :
    leafCount s ≤ i.toNat := by
  apply Nat.le_of_not_lt
  intro hk
  obtain ⟨g, x, hn, -⟩ := ht.leaves i hk
  rw [h] at hn
  cases hn

theorem IsTree.children {i l r : Idx} {f : Freq} (hi : i.toNat < s.NN.toNat) (h : s.node i = .internal f l r) :
    l.toNat < r.toNat ∧ r.toNat < i.toNat := by
  obtain ⟨g, l', r', hn, h1, h2, -⟩ := ht.internals i (ht.internal_index h) hi
  rw [h] at hn
  cases hn
  exact ⟨h1, h2⟩

/-- A path only goes down the indices, one at least for each branch. -/
theorem IsTree.follow_le {i j : Idx} {c : List Bool} (hi : i.toNat < s.NN.toNat) (h : follow s i c = some j) :
    j.toNat + c.length ≤ i.toNat := by
  induction c generalizing i with
  | nil => cases h; simp
  | cons b c ih =>
    simp only [follow] at h
    cases hn : s.node i with
    | leaf f x => simp [hn] at h
    | internal f l r =>
      simp only [hn] at h
      have hc := ht.children hi hn
      have hlt : (if b then r else l).toNat < i.toNat := by cases b <;> simp <;> omega
      have := ih (Nat.lt_trans hlt hi) h
      simp only [List.length_cons]
      omega

/-- A node has one path from the root (R28: exactly one parent). -/
theorem IsTree.follow_injective {c d : List Bool} {j : Idx} (hc : follow s s.ROOT c = some j)
    (hd : follow s s.ROOT d = some j) : c = d := by
  generalize hn : c.length = n
  induction n generalizing c d j with
  | zero =>
    have : c = [] := List.length_eq_zero_iff.1 hn
    subst this
    cases hc
    have := ht.follow_le ht.root_lt hd
    exact (List.length_eq_zero_iff.1 (by omega)).symm
  | succ n ih =>
    obtain ⟨c, b, rfl⟩ := (List.eq_nil_or_concat c).resolve_left (by intro e; simp [e] at hn)
    have hjr : j.toNat < s.ROOT.toNat := by
      have := ht.follow_le ht.root_lt hc
      omega
    obtain ⟨d, b', rfl⟩ := (List.eq_nil_or_concat d).resolve_left (by rintro rfl; cases hd; omega)
    rw [List.concat_eq_append] at hc hd
    obtain ⟨p, f, l, r, hp, hpn, hpj⟩ := follow_snoc.1 hc
    obtain ⟨q, g, l', r', hq, hqn, hqj⟩ := follow_snoc.1 hd
    have hroot := ht.root_lt
    have hpl : p.toNat < s.NN.toNat := by
      have := ht.follow_le hroot hp
      omega
    have hql : q.toNat < s.NN.toNat := by
      have := ht.follow_le hroot hq
      omega
    obtain ⟨u, -, -, hu⟩ := ht.parent j (by omega) (by rintro rfl; omega)
    have hpu : p = u := hu p hpl ⟨f, l, r, hpn, by rw [hpj]; split <;> simp⟩
    have hqu : q = u := hu q hql ⟨g, l', r', hqn, by rw [hqj]; split <;> simp⟩
    subst hpu
    subst hqu
    rw [hpn] at hqn
    cases hqn
    have hlr := (ht.children hpl hpn).1
    have hb : b = b' := by
      rw [hpj] at hqj
      cases b <;> cases b' <;> simp at hqj
      · rfl
      · rw [hqj] at hlr; omega
      · rw [hqj] at hlr; omega
      · rfl
    rw [hb, ih hp hq (by simpa using hn)]

/-- Every node has a path from the root. -/
theorem IsTree.exists_path (j : Idx) (hj : j.toNat < s.NN.toNat) : ∃ c, follow s s.ROOT c = some j := by
  generalize hn : s.NN.toNat - j.toNat = n
  induction n using Nat.strongRecOn generalizing j with
  | _ n ih =>
    by_cases hr : j = s.ROOT
    · exact ⟨[], by rw [hr]; rfl⟩
    · obtain ⟨p, hp, ⟨f, l, r, hpn, hjc⟩, -⟩ := ht.parent j hj hr
      have hc := ht.children hp hpn
      have hlt : j.toNat < p.toNat := by rcases hjc with rfl | rfl <;> omega
      obtain ⟨c, hcp⟩ := ih (s.NN.toNat - p.toNat) (by omega) p hp rfl
      rcases hjc with rfl | rfl
      · exact ⟨c ++ [false], follow_snoc.2 ⟨p, f, _, r, hcp, hpn, by simp⟩⟩
      · exact ⟨c ++ [true], follow_snoc.2 ⟨p, f, l, _, hcp, hpn, by simp⟩⟩

/-- A path from the root has at most k − 1 branches (R152). -/
theorem IsTree.path_length {c : List Bool} {j : Idx} (h : follow s s.ROOT c = some j) :
    c.length ≤ leafCount s - 1 := by
  by_cases hne : c = []
  · simp [hne]
  · rw [← List.dropLast_concat_getLast hne] at h
    obtain ⟨p, f, l, r, hp, hpn, -⟩ := follow_snoc.1 h
    have h1 := ht.follow_le ht.root_lt hp
    have h2 := ht.internal_index hpn
    have h3 := ht.size
    have h4 := ht.root
    rw [List.length_dropLast] at h1
    omega

/-- A Symbol has one leaf. -/
theorem IsTree.leaf_unique {i j : Idx} {f g : Freq} {x : Sym} (hi : i.toNat < s.NN.toNat) (hj : j.toNat < s.NN.toNat)
    (h : s.node i = .leaf f x) (h' : s.node j = .leaf g x) : i = j := by
  have h1 := ht.leaf_index hi h
  have h2 := ht.leaf_index hj h'
  apply BitVec.eq_of_toNat_eq
  rcases Nat.lt_trichotomy i.toNat j.toNat with hlt | he | hlt
  · have := ht.rising i j f x g x hlt h2 h h'
    omega
  · exact he
  · have := ht.rising j i g x f x hlt h1 h' h
    omega

theorem IsTree.path_index {c : List Bool} {j : Idx} (h : follow s s.ROOT c = some j) : j.toNat < s.NN.toNat := by
  have := ht.follow_le ht.root_lt h
  have := ht.root_lt
  omega

end Tree

end Sys2Proof.Machine
end

