-- ==== Sys2Proof/Laws/CodeTableDeriver.lean ====
section
/-! SUPPORT. What the walk of DERIVE finds on a tree (42_code_table_deriver.md R151, R155), and what writing its records
makes of CT and ICT (R150). -/

namespace Sys2Proof.Machine

/-- The nodes under a node with their codes, a parent before its children, left before right. -/
def preorder (s : State) : Nat → Idx → List Bool → List (Idx × List Bool)
  | 0, _, _ => []
  | n + 1, i, c =>
    (i, c) :: match s.node i with
      | .leaf _ _ => []
      | .internal _ l r => preorder s n l (c ++ [false]) ++ preorder s n r (c ++ [true])

/-- The record of a node that is a leaf. -/
def leafRecord (s : State) (p : Idx × List Bool) : Option CodeRecord :=
  match s.node p.1 with
  | .leaf _ x => some (p.2, x)
  | .internal _ _ _ => none

theorem mem_preorder {s : State} {n : Nat} {i : Idx} {c : List Bool} {p : Idx × List Bool}
    (h : p ∈ preorder s n i c) : ∃ e, p.2 = c ++ e ∧ follow s i e = some p.1 := by
  induction n generalizing i c with
  | zero => simp [preorder] at h
  | succ n ih =>
    rw [preorder, List.mem_cons] at h
    rcases h with rfl | h
    · exact ⟨[], by simp, rfl⟩
    · cases hn : s.node i with
      | leaf f x => simp [hn] at h
      | internal f l r =>
        simp only [hn, List.mem_append] at h
        rcases h with h | h
        · obtain ⟨e, h1, h2⟩ := ih h
          exact ⟨false :: e, by simp [h1], by simp [follow, hn, h2]⟩
        · obtain ⟨e, h1, h2⟩ := ih h
          exact ⟨true :: e, by simp [h1], by simp [follow, hn, h2]⟩

theorem preorder_of_follow {s : State} (ht : IsTree s) {n : Nat} {i j : Idx} {c e : List Bool}
    (hi : i.toNat < s.NN.toNat) (hn : i.toNat < n) (h : follow s i e = some j) : (j, c ++ e) ∈ preorder s n i c := by
  induction n generalizing i c e with
  | zero => omega
  | succ n ih =>
    rw [preorder, List.mem_cons]
    cases e with
    | nil => cases h; simp
    | cons b e =>
      right
      simp only [follow] at h
      cases hnode : s.node i with
      | leaf f x => simp [hnode] at h
      | internal f l r =>
        simp only [hnode] at h
        have hc := ht.children hi hnode
        rw [List.mem_append]
        cases b with
        | false =>
          left
          have := ih (i := l) (c := c ++ [false]) (by omega) (by omega) h
          simpa using this
        | true =>
          right
          have := ih (i := r) (c := c ++ [true]) (by omega) (by omega) h
          simpa using this

theorem nodup_preorder_codes (s : State) (n : Nat) (i : Idx) (c : List Bool) :
    ((preorder s n i c).map Prod.snd).Nodup := by
  induction n generalizing i c with
  | zero => simp [preorder]
  | succ n ih =>
    rw [preorder, List.map_cons, List.nodup_cons]
    cases hn : s.node i with
    | leaf f x => simp
    | internal f l r =>
      simp only [List.map_append, List.nodup_append, ih, true_and, List.mem_append, List.mem_map]
      refine ⟨?_, ?_⟩
      · rintro (⟨p, hp, hpc⟩ | ⟨p, hp, hpc⟩) <;>
          (obtain ⟨e, he, -⟩ := mem_preorder hp
           have := congrArg List.length (he.symm.trans hpc)
           simp at this)
      · rintro a ⟨p, hp, rfl⟩ b ⟨q, hq, rfl⟩ hab
        obtain ⟨e, he, -⟩ := mem_preorder hp
        obtain ⟨e', he', -⟩ := mem_preorder hq
        rw [he, he'] at hab
        simp at hab

/-- More depth than the index changes nothing. -/
theorem preorder_depth {s : State} (ht : IsTree s) {m n : Nat} {i : Idx} {c : List Bool}
    (hi : i.toNat < s.NN.toNat) (hm : i.toNat < m) (hn : i.toNat < n) : preorder s m i c = preorder s n i c := by
  induction m generalizing n i c with
  | zero => omega
  | succ m ih =>
    cases n with
    | zero => omega
    | succ n =>
      rw [preorder, preorder]
      cases hnode : s.node i with
      | leaf f x => rfl
      | internal f l r =>
        have hc := ht.children hi hnode
        simp only
        rw [ih (n := n) (by omega) (by omega) (by omega), ih (n := n) (by omega) (by omega) (by omega)]

/-- The subtree under a node of a tree. -/
abbrev subtree (s : State) (p : Idx × List Bool) : List (Idx × List Bool) := preorder s (p.1.toNat + 1) p.1 p.2

theorem subtree_leaf {s : State} {i : Idx} {c : List Bool} {f : Freq} {x : Sym} (h : s.node i = .leaf f x) :
    subtree s (i, c) = [(i, c)] := by simp [subtree, preorder, h]

theorem subtree_internal {s : State} (ht : IsTree s) {i l r : Idx} {c : List Bool} {f : Freq}
    (hi : i.toNat < s.NN.toNat) (h : s.node i = .internal f l r) :
    subtree s (i, c) = (i, c) :: (subtree s (l, c ++ [false]) ++ subtree s (r, c ++ [true])) := by
  have hc := ht.children hi h
  simp only [subtree, preorder, h]
  rw [preorder_depth ht (m := i.toNat) (n := l.toNat + 1) (by omega) (by omega) (by omega),
    preorder_depth ht (m := i.toNat) (n := r.toNat + 1) (by omega) (by omega) (by omega)]
  rfl

/-- The walk of a stack of nodes of a tree records the leaves under each, in order, when it may pop as many nodes as
there are. -/
theorem walk_eq {s : State} (ht : IsTree s) (fuel : Nat) (ws : List (Idx × List Bool))
    (hws : ∀ p ∈ ws, p.1.toNat < s.NN.toNat) (hf : (ws.flatMap (subtree s)).length ≤ fuel) :
    walk s fuel ws = some ((ws.flatMap (subtree s)).filterMap (leafRecord s)) := by
  induction fuel generalizing ws with
  | zero =>
    cases ws with
    | nil => rfl
    | cons p ws => simp [subtree, preorder] at hf
  | succ fuel ih =>
    cases ws with
    | nil => rfl
    | cons p ws =>
      obtain ⟨i, c⟩ := p
      have hi : i.toNat < s.NN.toNat := hws (i, c) (by simp)
      have hrest : ∀ q ∈ ws, q.1.toNat < s.NN.toNat := fun q hq => hws q (by simp [hq])
      rw [walk, if_neg (by omega)]
      cases hn : s.node i with
      | leaf f x =>
        rw [List.flatMap_cons, subtree_leaf hn] at hf ⊢
        simp only [List.singleton_append, List.length_cons] at hf
        simp only
        rw [ih ws hrest (by omega)]
        simp [leafRecord, hn]
      | internal f l r =>
        have hc := ht.children hi hn
        rw [List.flatMap_cons, subtree_internal ht hi hn] at hf ⊢
        simp only [List.cons_append, List.length_cons] at hf
        simp only
        rw [ih _ ?_ ?_]
        · simp [leafRecord, hn]
        · intro q hq
          simp only [List.mem_cons] at hq
          rcases hq with rfl | rfl | hq
          · simp only; omega
          · simp only; omega
          · exact hrest q hq
        · simp only [List.flatMap_cons, List.length_append] at hf ⊢
          omega

/-- The nodes of the whole tree, each once. -/
theorem nodup_subtree_root {s : State} (ht : IsTree s) : ((subtree s (s.ROOT, [])).map Prod.fst).Nodup := by
  have hnd := nodup_preorder_codes s (s.ROOT.toNat + 1) s.ROOT []
  rw [List.nodup_iff_pairwise_ne, List.pairwise_map] at hnd ⊢
  refine List.Pairwise.imp_of_mem ?_ hnd
  intro p q hp hq hne he
  obtain ⟨e, h1, h2⟩ := mem_preorder hp
  obtain ⟨e', h1', h2'⟩ := mem_preorder hq
  rw [he] at h2
  have := ht.follow_injective h2 h2'
  apply hne
  rw [h1, h1', this]

theorem length_subtree_root {s : State} (ht : IsTree s) : (subtree s (s.ROOT, [])).length ≤ Config.nnode := by
  have hnd : (((subtree s (s.ROOT, [])).map Prod.fst).map BitVec.toNat).Nodup := by
    have h := nodup_subtree_root ht
    rw [List.nodup_iff_pairwise_ne] at h ⊢
    rw [List.pairwise_map]
    exact h.imp fun hne he => hne (BitVec.eq_of_toNat_eq he)
  have hsub : ∀ n ∈ ((subtree s (s.ROOT, [])).map Prod.fst).map BitVec.toNat, n ∈ List.range s.NN.toNat := by
    intro n hn
    obtain ⟨i, hi, rfl⟩ := List.mem_map.1 hn
    obtain ⟨p, hp, rfl⟩ := List.mem_map.1 hi
    obtain ⟨e, -, he⟩ := mem_preorder hp
    exact List.mem_range.2 (ht.path_index he)
  have := (List.subperm_of_subset hnd hsub).length_le
  have h1 := ht.size
  simp only [List.length_map, List.length_range] at this
  simp only [Config.nnode]
  omega

/-- What DERIVE's walk makes of a tree: one record for each leaf, holding the leaf's Symbol and its codeword, as many as
there are leaves, each codeword 1 to max(1, k − 1) bits long (R151 to R153). -/
theorem treeRecords_eq {s : State} (ht : IsTree s) :
    ∃ out, treeRecords s = some out ∧ (∀ r : CodeRecord, r ∈ out ↔ IsCodeOf s r.2 r.1) ∧
      (out.map Prod.snd).Nodup ∧ (out.map Prod.fst).Nodup ∧ out.length = leafCount s ∧
      ∀ r ∈ out, 1 ≤ r.1.length ∧ r.1.length ≤ max 1 (leafCount s - 1) := by
  have hroot := ht.root_lt
  have hk := ht.size
  have hr := ht.root
  cases hn : s.node s.ROOT with
  | leaf f x =>
    have hl := ht.leaf_index hroot hn
    refine ⟨[([false], x)], ?_, ?_, by simp, by simp, by simp; omega, by simp⟩
    · rw [treeRecords, if_neg (by omega)]
      simp [hn]
    · rintro ⟨c, y⟩
      simp only [List.mem_singleton, Prod.mk.injEq, IsCodeOf]
      constructor
      · rintro ⟨rfl, rfl⟩
        exact .inl ⟨f, hn, rfl⟩
      · rintro (⟨g, hg, rfl⟩ | ⟨hc, i, g, hp, -⟩)
        · rw [hn] at hg
          cases hg
          exact ⟨rfl, rfl⟩
        · exact absurd (follow_leaf hn (pathTo_iff.1 hp)) hc
  | internal f l r =>
    have hi := ht.internal_index hn
    have hw := walk_eq ht Config.nnode [(s.ROOT, [])] (by simpa using hroot)
      (by simpa using length_subtree_root ht)
    simp only [List.flatMap_cons, List.flatMap_nil, List.append_nil] at hw
    have hmem : ∀ r : CodeRecord, r ∈ (subtree s (s.ROOT, [])).filterMap (leafRecord s) ↔
        ∃ i f, follow s s.ROOT r.1 = some i ∧ s.node i = .leaf f r.2 := by
      rintro ⟨c, x⟩
      rw [List.mem_filterMap]
      constructor
      · rintro ⟨p, hp, hrec⟩
        obtain ⟨e, h1, h2⟩ := mem_preorder hp
        rw [leafRecord] at hrec
        cases hpn : s.node p.1 with
        | internal f l r => simp [hpn] at hrec
        | leaf g y =>
          simp only [hpn, Option.some.injEq, Prod.mk.injEq] at hrec
          obtain ⟨rfl, rfl⟩ := hrec
          exact ⟨p.1, g, by rw [h1]; exact h2, hpn⟩
      · rintro ⟨i, g, h1, h2⟩
        exact ⟨(i, c), by simpa using preorder_of_follow ht (i := s.ROOT) (n := s.ROOT.toNat + 1) (c := []) hroot (Nat.lt_succ_self _) h1, by simp [leafRecord, h2]⟩
    have hne : ∀ c i g x, follow s s.ROOT c = some i → s.node i = .leaf g x → c ≠ [] := by
      rintro c i g x h1 h2 rfl
      cases h1
      rw [hn] at h2
      cases h2
    have hpw : ((subtree s (s.ROOT, [])).filterMap (leafRecord s)).Pairwise fun a b => a.1 ≠ b.1 ∧ a.2 ≠ b.2 := by
      have hnd := nodup_subtree_root ht
      rw [List.nodup_iff_pairwise_ne, List.pairwise_map] at hnd
      rw [List.pairwise_filterMap]
      refine List.Pairwise.imp_of_mem ?_ hnd
      intro p q hp hq hne a ha b hb
      obtain ⟨e, -, h2⟩ := mem_preorder hp
      obtain ⟨e', -, h2'⟩ := mem_preorder hq
      obtain ⟨a1, a2⟩ := a
      obtain ⟨b1, b2⟩ := b
      obtain ⟨i, g, h3, h4⟩ := (hmem (a1, a2)).1 (List.mem_filterMap.2 ⟨p, hp, ha⟩)
      obtain ⟨j, g', h5, h6⟩ := (hmem (b1, b2)).1 (List.mem_filterMap.2 ⟨q, hq, hb⟩)
      have hpi : p.1 = i ∧ q.1 = j := by
        obtain ⟨e, h7, h8⟩ := mem_preorder hp
        obtain ⟨e', h7', h8'⟩ := mem_preorder hq
        simp only [leafRecord] at ha hb
        constructor
        · cases hpn : s.node p.1 <;> simp [hpn] at ha
          rw [← ha.1, h7, List.nil_append, h8] at h3
          exact Option.some.inj h3
        · cases hqn : s.node q.1 <;> simp [hqn] at hb
          rw [← hb.1, h7', List.nil_append, h8'] at h5
          exact Option.some.inj h5
      obtain ⟨rfl, rfl⟩ := hpi
      constructor
      · intro he
        simp only at he h3 h5
        rw [he, h5] at h3
        exact hne (Option.some.inj h3).symm
      · intro he
        simp only at he h4 h6
        rw [he] at h4
        exact hne (ht.leaf_unique (ht.path_index h3) (ht.path_index h5) h4 h6)
    have hlen : ∀ r ∈ (subtree s (s.ROOT, [])).filterMap (leafRecord s),
        1 ≤ r.1.length ∧ r.1.length ≤ max 1 (leafCount s - 1) := by
      intro r hr
      obtain ⟨i, g, h1, h2⟩ := (hmem r).1 hr
      have := List.length_pos_iff.2 (hne _ _ _ _ h1 h2)
      have := ht.path_length h1
      omega
    refine ⟨(subtree s (s.ROOT, [])).filterMap (leafRecord s), ?_, ?_, ?_, ?_, ?_, hlen⟩
    · rw [treeRecords, if_neg (by omega)]
      simp only [hn, hw]
      rw [Option.filter_some, if_pos]
      rw [List.all_eq_true]
      intro r hr
      have := hlen r hr
      exact decide_eq_true (by rw [Config.lmax]; omega)
    · intro r
      rw [hmem, IsCodeOf]
      constructor
      · rintro ⟨i, g, h1, h2⟩
        exact .inr ⟨hne _ _ _ _ h1 h2, i, g, pathTo_iff.2 h1, h2⟩
      · rintro (⟨g, hg, -⟩ | ⟨-, i, g, h1, h2⟩)
        · rw [hn] at hg
          cases hg
        · exact ⟨i, g, pathTo_iff.1 h1, h2⟩
    · rw [List.nodup_iff_pairwise_ne, List.pairwise_map]
      exact hpw.imp And.right
    · rw [List.nodup_iff_pairwise_ne, List.pairwise_map]
      exact hpw.imp And.left
    · -- the leaves are the entries below k
      have hnd : (((subtree s (s.ROOT, [])).filterMap (leafRecord s)).map Prod.snd).Nodup := by
        rw [List.nodup_iff_pairwise_ne, List.pairwise_map]
        exact hpw.imp And.right
      have hleaf : ∀ i : Nat, i < leafCount s → ∃ f x, s.node (BitVec.ofNat 9 i) = .leaf f x := by
        intro i hi
        obtain ⟨f, x, h, -⟩ := ht.leaves (BitVec.ofNat 9 i) (by simp; omega)
        exact ⟨f, x, h⟩
      let symAt : Nat → Sym := fun i => match s.node (BitVec.ofNat 9 i) with
        | .leaf _ x => x
        | .internal _ _ _ => 0
      have hsym : ∀ i < leafCount s, ∃ f, s.node (BitVec.ofNat 9 i) = .leaf f (symAt i) := by
        intro i hi
        obtain ⟨f, x, h⟩ := hleaf i hi
        exact ⟨f, by simp [symAt, h]⟩
      have hnd2 : ((List.range (leafCount s)).map symAt).Nodup := by
        rw [List.nodup_iff_pairwise_ne, List.pairwise_map]
        refine List.Pairwise.imp_of_mem ?_ (List.nodup_iff_pairwise_ne.1 List.nodup_range)
        intro i j hi hj hij he
        rw [List.mem_range] at hi hj
        obtain ⟨f, hf⟩ := hsym i hi
        obtain ⟨g, hg⟩ := hsym j hj
        rw [he] at hf
        have := ht.leaf_unique (by simp; omega) (by simp; omega) hf hg
        have := congrArg BitVec.toNat this
        simp at this
        omega
      have hperm : (((subtree s (s.ROOT, [])).filterMap (leafRecord s)).map Prod.snd).Perm
          ((List.range (leafCount s)).map symAt) := by
        rw [List.perm_ext_iff_of_nodup hnd hnd2]
        intro x
        rw [List.mem_map, List.mem_map]
        constructor
        · rintro ⟨r, hr, rfl⟩
          obtain ⟨i, g, h1, h2⟩ := (hmem r).1 hr
          refine ⟨i.toNat, List.mem_range.2 (ht.leaf_index (ht.path_index h1) h2), ?_⟩
          have hi : BitVec.ofNat 9 i.toNat = i := by simp
          simp [symAt, hi, h2]
        · rintro ⟨i, hi, rfl⟩
          rw [List.mem_range] at hi
          obtain ⟨f, hf⟩ := hsym i hi
          obtain ⟨c, hc⟩ := ht.exists_path (BitVec.ofNat 9 i) (by simp; omega)
          exact ⟨(c, symAt i), (hmem _).2 ⟨_, f, hc, hf⟩, rfl⟩
      simpa using hperm.length_eq

theorem walk_lengths {s : State} {fuel : Nat} {ws : List (Idx × List Bool)} {out : List CodeRecord}
    (h : walk s fuel ws = some out) (hws : ∀ p ∈ ws, 1 ≤ p.2.length) : ∀ r ∈ out, 1 ≤ r.1.length := by
  induction fuel generalizing ws out with
  | zero =>
    cases ws with
    | nil => simp [walk] at h; simp [h]
    | cons p ws => simp [walk] at h
  | succ fuel ih =>
    cases ws with
    | nil => simp [walk] at h; simp [h]
    | cons p ws =>
      obtain ⟨i, c⟩ := p
      have hc : 1 ≤ c.length := hws (i, c) List.mem_cons_self
      have hrest : ∀ q ∈ ws, 1 ≤ q.2.length := fun q hq => hws q (List.mem_cons_of_mem _ hq)
      rw [walk] at h
      split at h
      · cases h
      · split at h
        · obtain ⟨o, ho, rfl⟩ := Option.map_eq_some_iff.1 h
          intro r hr
          rcases List.mem_cons.1 hr with rfl | hr
          · exact hc
          · exact ih ho hrest r hr
        · refine ih h ?_
          intro q hq
          simp only [List.mem_cons] at hq
          rcases hq with rfl | rfl | hq
          · simp
          · simp
          · exact hrest q hq

/-- Whatever the arena, DERIVE writes no codeword that is empty or longer than 255 bits. -/
theorem treeRecords_lengths {s : State} {out : List CodeRecord} (h : treeRecords s = some out) :
    ∀ r ∈ out, 1 ≤ r.1.length ∧ r.1.length ≤ 255 := by
  rw [treeRecords] at h
  split at h
  · cases h
  · rename_i hn
    split at h
    · cases h
      simp
    · rename_i f l r hroot
      rw [Option.filter_eq_some_iff, List.all_eq_true] at h
      obtain ⟨hw, hall⟩ := h
      rw [Config.nnode, walk, if_neg hn, hroot] at hw
      have hpos := walk_lengths hw (by simp)
      intro r hr
      exact ⟨hpos r hr, by simpa using hall r hr⟩

/-- No codeword of a tree is a beginning of another (R154). -/
theorem isCodeOf_prefix_free {s : State} {x y : Sym} {c d : List Bool} (hc : IsCodeOf s x c)
    (hd : IsCodeOf s y d) (h : c <+: d) : x = y := by
  rcases hc with ⟨f, hf, rfl⟩ | ⟨hne, i, f, hp, hf⟩
  · rcases hd with ⟨g, hg, rfl⟩ | ⟨hne, j, g, hq, hg⟩
    · rw [hf] at hg
      cases hg
      rfl
    · exact absurd (follow_leaf hf (pathTo_iff.1 hq)) hne
  · rcases hd with ⟨g, hg, rfl⟩ | ⟨-, j, g, hq, hg⟩
    · exact absurd (follow_leaf hg (pathTo_iff.1 hp)) hne
    · obtain ⟨e, rfl⟩ := h
      have h1 := pathTo_iff.1 hp
      have h2 := pathTo_iff.1 hq
      rw [follow_append, h1, Option.bind_some] at h2
      have := follow_leaf hf h2
      subst this
      cases h2
      rw [hf] at hg
      cases hg
      rfl

/-! Writing the records. -/

theorem recordCode_frame (s : State) (r : CodeRecord) : { recordCode s r with CT := s.CT, ICT := s.ICT } = s := rfl

theorem foldl_recordCode_frame (out : List CodeRecord) (s : State) :
    { out.foldl recordCode s with CT := s.CT, ICT := s.ICT } = s := by
  induction out generalizing s with
  | nil => rfl
  | cons r out ih =>
    have h := ih (recordCode s r)
    rw [List.foldl_cons]
    rw [State.mk.injEq] at *
    simp_all [recordCode]

/-- DERIVE's writes touch CT and ICT alone. -/
theorem installCodes_frame (s : State) (out : List CodeRecord) :
    { installCodes s out with CT := s.CT, ICT := s.ICT } = s := by
  have h := foldl_recordCode_frame out { s.clearCt with ICT := [] }
  rw [installCodes]
  rw [State.mk.injEq] at *
  simp_all

@[simp] theorem recordCode_ct (s : State) (r : CodeRecord) (y : Sym) :
    (recordCode s r).ct y = if y = r.2 then { valid := true, code := BitStr.ofList r.1 } else s.ct y := by
  simp [recordCode]

@[simp] theorem recordCode_ict (s : State) (r : CodeRecord) (k : BitStr) :
    (recordCode s r).ict k = if k = BitStr.ofList r.1 then some r.2 else s.ict k := by
  simp [recordCode, State.insertIct, State.setCt, State.ict, Table.find?_put]

theorem foldl_recordCode_ct {out : List CodeRecord} (hnd : (out.map Prod.snd).Nodup) (s : State) :
    (∀ x, x ∉ out.map Prod.snd → (out.foldl recordCode s).ct x = s.ct x) ∧
    ∀ r ∈ out, (out.foldl recordCode s).ct r.2 = { valid := true, code := BitStr.ofList r.1 } := by
  induction out generalizing s with
  | nil => simp
  | cons r out ih =>
    rw [List.map_cons, List.nodup_cons] at hnd
    obtain ⟨h1, h2⟩ := ih hnd.2 (recordCode s r)
    refine ⟨fun x hx => ?_, fun q hq => ?_⟩
    · rw [List.map_cons, List.mem_cons, not_or] at hx
      rw [List.foldl_cons, h1 x hx.2, recordCode_ct, if_neg hx.1]
    · rw [List.foldl_cons]
      rcases List.mem_cons.1 hq with rfl | hq
      · rw [h1 _ hnd.1, recordCode_ct, if_pos rfl]
      · exact h2 q hq

theorem foldl_recordCode_ict {out : List CodeRecord} (hnd : (out.map fun r => BitStr.ofList r.1).Nodup) (s : State) :
    (∀ k, k ∉ out.map (fun r => BitStr.ofList r.1) → (out.foldl recordCode s).ict k = s.ict k) ∧
    (∀ r ∈ out, (out.foldl recordCode s).ict (BitStr.ofList r.1) = some r.2) ∧
    ((∀ r ∈ out, s.ict (BitStr.ofList r.1) = none) → (out.foldl recordCode s).ICTN = s.ICTN + out.length) := by
  induction out generalizing s with
  | nil => simp
  | cons r out ih =>
    rw [List.map_cons, List.nodup_cons] at hnd
    obtain ⟨h1, h2, h3⟩ := ih hnd.2 (recordCode s r)
    refine ⟨fun k hk => ?_, fun q hq => ?_, fun hfresh => ?_⟩
    · rw [List.map_cons, List.mem_cons, not_or] at hk
      rw [List.foldl_cons, h1 k hk.2, recordCode_ict, if_neg hk.1]
    · rw [List.foldl_cons]
      rcases List.mem_cons.1 hq with rfl | hq
      · rw [h1 _ hnd.1, recordCode_ict, if_pos rfl]
      · exact h2 q hq
    · rw [List.foldl_cons, h3, List.length_cons]
      · have hr := hfresh r List.mem_cons_self
        have : (recordCode s r).ICTN = s.ICTN + 1 := Table.length_put_new _ hr _
        omega
      · intro q hq
        rw [recordCode_ict, if_neg]
        · exact hfresh q (List.mem_cons_of_mem _ hq)
        · intro he
          exact hnd.1 (List.mem_map.2 ⟨q, hq, he⟩)

/-- DERIVE's CT holds its records alone. -/
theorem installCodes_valid {s : State} {out : List CodeRecord} {x : Sym}
    (h : ((installCodes s out).ct x).valid = true) :
    ∃ r ∈ out, (installCodes s out).ct x = { valid := true, code := BitStr.ofList r.1 } := by
  have key : ∀ (l : List CodeRecord) (t : State), (l.foldl recordCode t).ct x = t.ct x ∨
      ∃ r ∈ l, (l.foldl recordCode t).ct x = { valid := true, code := BitStr.ofList r.1 } := by
    intro l
    induction l with
    | nil => exact fun t => .inl rfl
    | cons r l ih =>
      intro t
      rcases ih (recordCode t r) with e | ⟨q, hq, e⟩
      · rw [recordCode_ct] at e
        split at e
        · exact .inr ⟨r, List.mem_cons_self, e⟩
        · exact .inl e
      · exact .inr ⟨q, List.mem_cons_of_mem _ hq, e⟩
  rcases key out { s.clearCt with ICT := [] } with e | e
  · rw [installCodes, e] at h
    have : ({ s.clearCt with ICT := [] } : State).ct x = s.clearCt.ct x := rfl
    rw [this, clearCt_ct] at h
    cases h
  · exact e

/-- DERIVE's ICT lists its records alone. -/
theorem mem_installCodes_ICT {s : State} {out : List CodeRecord} {p : BitStr × Sym} (h : p ∈ (installCodes s out).ICT) :
    ∃ r ∈ out, p = (BitStr.ofList r.1, r.2) := by
  have key : ∀ (l : List CodeRecord) (t : State), p ∈ (l.foldl recordCode t).ICT →
      p ∈ t.ICT ∨ ∃ r ∈ l, p = (BitStr.ofList r.1, r.2) := by
    intro l
    induction l with
    | nil => exact fun t ht => .inl ht
    | cons r l ih =>
      intro t ht
      rcases ih _ ht with h | ⟨q, hq, h⟩
      · rcases Table.mem_put h with h | h
        · exact .inr ⟨r, List.mem_cons_self, h⟩
        · exact .inl h
      · exact .inr ⟨q, List.mem_cons_of_mem _ hq, h⟩
  rcases key out _ h with h | h
  · cases h
  · exact h

/-- What DERIVE's writes leave in CT and ICT, for records with one codeword a Symbol and one Symbol a codeword (R150). -/
theorem installCodes_spec {out : List CodeRecord} (hs : (out.map Prod.snd).Nodup)
    (hc : (out.map fun r => BitStr.ofList r.1).Nodup) (s : State) :
    (∀ x, ((installCodes s out).ct x).valid = true ↔ x ∈ out.map Prod.snd) ∧
    (∀ r ∈ out, (installCodes s out).ct r.2 = { valid := true, code := BitStr.ofList r.1 }) ∧
    (∀ k x, (installCodes s out).ict k = some x ↔ ∃ r ∈ out, k = BitStr.ofList r.1 ∧ x = r.2) ∧
    (installCodes s out).ICTN = out.length ∧ (installCodes s out).CTN = out.length := by
  obtain ⟨a1, a2⟩ := foldl_recordCode_ct hs { s.clearCt with ICT := [] }
  obtain ⟨b1, b2, b3⟩ := foldl_recordCode_ict hc { s.clearCt with ICT := [] }
  have hv : ∀ x, ((installCodes s out).ct x).valid = true ↔ x ∈ out.map Prod.snd := by
    intro x
    constructor
    · intro h
      apply Classical.byContradiction
      intro hx
      rw [installCodes, a1 x hx] at h
      have : ({ s.clearCt with ICT := [] } : State).ct x = s.clearCt.ct x := rfl
      rw [this, clearCt_ct] at h
      simp at h
    · intro h
      obtain ⟨r, hr, rfl⟩ := List.mem_map.1 h
      rw [installCodes, a2 r hr]
  refine ⟨hv, a2, fun k x => ⟨fun h => ?_, ?_⟩, ?_, ?_⟩
  · by_cases hk : k ∈ out.map fun r => BitStr.ofList r.1
    · obtain ⟨r, hr, rfl⟩ := List.mem_map.1 hk
      rw [installCodes, b2 r hr] at h
      cases h
      exact ⟨r, hr, rfl, rfl⟩
    · rw [installCodes, b1 k hk] at h
      cases h
  · rintro ⟨r, hr, rfl, rfl⟩
    exact b2 r hr
  · rw [installCodes, b3 fun r _ => rfl]
    exact Nat.zero_add _
  · have hperm : (allSyms.filter fun x => ((installCodes s out).ct x).valid).Perm (out.map Prod.snd) := by
      rw [List.perm_ext_iff_of_nodup (nodup_allSyms.filter _) hs]
      intro x
      rw [List.mem_filter]
      simp only [mem_allSyms, true_and]
      exact hv x
    simpa [State.CTN] using hperm.length_eq

end Sys2Proof.Machine
end

