-- ==== Sys2Proof/Laws/Decoder.lean ====
section
/-! SUPPORT. What dec_bit can do (44_decoder.md R171): it writes ACC and DO alone, and the accumulator of at most 255 bits
with its overflow flag holds what the document's unbounded accumulator holds (R174). -/

namespace Sys2Proof.Machine

/-- Every case of dec_bit: the accumulator has overflowed, overflows, takes the bit, or is a key with it. -/
theorem decBit_cases (s : State) (x : Bool) :
    (s.ACC.ovf = true ∧ decBit s x = (s, false)) ∨
    (s.ACC.ovf = false ∧ s.ACC.str.len = 255 ∧ decBit s x = ({ s with ACC := { s.ACC with ovf := true } }, false)) ∨
    (s.ACC.ovf = false ∧ s.ACC.str.len ≠ 255 ∧ s.ict (s.ACC.str.push x) = none ∧
      decBit s x = ({ s with ACC := { s.ACC with str := s.ACC.str.push x } }, false)) ∨
    (s.ACC.ovf = false ∧ s.ACC.str.len ≠ 255 ∧ ∃ r, s.ict (s.ACC.str.push x) = some r ∧
      decBit s x = ({ s with ACC := { s.ACC with str := emptyStr }, DO := s.DO ++ [r] }, true)) := by
  by_cases h1 : s.ACC.ovf = true
  · exact .inl ⟨h1, by simp [decBit, h1]⟩
  · have h1 : s.ACC.ovf = false := by simpa using h1
    by_cases h2 : s.ACC.str.len = 255
    · exact .inr (.inl ⟨h1, h2, by simp [decBit, h1, h2]⟩)
    · cases h3 : s.ict (s.ACC.str.push x) with
      | none => exact .inr (.inr (.inl ⟨h1, h2, rfl, by simp only [decBit, h1, if_neg h2, h3]; rfl⟩))
      | some r => exact .inr (.inr (.inr ⟨h1, h2, r, rfl, by simp only [decBit, h1, if_neg h2, h3]; rfl⟩))

/-- dec_bit writes nothing but ACC and DO. -/
theorem decBit_frame (s : State) (x : Bool) : { (decBit s x).1 with ACC := s.ACC, DO := s.DO } = s := by
  obtain ⟨-, h⟩ | ⟨-, -, h⟩ | ⟨-, -, -, h⟩ | ⟨-, -, r, -, h⟩ := decBit_cases s x <;> rw [h]

/-- dec_bit emits one Symbol or none, and says which. -/
theorem decBit_emits (s : State) (x : Bool) :
    ∃ new, (decBit s x).1.DO = s.DO ++ new ∧ new.length = (decBit s x).2.toNat := by
  obtain ⟨-, h⟩ | ⟨-, -, h⟩ | ⟨-, -, -, h⟩ | ⟨-, -, r, -, h⟩ := decBit_cases s x <;> rw [h]
  · exact ⟨[], by simp, rfl⟩
  · exact ⟨[], by simp, rfl⟩
  · exact ⟨[], by simp, rfl⟩
  · exact ⟨[r], rfl, rfl⟩

theorem decBits_frame (l : List Bool) (s : State) (m : Nat) :
    { (decBits s m l).1 with ACC := s.ACC, DO := s.DO } = s := by
  induction l generalizing s m with
  | nil => rfl
  | cons x xs ih =>
    have h1 := decBit_frame s x
    have h2 := ih (decBit s x).1 (m + (decBit s x).2.toNat)
    rw [decBits]
    rw [State.mk.injEq] at *
    simp_all

/-- The count is how many Symbols were emitted, at most one a bit (R170). -/
theorem decBits_emits (l : List Bool) (s : State) (m : Nat) :
    ∃ new, (decBits s m l).1.DO = s.DO ++ new ∧ (decBits s m l).2 = m + new.length ∧ new.length ≤ l.length := by
  induction l generalizing s m with
  | nil => exact ⟨[], by simp [decBits], rfl, Nat.le_refl _⟩
  | cons x xs ih =>
    obtain ⟨a, ha, hal⟩ := decBit_emits s x
    obtain ⟨b, hb, hbm, hbl⟩ := ih (decBit s x).1 (m + (decBit s x).2.toNat)
    refine ⟨a ++ b, ?_, ?_, ?_⟩
    · rw [decBits, hb, ha, List.append_assoc]
    · rw [decBits, hbm, List.length_append, hal]
      omega
    · have : (decBit s x).2.toNat ≤ 1 := by cases (decBit s x).2 <;> simp
      simp only [List.length_append, List.length_cons]
      omega

/-! The document's accumulator (R174). -/

theorem documentDecode_append (key? : List Bool → Option Sym) (u a b : List Bool) :
    documentDecode key? u (a ++ b) =
      ((documentDecode key? u a).1 ++ (documentDecode key? (documentDecode key? u a).2 b).1,
        (documentDecode key? (documentDecode key? u a).2 b).2) := by
  induction a generalizing u with
  | nil => simp [documentDecode]
  | cons x xs ih =>
    simp only [List.cons_append, documentDecode]
    cases key? (u ++ [x]) with
    | none => simp only [ih]
    | some r => simp only [ih, List.cons_append]

theorem inverseTable_congr {s t : State} (h : t.ICT = s.ICT) : inverseTable t = inverseTable s := by
  funext c
  simp [inverseTable, State.ict, h]

theorem accHolds_ovf {a : Accumulator} {u : List Bool} (h : AccHolds a u) : a.ovf = true ↔ 255 < u.length := by
  rw [h]
  simp [Config.lmax]

theorem accHolds_str {a : Accumulator} {u : List Bool} (h : AccHolds a u) : a.str = BitStr.ofList (u.take 255) := by
  rw [h]

/-- One bit: the Symbols and the accumulator are the document's, overflow included. -/
theorem decBit_refines {s : State} {u : List Bool} (x : Bool) (hu : AccHolds s.ACC u) :
    (decBit s x).1.DO = s.DO ++ (documentDecode (inverseTable s) u [x]).1 ∧
      AccHolds (decBit s x).1.ACC (documentDecode (inverseTable s) u [x]).2 := by
  have ho := accHolds_ovf hu
  have hs := accHolds_str hu
  have hlen : s.ACC.str.len.toNat = min 255 u.length := by
    rw [hs, BitStr.len_ofList (List.length_take_le 255 u)]
    simp
  have h255 : s.ACC.str.len = 255 ↔ 255 ≤ u.length := by
    constructor
    · intro h
      rw [h] at hlen
      simp at hlen
      omega
    · intro h
      apply BitVec.eq_of_toNat_eq
      rw [hlen]
      simp
      omega
  -- more bits change nothing once 255 are held
  have hfull : 255 ≤ u.length → documentDecode (inverseTable s) u [x] = ([], u ++ [x]) ∧
      AccHolds { s.ACC with ovf := true } (u ++ [x]) := by
    intro h
    have hk : inverseTable s (u ++ [x]) = none := by
      rw [inverseTable, if_neg]
      simp [Config.lmax]
      omega
    refine ⟨by simp [documentDecode, hk], ?_⟩
    have ht : (u ++ [x]).take 255 = u.take 255 := List.take_append_of_le_length h
    have hl : 255 < (u ++ [x]).length := by
      rw [List.length_append]
      simp
      omega
    rw [AccHolds, Config.lmax, ht, decide_eq_true hl, ← hs]
  obtain ⟨h1, h⟩ | ⟨h1, h2, h⟩ | ⟨h1, h2, h3, h⟩ | ⟨h1, h2, r, h3, h⟩ := decBit_cases s x <;> rw [h]
  · obtain ⟨g1, g2⟩ := hfull (by have := ho.1 h1; omega)
    have he : ({ s.ACC with ovf := true } : Accumulator) = s.ACC := by rw [← h1]
    rw [g1]
    exact ⟨by simp, by rw [← he]; exact g2⟩
  · obtain ⟨g1, g2⟩ := hfull (h255.1 h2)
    rw [g1]
    exact ⟨by simp, g2⟩
  all_goals
    have hlt : u.length < 255 := by
      have := mt h255.2 h2
      omega
    have htake : u.take 255 = u := List.take_of_length_le (by omega)
    have hpush : s.ACC.str.push x = BitStr.ofList (u ++ [x]) := by rw [hs, htake, BitStr.push_ofList hlt]
    have hk : inverseTable s (u ++ [x]) = s.ict (s.ACC.str.push x) := by
      simp only [inverseTable, Config.lmax]
      rw [if_pos (by simp; omega), hpush]
    rw [h3] at hk
    simp [documentDecode, hk]
  · rw [AccHolds, hpush, h1]
    simp [Config.lmax]
    rw [List.take_of_length_le (by simp; omega)]
    simp
    omega
  · rw [AccHolds, h1]
    simp [Config.lmax, BitStr.ofList, emptyStr, natOfBits]

end Sys2Proof.Machine
end

