-- ==== Sys2Proof/Laws/Exec.lean ====
section
/-! SUPPORT. What each command answers, once: in phase RUN by its rule's cases, in phase FAULT the refusal. Proofs cite
these equations and do not unfold exec. -/

namespace Sys2Proof.Machine

/-- The commands that execute in both phases (60_exceptions.md R224); CSRR only of an assigned number. -/
def executesInFault : Instr → Bool
  | .nop => true
  | .srst => true
  | .eclr => true
  | .csrr n => n.toNat ≤ 7
  | .fclr | .fset _ _ | .finc _ | .frd _ | .build | .nrd _ | .derive | .enc _ | .eflush | .dbits _ _ | .dend | .drst
  | .cwclr | .cwapp _ _ | .cwrd _ | .cclr | .cld _ | .crd _ | .iclr | .ild _ | .ilk => false

theorem csr_eq_none_iff (s : State) (n : BitVec 16) : csr s n = none ↔ 7 < n.toNat := by
  unfold csr
  split <;> rename_i h <;> simp_all <;> omega

/-- In phase FAULT every other command is refused. -/
theorem exec_refused {s : State} (h : s.PH = .fault) {i : Instr} (hi : executesInFault i = false) :
    exec i s = .next (s.answer 15 0) := by
  cases i <;> simp only [executesInFault, Bool.true_eq_false] at hi
  case csrr n =>
    have hn : csr s n = none := (csr_eq_none_iff s n).2 (by simpa using hi)
    simp [exec, execCsrr, hn, whenRun_fault h]
  case derive => simp [exec, execDerive, h]
  all_goals
    simp [exec, execFclr, execFset, execFinc, execFrd, execBuild, execNrd, execEnc, execEflush, execDbits, execDend,
      execDrst, execCwclr, execCwapp, execCwrd, execCclr, execCld, execCrd, execIclr, execIld, execIlk,
      whenRun_fault h]

/-! The system commands, in both phases. -/

theorem exec_nop (s : State) : exec .nop s = .next (s.answer 0 0) := rfl

theorem exec_srst (s : State) : exec .srst s = .next ((softReset s).answer 0 0) := rfl

theorem exec_eclr (s : State) : exec .eclr s = .next ((clearFault s).answer 0 0) := rfl

theorem exec_csrr {s : State} {n : BitVec 16} {v : BitVec 64} (h : csr s n = some v) :
    exec (.csrr n) s = .next (s.answer 0 v) := by simp [exec, execCsrr, h]

section Run

variable {s : State} (h : s.PH = .run)
include h

theorem exec_csrr_unassigned {n : BitVec 16} (hn : 7 < n.toNat) :
    exec (.csrr n) s = .next (faultEntry (encode (.csrr n)) (.illegalCommand .operandOutOfRange) s) := by
  simp [exec, execCsrr, (csr_eq_none_iff s n).2 hn, whenRun_run h]

theorem exec_fclr : exec .fclr s = .next ({ s with FT := [] }.answer 0 0) := by
  simp [exec, execFclr, whenRun_run h]

theorem exec_fset (x : Sym) (count : Count) : exec (.fset x count) s = .next ((s.setFt x count).answer 0 0) := by
  simp [exec, execFset, whenRun_run h]

theorem exec_finc (x : Sym) : exec (.finc x) s = .next (
    if s.ft x = 0xFFFFFFFF#32 then faultEntry (encode (.finc x)) (.capacity .countOverflow) s
    else (s.setFt x (s.ft x + 1)).answer 0 ((s.ft x + 1).setWidth 64)) := by
  simp [exec, execFinc, whenRun_run h]

theorem exec_frd (x : Sym) : exec (.frd x) s = .next (s.answer 0 ((s.ft x).setWidth 64)) := by
  simp [exec, execFrd, whenRun_run h]

theorem exec_build : exec .build s = .next (
    if s.K = 0 then faultEntry (encode .build) .invalidInput s
    else (installTree s (builtNodes s)).answer 0 (treeInfoReg (installTree s (builtNodes s)))) := by
  simp [exec, execBuild, whenRun_run h]

theorem exec_nrd (i : BitVec 16) : exec (.nrd i) s = .next (
    if s.TV = false then faultEntry (encode (.nrd i)) .sequenceError s
    else if legalNode i s.NN = false then faultEntry (encode (.nrd i)) (.illegalCommand .operandOutOfRange) s
    else s.answer 0 (nodeData (s.node (nodeIndex i)))) := by
  simp [exec, execNrd, whenRun_run h]

theorem exec_derive_no_tree (ht : s.TV = false) :
    exec .derive s = .next (faultEntry (encode .derive) .sequenceError s) := by
  simp [exec, execDerive, h, ht]

theorem exec_derive (ht : s.TV = true) {out : List CodeRecord} (ho : treeRecords s = some out) :
    exec .derive s = .next ((installCodes s out).answer 0 (BitVec.ofNat 64 (installCodes s out).CTN)) := by
  simp [exec, execDerive, h, ht, ho]

theorem exec_derive_undefined (ht : s.TV = true) (ho : treeRecords s = none) :
    exec .derive s = .fault .walkUndefined := by
  simp [exec, execDerive, h, ht, ho]

theorem exec_enc (x : Sym) : exec (.enc x) s = .next (
    if (s.ct x).valid = false then faultEntry (encode (.enc x)) (.unknownSymbol x) s
    else ((s.ct x).code.toList.foldl pkAppend s).answer 0 ((s.ct x).code.len.setWidth 64)) := by
  simp [exec, execEnc, whenRun_run h]

theorem exec_eflush : exec .eflush s = .next (
    { (if 0 < s.PK.cnt.toNat then s.emitEO s.PK.buf (s.PK.cnt.setWidth 6) else s) with
      PK := emptyPacker }.answer 0 (s.PK.cnt.setWidth 64)) := by
  simp [exec, execEflush, whenRun_run h]

theorem exec_dbits (n : BitVec 8) (imm : BitVec 32) : exec (.dbits n imm) s = .next (
    if legalBitCount n = false then faultEntry (encode (.dbits n imm)) (.illegalCommand .operandOutOfRange) s
    else (decBits s 0 (bitsOf imm n.toNat)).1.answer 0 (BitVec.ofNat 64 (decBits s 0 (bitsOf imm n.toNat)).2)) := by
  simp [exec, execDbits, whenRun_run h]

theorem exec_dend : exec .dend s = .next (
    if 0 < s.ACC.str.len.toNat then faultEntry (encode .dend) (.truncatedStream s.ACC.str.len s.ACC.ovf) s
    else s.answer 0 0) := by
  simp [exec, execDend, whenRun_run h]

theorem exec_drst : exec .drst s = .next ({ s with ACC := emptyAcc }.answer 0 0) := by
  simp [exec, execDrst, whenRun_run h]

theorem exec_cwclr : exec .cwclr s = .next ({ s with CW := emptyStr }.answer 0 0) := by
  simp [exec, execCwclr, whenRun_run h]

theorem exec_cwapp (n : BitVec 8) (imm : BitVec 32) : exec (.cwapp n imm) s = .next (
    if legalBitCount n = false then faultEntry (encode (.cwapp n imm)) (.illegalCommand .operandOutOfRange) s
    else if Config.lmax < s.CW.len.toNat + n.toNat then
      faultEntry (encode (.cwapp n imm)) (.capacity .codewordTooLong) s
    else { s with CW := s.CW.append (bitsOf imm n.toNat) }.answer 0
      (BitVec.ofNat 64 (s.CW.len.toNat + n.toNat))) := by
  simp [exec, execCwapp, whenRun_run h]

theorem exec_cwrd (j : BitVec 16) : exec (.cwrd j) s = .next (
    if legalChunk j = false then faultEntry (encode (.cwrd j)) (.illegalCommand .operandOutOfRange) s
    else s.answer 0 (0#24 ++ s.CW.len ++ cwChunk s.CW j.toNat : BitVec (24 + 8 + 32))) := by
  simp only [exec, execCwrd, whenRun_run h]; rfl

theorem exec_cclr : exec .cclr s = .next (s.clearCt.answer 0 0) := by
  simp [exec, execCclr, whenRun_run h]

theorem exec_cld (x : Sym) : exec (.cld x) s = .next (
    if s.CW.len = 0 then faultEntry (encode (.cld x)) .malformedRecord s
    else (s.setCt x { valid := true, code := s.CW }).answer 0 0) := by
  simp only [exec, execCld, whenRun_run h, raise_eq, respond_eq]

theorem exec_crd (x : Sym) : exec (.crd x) s = .next (
    if (s.ct x).valid then
      { s with CW := (s.ct x).code }.answer 0 (0#55 ++ 1#1 ++ (s.ct x).code.len : BitVec (55 + 1 + 8))
    else { s with CW := emptyStr }.answer 0 0) := by
  simp only [exec, execCrd, whenRun_run h, respond_eq]

theorem exec_iclr : exec .iclr s = .next ({ s with ICT := [] }.answer 0 0) := by
  simp [exec, execIclr, whenRun_run h]

theorem exec_ild_empty (x : Sym) (hc : s.CW.len = 0) :
    exec (.ild x) s = .next (faultEntry (encode (.ild x)) .malformedRecord s) := by
  simp [exec, execIld, whenRun_run h, hc]

theorem exec_ild_held (x y : Sym) (hc : s.CW.len ≠ 0) (hy : s.ict s.CW = some y) :
    exec (.ild x) s = .next (
      if y = x then s.answer 0 0 else faultEntry (encode (.ild x)) (.duplicateCode y x) s) := by
  simp only [exec, execIld, whenRun_run h, if_neg hc, hy, respond_eq, raise_eq]

theorem exec_ild_new (x : Sym) (hc : s.CW.len ≠ 0) (hy : s.ict s.CW = none) :
    exec (.ild x) s = .next (
      if s.ICTN = Config.ictN then faultEntry (encode (.ild x)) (.capacity .inverseTableFull) s
      else (s.insertIct s.CW x).answer 0 1) := by
  simp only [exec, execIld, whenRun_run h, if_neg hc, hy, respond_eq, raise_eq]

theorem exec_ilk_miss (hm : s.CW.len = 0 ∨ s.ict s.CW = none) : exec .ilk s = .next (s.answer 0 0) := by
  by_cases hc : s.CW.len = 0
  · simp [exec, execIlk, whenRun_run h, hc]
  · have hn := hm.resolve_left hc
    simp only [exec, execIlk, whenRun_run h, if_neg hc, hn, respond_eq]

theorem exec_ilk_hit (x : Sym) (hc : s.CW.len ≠ 0) (hx : s.ict s.CW = some x) :
    exec .ilk s = .next (s.answer 0 (0#55 ++ 1#1 ++ x : BitVec (55 + 1 + 8))) := by
  simp only [exec, execIlk, whenRun_run h, if_neg hc, hx, respond_eq]

end Run

end Sys2Proof.Machine
end

