-- ==== Sys2Proof/Laws/Encoder.lean ====
section
/-! SUPPORT. What pk_append can do (43_encoder.md R161): it writes PK and EO alone, makes the stream longer by its bit, and
keeps the packer and the beats canonical. -/

namespace Sys2Proof.Machine

/-- Every case of pk_append: the bit goes into PK, or it is the 32nd and a full beat goes out. -/
theorem pkAppend_cases (s : State) (x : Bool) :
    (s.PK.cnt ≠ 31 ∧ pkAppend s x =
      { s with PK := { cnt := s.PK.cnt + 1, buf := setBit s.PK.buf s.PK.cnt.toNat x } }) ∨
    (s.PK.cnt = 31 ∧ pkAppend s x =
      { s with PK := emptyPacker, EO := s.EO ++ [{ data := setBit s.PK.buf s.PK.cnt.toNat x, cnt := 32 }] }) := by
  by_cases h : s.PK.cnt = 31
  · exact .inr ⟨h, by simp [pkAppend, h, State.emitEO]⟩
  · exact .inl ⟨h, by simp only [pkAppend, if_neg h]⟩

/-- pk_append writes nothing but PK and EO. -/
theorem pkAppend_frame (s : State) (x : Bool) : { pkAppend s x with PK := s.PK, EO := s.EO } = s := by
  obtain ⟨-, h⟩ | ⟨-, h⟩ := pkAppend_cases s x <;> rw [h]

theorem cnt_succ {c : BitVec 5} (h : c ≠ 31) : (c + 1).toNat = c.toNat + 1 := by
  have := c.isLt
  have h' : c.toNat ≠ 31 := fun e => h (BitVec.eq_of_toNat_eq e)
  rw [BitVec.toNat_add]
  simp
  omega

/-- pk_append makes the bits encoded so far longer by its bit (R161). -/
theorem encodedBits_pkAppend (s : State) (x : Bool) : encodedBits (pkAppend s x) = encodedBits s ++ [x] := by
  have hlt := s.PK.cnt.isLt
  obtain ⟨h, he⟩ | ⟨h, he⟩ := pkAppend_cases s x
  · rw [he]
    simp only [encodedBits, bitsEO, cnt_succ h]
    rw [bitsOf_setBit _ _ _ (by omega), List.append_assoc]
  · rw [he]
    have hb := bitsOf_setBit s.PK.buf s.PK.cnt.toNat x (by omega)
    rw [h] at hb
    simp only [encodedBits, bitsEO, emptyPacker, h, List.flatMap_append]
    simpa using hb

/-- The bits encoded so far after several bits. -/
theorem encodedBits_foldl_pkAppend (l : List Bool) (s : State) :
    encodedBits (l.foldl pkAppend s) = encodedBits s ++ l := by
  induction l generalizing s with
  | nil => simp
  | cons x xs ih => rw [List.foldl_cons, ih, encodedBits_pkAppend, List.append_assoc]; rfl

theorem foldl_pkAppend_frame (l : List Bool) (s : State) :
    { l.foldl pkAppend s with PK := s.PK, EO := s.EO } = s := by
  induction l generalizing s with
  | nil => rfl
  | cons x xs ih =>
    have h1 := pkAppend_frame s x
    have h2 := ih (pkAppend s x)
    rw [List.foldl_cons]
    rw [State.mk.injEq] at *
    simp_all

/-- The beats several bits make: full ones, and as many as the bits fill (R160). -/
theorem foldl_pkAppend_beats (l : List Bool) (s : State) :
    ∃ new, (l.foldl pkAppend s).EO = s.EO ++ new ∧ (∀ b ∈ new, b.cnt = 32) ∧
      new.length = (s.PK.cnt.toNat + l.length) / 32 ∧
      (l.foldl pkAppend s).PK.cnt.toNat = (s.PK.cnt.toNat + l.length) % 32 := by
  induction l generalizing s with
  | nil =>
    have := s.PK.cnt.isLt
    exact ⟨[], by simp, by simp, by simp; omega, by simp; omega⟩
  | cons x xs ih =>
    obtain ⟨new, h1, h2, h3, h4⟩ := ih (pkAppend s x)
    rw [List.foldl_cons]
    have hlt := s.PK.cnt.isLt
    obtain ⟨h, he⟩ | ⟨h, he⟩ := pkAppend_cases s x
    · refine ⟨new, by rw [h1, he], h2, ?_, ?_⟩
      · rw [h3, he]; simp only [cnt_succ h, List.length_cons]; congr 1; omega
      · rw [h4, he]; simp only [cnt_succ h, List.length_cons]; congr 1; omega
    · have h5 : (pkAppend s x).PK.cnt.toNat = 0 := by rw [he]; rfl
      refine ⟨{ data := setBit s.PK.buf s.PK.cnt.toNat x, cnt := 32 } :: new, ?_, ?_, ?_, ?_⟩
      · rw [h1, he]; simp
      · simpa using h2
      · rw [List.length_cons, h3, h5, h]; simp; omega
      · rw [h4, h5, h]; simp; omega

/-- PK is 0 above its count (R32). -/
abbrev PackerOk (p : Packer) : Prop := p.buf >>> p.cnt.toNat = 0

/-- A beat holds 1 to 32 bits and is 0 above them (R95). -/
abbrev BeatOk (b : Beat) : Prop := 1 ≤ b.cnt.toNat ∧ b.cnt.toNat ≤ 32 ∧ b.data >>> b.cnt.toNat = 0

theorem pkAppend_ok {s : State} (x : Bool) (hp : PackerOk s.PK) (he : ∀ b ∈ s.EO, BeatOk b) :
    PackerOk (pkAppend s x).PK ∧ ∀ b ∈ (pkAppend s x).EO, BeatOk b := by
  rw [PackerOk, shiftRight_eq_zero_iff] at hp
  have hlt := s.PK.cnt.isLt
  obtain ⟨h, hs⟩ | ⟨h, hs⟩ := pkAppend_cases s x
  · rw [hs]
    refine ⟨?_, he⟩
    rw [PackerOk, shiftRight_eq_zero_iff]
    intro i hi
    rw [cnt_succ h] at hi
    rw [getLsbD_setBit, if_neg (by omega)]
    exact hp i (by omega)
  · rw [hs]
    refine ⟨by simp [PackerOk, emptyPacker], fun b hb => ?_⟩
    rcases List.mem_append.1 hb with hb | hb
    · exact he b hb
    · rw [List.mem_singleton.1 hb]
      refine ⟨by simp, by simp, ?_⟩
      rw [shiftRight_eq_zero_iff]
      intro i hi
      exact BitVec.getLsbD_of_ge _ _ hi

theorem foldl_pkAppend_ok (l : List Bool) {s : State} (hp : PackerOk s.PK) (he : ∀ b ∈ s.EO, BeatOk b) :
    PackerOk (l.foldl pkAppend s).PK ∧ ∀ b ∈ (l.foldl pkAppend s).EO, BeatOk b := by
  induction l generalizing s with
  | nil => exact ⟨hp, he⟩
  | cons x xs ih =>
    obtain ⟨h1, h2⟩ := pkAppend_ok x hp he
    exact ih h1 h2

end Sys2Proof.Machine
end

