-- ==== Sys2Proof/Laws/TreeBuilder.lean ====
section
/-! SUPPORT. What BUILD makes (41_tree_builder.md R131 to R137): the order of keys, the invariant of the merge loop, and
what writing the arena leaves. -/

namespace Sys2Proof.Machine

/-! The node order (R133). -/

theorem keyLt_iff (a b : LiveKey) :
    keyLt a b = true ↔ a.1.toNat < b.1.toNat ∨ (a.1.toNat = b.1.toNat ∧ a.2 < b.2) := by
  simp only [keyLt, Bool.or_eq_true, Bool.and_eq_true, decide_eq_true_eq, beq_iff_eq, BitVec.lt_def]
  constructor
  · rintro (h | ⟨h, h'⟩)
    · exact .inl h
    · exact .inr ⟨by rw [h], h'⟩
  · rintro (h | ⟨h, h'⟩)
    · exact .inl h
    · exact .inr ⟨BitVec.eq_of_toNat_eq h, h'⟩

theorem keyLt_trans {a b c : LiveKey} (h1 : keyLt a b = true) (h2 : keyLt b c = true) : keyLt a c = true := by
  rw [keyLt_iff] at *
  omega

/-- Two keys with different indices are never equal: one is less. -/
theorem keyLt_total (a b : LiveKey) : keyLt a b = true ∨ a = b ∨ keyLt b a = true := by
  rw [keyLt_iff, keyLt_iff]
  by_cases h : a = b
  · exact .inr (.inl h)
  · have : ¬ (a.1.toNat = b.1.toNat ∧ a.2 = b.2) := fun ⟨h1, h2⟩ => h (Prod.ext (BitVec.eq_of_toNat_eq h1) h2)
    omega

theorem leastKey_spec (js : List LiveKey) (k : LiveKey) :
    leastKey k js ∈ k :: js ∧ ∀ j ∈ k :: js, j = leastKey k js ∨ keyLt (leastKey k js) j = true := by
  induction js generalizing k with
  | nil => simp [leastKey]
  | cons i js ih =>
    rw [leastKey]
    obtain ⟨h1, h2⟩ := ih (if keyLt i k then i else k)
    refine ⟨?_, fun j hj => ?_⟩
    · rcases List.mem_cons.1 h1 with h | h
      · rw [h]
        split <;> simp
      · simp [h]
    · have hsplit : (if keyLt i k then i else k) = leastKey (if keyLt i k then i else k) js ∨
          keyLt (leastKey (if keyLt i k then i else k) js) (if keyLt i k then i else k) = true :=
        h2 _ List.mem_cons_self
      have hstep : ∀ j, (j = (if keyLt i k then i else k) ∨ keyLt (if keyLt i k then i else k) j = true) →
          j = leastKey (if keyLt i k then i else k) js ∨
          keyLt (leastKey (if keyLt i k then i else k) js) j = true := by
        rintro j (rfl | hj)
        · exact hsplit
        · rcases hsplit with h | h
          · right
            rw [← h]
            exact hj
          · exact .inr (keyLt_trans h hj)
      rcases List.mem_cons.1 hj with rfl | hj
      · apply hstep
        split
        · exact .inr ‹_›
        · exact .inl rfl
      · rcases List.mem_cons.1 hj with rfl | hj
        · apply hstep
          split
          · exact .inl rfl
          · rename_i hn
            rcases keyLt_total k j with h | h | h
            · exact .inr h
            · exact .inl h.symm
            · exact absurd h hn
        · exact h2 j (List.mem_cons_of_mem _ hj)

/-- Taking the least key of LIVE (R134). -/
theorem takeLeast_spec {l : List LiveKey} {k : LiveKey} {rest : List LiveKey} (h : takeLeast l = some (k, rest)) :
    k ∈ l ∧ rest = l.erase k ∧ ∀ j ∈ l, j = k ∨ keyLt k j = true := by
  cases l with
  | nil => simp [takeLeast] at h
  | cons i js =>
    simp only [takeLeast, Option.some.injEq, Prod.mk.injEq] at h
    obtain ⟨rfl, rfl⟩ := h
    exact ⟨(leastKey_spec js i).1, rfl, (leastKey_spec js i).2⟩

theorem takeLeast_of_ne_nil {l : List LiveKey} (h : l ≠ []) : ∃ k rest, takeLeast l = some (k, rest) := by
  cases l with
  | nil => exact absurd rfl h
  | cons i js => exact ⟨_, _, rfl⟩

/-! The merge loop. -/

/-- The frequency of entry j of an arena. -/
def freqAt (nodes : List Node) (j : Nat) : Freq := ((nodes[j]?).map Node.freq).getD 0

/-- Entry j is a child of entry m of an arena. -/
def childAt (nodes : List Node) (m j : Nat) : Prop :=
  ∃ f l r, nodes[m]? = some (.internal f l r) ∧ (j = l.toNat ∨ j = r.toNat)

/-- Entry j is there before entry n is made and no entry before n has taken it. -/
def liveAt (nodes : List Node) (n j : Nat) : Prop := j < n ∧ ∀ m < n, ¬ childAt nodes m j

/-- Entry n merges the two least live entries before it (R133 to R135). -/
def MergeAt (nodes : List Node) (n : Nat) : Prop :=
  ∃ f l r, nodes[n]? = some (.internal f l r) ∧ l.toNat < r.toNat ∧ liveAt nodes n l.toNat ∧ liveAt nodes n r.toNat ∧
    f.toNat = (freqAt nodes l.toNat).toNat + (freqAt nodes r.toNat).toNat ∧
    ∀ j, liveAt nodes n j → j ≠ l.toNat → j ≠ r.toNat →
      keyLt (freqAt nodes l.toNat, l.toNat) (freqAt nodes j, j) = true ∧
      keyLt (freqAt nodes r.toNat, r.toNat) (freqAt nodes j, j) = true

theorem freqAt_append {nodes : List Node} {j : Nat} (h : j < nodes.length) (x : Node) :
    freqAt (nodes ++ [x]) j = freqAt nodes j := by
  rw [freqAt, freqAt, List.getElem?_append_left h]

theorem childAt_append {nodes : List Node} {m : Nat} (h : m < nodes.length) (x : Node) (j : Nat) :
    childAt (nodes ++ [x]) m j ↔ childAt nodes m j := by
  rw [childAt, childAt, List.getElem?_append_left h]

theorem liveAt_append {nodes : List Node} {n : Nat} (h : n ≤ nodes.length) (x : Node) (j : Nat) :
    liveAt (nodes ++ [x]) n j ↔ liveAt nodes n j := by
  constructor
  · rintro ⟨h1, h2⟩
    exact ⟨h1, fun m hm hc => h2 m hm ((childAt_append (by omega) x j).2 hc)⟩
  · rintro ⟨h1, h2⟩
    exact ⟨h1, fun m hm hc => h2 m hm ((childAt_append (by omega) x j).1 hc)⟩

theorem mergeAt_append {nodes : List Node} {n : Nat} (h : n < nodes.length) (x : Node) (hm : MergeAt nodes n) :
    MergeAt (nodes ++ [x]) n := by
  obtain ⟨f, l, r, h1, h2, h3, h4, h5, h6⟩ := hm
  have hl := h3.1
  have hr := h4.1
  refine ⟨f, l, r, by rw [List.getElem?_append_left h, h1], h2, (liveAt_append (by omega) x _).2 h3,
    (liveAt_append (by omega) x _).2 h4, ?_, ?_⟩
  · rw [freqAt_append (by omega), freqAt_append (by omega), h5]
  · intro j hj hjl hjr
    have hj' := (liveAt_append (by omega) x j).1 hj
    have := hj'.1
    rw [freqAt_append (by omega), freqAt_append (by omega), freqAt_append (by omega)]
    exact h6 j hj' hjl hjr

/-- The invariant of the merge loop, for the leaves it started from. -/
structure MergeInv (leaves : List Node) (total : Nat) (b : Building) : Prop where
  len    : b.nodes.length + b.live.length = 2 * leaves.length ∧ 1 ≤ b.live.length ∧ leaves.length ≤ b.nodes.length
  first  : ∀ i < leaves.length, b.nodes[i]? = leaves[i]?
  merges : ∀ i, leaves.length ≤ i → i < b.nodes.length → MergeAt b.nodes i
  live   : ∀ f j, (f, j) ∈ b.live ↔ liveAt b.nodes b.nodes.length j ∧ f = freqAt b.nodes j
  nodup  : b.live.Nodup
  total  : (b.live.map fun p => p.1.toNat).sum = total

theorem sum_erase {l : List LiveKey} {k : LiveKey} (h : k ∈ l) :
    (l.map fun p => p.1.toNat).sum = k.1.toNat + ((l.erase k).map fun p => p.1.toNat).sum := by
  have := (List.perm_cons_erase h).map fun p : LiveKey => p.1.toNat
  rw [this.sum_eq, List.map_cons, List.sum_cons]

/-- One merge keeps the invariant and takes one from LIVE. -/
theorem mergeStep_inv {leaves : List Node} {total : Nat} {b b' : Building} (hk : leaves.length ≤ 256)
    (hleaf : ∀ x ∈ leaves, ∃ f y, x = Node.leaf f y) (ht : total < 2 ^ 40) (h : MergeInv leaves total b) (hs : mergeStep b = some b') :
    MergeInv leaves total b' ∧ b'.live.length + 1 = b.live.length := by
  unfold mergeStep at hs
  split at hs
  · cases hs
  rename_i k1 live1 h1
  split at hs
  · cases hs
  rename_i k2 live2 h2
  cases hs
  obtain ⟨m1, rfl, l1⟩ := takeLeast_spec h1
  obtain ⟨m2, rfl, l2⟩ := takeLeast_spec h2
  have hlen := h.len
  have hlen1 := List.length_erase_of_mem m1
  have hlen2 := List.length_erase_of_mem m2
  have hpos1 := List.length_pos_of_mem m1
  have hpos2 := List.length_pos_of_mem m2
  have m2' : k2 ∈ b.live := List.mem_of_mem_erase m2
  have hne : k2 ≠ k1 := fun e => (h.nodup.mem_erase_iff.1 m2).1 e
  have hlt12 : keyLt k1 k2 = true := (l1 k2 m2').resolve_left hne
  obtain ⟨f1, i1⟩ := k1
  obtain ⟨f2, i2⟩ := k2
  obtain ⟨v1, e1⟩ := (h.live f1 i1).1 m1
  obtain ⟨v2, e2⟩ := (h.live f2 i2).1 m2'
  have hi : i1 ≠ i2 := fun e => by
    subst e
    exact hne (by rw [e1, e2])
  have hn : b.nodes.length < 512 := by omega
  have hi1 := v1.1
  have hi2 := v2.1
  have hmin : (BitVec.ofNat 9 (min i1 i2)).toNat = min i1 i2 := by simp; omega
  have hmax : (BitVec.ofNat 9 (max i1 i2)).toNat = max i1 i2 := by simp; omega
  have hsum := h.total
  rw [sum_erase m1, sum_erase m2] at hsum
  have hf : (f1 + f2).toNat = f1.toNat + f2.toNat := by
    rw [BitVec.toNat_add]
    simp only at hsum
    omega
  -- the keys of the two, in the order of their indices
  have hlr : ∀ P : Nat → Prop, (P (min i1 i2) ∧ P (max i1 i2)) ↔ (P i1 ∧ P i2) := by
    intro P
    rcases Nat.lt_or_ge i1 i2 with h' | h'
    · rw [Nat.min_eq_left (by omega), Nat.max_eq_right (by omega)]
    · rw [Nat.min_eq_right (by omega), Nat.max_eq_left (by omega), and_comm]
  have hnew : ∀ x : Node, liveAt (b.nodes ++ [x]) b.nodes.length (min i1 i2) ∧
      liveAt (b.nodes ++ [x]) b.nodes.length (max i1 i2) := by
    intro x
    rw [hlr]
    exact ⟨(liveAt_append (Nat.le_refl _) x _).2 v1, (liveAt_append (Nat.le_refl _) x _).2 v2⟩
  refine ⟨⟨?_, ?_, ?_, ?_, ?_, ?_⟩, ?_⟩
  · simp only [List.length_append, List.length_singleton]
    omega
  · intro i hi
    rw [List.getElem?_append_left (by omega)]
    exact h.first i hi
  · intro i hki hi
    simp only [List.length_append, List.length_singleton] at hi
    by_cases hib : i < b.nodes.length
    · exact mergeAt_append hib _ (h.merges i hki hib)
    · have : i = b.nodes.length := by omega
      subst this
      refine ⟨f1 + f2, BitVec.ofNat 9 (min i1 i2), BitVec.ofNat 9 (max i1 i2), by simp, by omega, ?_, ?_, ?_, ?_⟩
      · rw [hmin]
        exact (hnew _).1
      · rw [hmax]
        exact (hnew _).2
      · rw [hmin, hmax, freqAt_append (by omega), freqAt_append (by omega), hf, e1, e2]
        rcases Nat.lt_or_ge i1 i2 with h' | h'
        · rw [Nat.min_eq_left (by omega), Nat.max_eq_right (by omega)]
        · rw [Nat.min_eq_right (by omega), Nat.max_eq_left (by omega), Nat.add_comm]
      · intro j hj hjl hjr
        rw [hmin] at hjl ⊢
        rw [hmax] at hjr ⊢
        have hj' := (liveAt_append (Nat.le_refl _) _ j).1 hj
        have hjlt := hj'.1
        rw [freqAt_append (by omega), freqAt_append (by omega), freqAt_append (by omega)]
        have hmem := (h.live (freqAt b.nodes j) j).2 ⟨hj', rfl⟩
        have hj1 : (freqAt b.nodes j, j) ≠ (f1, i1) := fun e => by
          have := congrArg Prod.snd e
          simp only at this
          omega
        have hj2 : (freqAt b.nodes j, j) ≠ (f2, i2) := fun e => by
          have := congrArg Prod.snd e
          simp only at this
          omega
        have hmem1 : (freqAt b.nodes j, j) ∈ b.live.erase (f1, i1) := h.nodup.mem_erase_iff.2 ⟨hj1, hmem⟩
        have a2 := (l2 _ hmem1).resolve_left hj2
        have a1 := keyLt_trans hlt12 a2
        rw [e1] at a1
        rw [e2] at a2
        exact (hlr fun i => keyLt (freqAt b.nodes i, i) (freqAt b.nodes j, j) = true).2 ⟨a1, a2⟩
  · intro f j
    rw [List.mem_append, List.mem_singleton, (h.nodup.erase _).mem_erase_iff, h.nodup.mem_erase_iff, h.live]
    simp only [List.length_append, List.length_singleton]
    have hchild : ∀ x, childAt (b.nodes ++ [.internal (f1 + f2) (BitVec.ofNat 9 (min i1 i2))
        (BitVec.ofNat 9 (max i1 i2))]) b.nodes.length x ↔ x = i1 ∨ x = i2 := by
      intro x
      constructor
      · rintro ⟨g, l, r, hg, hx⟩
        simp only [List.getElem?_concat_length, Option.some.injEq, Node.internal.injEq] at hg
        obtain ⟨-, rfl, rfl⟩ := hg
        rw [hmin, hmax] at hx
        omega
      · intro hx
        exact ⟨f1 + f2, BitVec.ofNat 9 (min i1 i2), BitVec.ofNat 9 (max i1 i2), by simp, by rw [hmin, hmax]; omega⟩
    constructor
    · rintro (⟨hj2, hj1, hlive, hfr⟩ | he)
      · have hjlt := hlive.1
        refine ⟨⟨by omega, fun m hm hc => ?_⟩, by rw [hfr, freqAt_append (by omega)]⟩
        by_cases hmn : m < b.nodes.length
        · exact hlive.2 m hmn ((childAt_append hmn _ _).1 hc)
        · have : m = b.nodes.length := by omega
          subst this
          rcases (hchild j).1 hc with rfl | rfl
          · exact hj1 (by rw [hfr, ← e1])
          · exact hj2 (by rw [hfr, ← e2])
      · cases he
        refine ⟨⟨by omega, fun m hm hc => ?_⟩, by simp [freqAt, Node.freq]⟩
        by_cases hmn : m < b.nodes.length
        · have hc := (childAt_append hmn _ _).1 hc
          obtain ⟨g, l, r, hg, hx⟩ := hc
          by_cases hmk : leaves.length ≤ m
          · obtain ⟨g', l', r', hg', -, hl', hr', -⟩ := h.merges m hmk hmn
            rw [hg] at hg'
            cases hg'
            have := hl'.1
            have := hr'.1
            omega
          · rw [h.first m (by omega)] at hg
            obtain ⟨g', y, hy⟩ := hleaf _ (List.mem_of_getElem? hg)
            cases hy
        · have : m = b.nodes.length := by omega
          subst this
          have := (hchild _).1 hc
          omega
    · rintro ⟨⟨hjlt, hnc⟩, rfl⟩
      by_cases hjn : j < b.nodes.length
      · left
        have hj12 : ¬ (j = i1 ∨ j = i2) := fun hx => hnc b.nodes.length (by omega) ((hchild j).2 hx)
        rw [freqAt_append hjn]
        refine ⟨fun e => ?_, fun e => ?_, ⟨hjn, fun m hm hc => ?_⟩, rfl⟩
        · have := congrArg Prod.snd e
          simp only at this
          omega
        · have := congrArg Prod.snd e
          simp only at this
          omega
        · exact hnc m (by omega) ((childAt_append hm _ _).2 hc)
      · right
        have : j = b.nodes.length := by omega
        subst this
        simp [freqAt, Node.freq]
  · rw [List.nodup_append]
    refine ⟨(h.nodup.erase _).erase _, by simp, ?_⟩
    intro x hx y hy
    rw [List.mem_singleton] at hy
    subst hy
    rintro rfl
    have := ((h.live _ _).1 (List.mem_of_mem_erase (List.mem_of_mem_erase hx))).1.1
    omega
  · simp only [List.map_append, List.sum_append, List.map_cons, List.map_nil, List.sum_cons, List.sum_nil]
    simp only at hsum
    omega
  · simp only [List.length_append, List.length_singleton]
    omega

/-- The loop runs until one node is live. -/
theorem mergeLoop_inv {leaves : List Node} {total : Nat} (hk : leaves.length ≤ 256)
    (hleaf : ∀ x ∈ leaves, ∃ f y, x = Node.leaf f y) (ht : total < 2 ^ 40) (fuel : Nat) {b : Building} (h : MergeInv leaves total b) (hf : b.live.length ≤ fuel + 1) :
    MergeInv leaves total (mergeLoop fuel b) ∧ (mergeLoop fuel b).live.length = 1 := by
  induction fuel generalizing b with
  | zero =>
    have := h.len.2.1
    exact ⟨h, by simp only [mergeLoop]; omega⟩
  | succ fuel ih =>
    rw [mergeLoop]
    cases hs : mergeStep b with
    | some b' =>
      obtain ⟨h', hl⟩ := mergeStep_inv hk hleaf ht h hs
      exact ih h' (by omega)
    | none =>
      refine ⟨h, ?_⟩
      have hl := h.len.2.1
      obtain ⟨k1, live1, h1⟩ := takeLeast_of_ne_nil (l := b.live) (by intro e; simp [e] at hl)
      obtain ⟨m1, rfl, -⟩ := takeLeast_spec h1
      have he := List.length_erase_of_mem m1
      by_cases hn : b.live.erase k1 = []
      · rw [hn] at he
        simp only [List.length_nil] at he
        simp only
        omega
      · obtain ⟨k2, live2, h2⟩ := takeLeast_of_ne_nil hn
        simp [mergeStep, h1, h2] at hs

/-! The leaves (R132). -/

theorem leavesOf_mem {s : State} {x : Node} (h : x ∈ leavesOf s) :
    ∃ y, s.ft y ≠ 0 ∧ x = .leaf ((s.ft y).setWidth 40) y := by
  obtain ⟨y, -, hy⟩ := List.mem_filterMap.1 h
  by_cases h0 : s.ft y = 0
  · simp [h0] at hy
  · simp only [h0, if_false, Option.some.injEq] at hy
    exact ⟨y, h0, hy.symm⟩

theorem mem_leavesOf {s : State} {y : Sym} (h : s.ft y ≠ 0) : .leaf ((s.ft y).setWidth 40) y ∈ leavesOf s :=
  List.mem_filterMap.2 ⟨y, mem_allSyms y, by rw [if_neg h]⟩

/-- There are K leaves. -/
theorem length_leavesOf (s : State) : (leavesOf s).length = s.K := by
  rw [leavesOf, State.K]
  generalize allSyms = l
  induction l with
  | nil => rfl
  | cons x xs ih =>
    by_cases h : s.ft x = 0
    · simp only [List.filterMap_cons, List.filter_cons, h, if_true]
      simpa using ih
    · simp only [List.filterMap_cons, List.filter_cons, h, if_false]
      have h' : ¬ s.ft x = 0#32 := h
      simpa [h'] using ih

theorem pairwise_allSyms : allSyms.Pairwise fun x y => x.toNat < y.toNat := by
  rw [allSyms, List.pairwise_map]
  refine List.Pairwise.imp_of_mem ?_ List.pairwise_lt_range
  intro i j hi hj hij
  rw [List.mem_range, Config.nsym] at hi hj
  simp
  omega

/-- Their Symbols rise. -/
theorem leavesOf_rising (s : State) :
    (leavesOf s).Pairwise fun a b => ∀ f x g y, a = .leaf f x → b = .leaf g y → x.toNat < y.toNat := by
  rw [leavesOf, List.pairwise_filterMap]
  refine pairwise_allSyms.imp ?_
  intro x y hxy a ha b hb f x' g y' hax hby
  subst hax
  subst hby
  split at ha <;> split at hb <;> simp at ha hb
  rw [← ha.2, ← hb.2]
  exact hxy

/-- Their frequencies add up to TOTAL. -/
theorem sum_leavesOf (s : State) : ((leavesOf s).map fun n => n.freq.toNat).sum = s.TOTAL := by
  rw [leavesOf, State.TOTAL]
  generalize allSyms = l
  induction l with
  | nil => rfl
  | cons x xs ih =>
    by_cases h : s.ft x = 0
    · simp only [List.filterMap_cons, List.map_cons, List.sum_cons, h, if_true]
      simpa using ih
    · simp only [List.filterMap_cons, List.map_cons, List.sum_cons, h, if_false]
      rw [ih, show (Node.leaf ((s.ft x).setWidth 40) x).freq = (s.ft x).setWidth 40 from rfl, BitVec.toNat_setWidth,
        Nat.mod_eq_of_lt (Nat.lt_trans (s.ft x).isLt (by decide))]

/-- The building starts in the invariant. -/
theorem startBuilding_inv {s : State} (hk : 1 ≤ s.K) : MergeInv (leavesOf s) s.TOTAL (startBuilding s) := by
  have hlen := length_leavesOf s
  have hsnd : ∀ l : List Node, (l.zipIdx.map fun p => (p.1.freq, p.2)).map Prod.snd = List.range l.length := by
    intro l
    rw [List.map_map, List.range_eq_range', ← List.zipIdx_map_snd 0 l]
    rfl
  refine ⟨?_, fun i _ => rfl, ?_, ?_, ?_, ?_⟩
  · simp only [startBuilding, List.length_map, List.length_zipIdx]
    omega
  · intro i h1 h2
    simp only [startBuilding] at h2
    omega
  · intro f j
    simp only [startBuilding, List.mem_map, Prod.mk.injEq, Prod.exists]
    have hnc : ∀ m k, ¬ childAt (leavesOf s) m k := by
      rintro m k ⟨g, l, r, hg, -⟩
      obtain ⟨y, -, hy⟩ := leavesOf_mem (List.mem_of_getElem? hg)
      cases hy
    constructor
    · rintro ⟨a, b, hab, rfl, rfl⟩
      rw [List.mem_zipIdx_iff_getElem?] at hab
      have hb : b < (leavesOf s).length := by
        apply Nat.lt_of_not_le
        intro hle
        rw [List.getElem?_eq_none hle] at hab
        cases hab
      exact ⟨⟨hb, fun m _ => hnc m b⟩, by simp [freqAt, hab]⟩
    · rintro ⟨⟨hj, -⟩, rfl⟩
      refine ⟨(leavesOf s)[j], j, ?_, ?_, rfl⟩
      · rw [List.mem_zipIdx_iff_getElem?]
        exact List.getElem?_eq_getElem hj
      · simp [freqAt, hj]
  · apply List.Nodup.of_map Prod.snd
    rw [startBuilding, hsnd]
    exact List.nodup_range
  · rw [← sum_leavesOf s, startBuilding]
    simp only [List.map_map]
    rw [show ((fun p : LiveKey => p.1.toNat) ∘ fun p : Node × Nat => (p.1.freq, p.2)) =
      (fun n : Node => n.freq.toNat) ∘ Prod.fst from rfl, ← List.map_map, List.zipIdx_map_fst]

/-- The finished arena (R130 to R136): the leaves first, each later entry a merge, and the last entry alone without a
parent, its frequency TOTAL. -/
theorem builtNodes_spec {s : State} (hk : 1 ≤ s.K) :
    (builtNodes s).length = 2 * s.K - 1 ∧ (∀ i < s.K, (builtNodes s)[i]? = (leavesOf s)[i]?) ∧
    (∀ i, s.K ≤ i → i < 2 * s.K - 1 → MergeAt (builtNodes s) i) ∧
    (∀ j, liveAt (builtNodes s) (2 * s.K - 1) j ↔ j = 2 * s.K - 2) ∧
    (freqAt (builtNodes s) (2 * s.K - 2)).toNat = s.TOTAL := by
  have hlen := length_leavesOf s
  have hle := K_le s
  have htot := TOTAL_le s
  obtain ⟨h, h1⟩ := mergeLoop_inv (leaves := leavesOf s) (total := s.TOTAL) (by omega)
    (fun x hx => by obtain ⟨y, -, hy⟩ := leavesOf_mem hx; exact ⟨_, y, hy⟩) (by omega) (leavesOf s).length
    (startBuilding_inv hk) (by simp [startBuilding])
  have hl := h.len
  have hb : (mergeLoop (leavesOf s).length (startBuilding s)).nodes = builtNodes s := rfl
  have hfirst := h.first
  have hmerges := h.merges
  have hlive := h.live
  have htotal := h.total
  rw [hb] at hl hfirst hmerges hlive
  have hn : (builtNodes s).length = 2 * s.K - 1 := by omega
  obtain ⟨k, hk1⟩ := List.length_eq_one_iff.1 h1
  have hroot : liveAt (builtNodes s) (2 * s.K - 1) (2 * s.K - 2) := by
    refine ⟨by omega, fun m hm hc => ?_⟩
    obtain ⟨f, l, r, hg, hx⟩ := hc
    by_cases hmk : s.K ≤ m
    · obtain ⟨f', l', r', hg', -, hl', hr', -⟩ := hmerges m (by omega) (by omega)
      rw [hg] at hg'
      cases hg'
      have := hl'.1
      have := hr'.1
      omega
    · have hf := hfirst m (by omega)
      rw [hg] at hf
      obtain ⟨y, -, hy⟩ := leavesOf_mem (List.mem_of_getElem? hf.symm)
      cases hy
  have hmem : ∀ j, liveAt (builtNodes s) (2 * s.K - 1) j ↔ (freqAt (builtNodes s) j, j) = k := by
    intro j
    have := hlive (freqAt (builtNodes s) j) j
    rw [hk1, List.mem_singleton, hn] at this
    rw [this]
    simp
  have hkr := (hmem _).1 hroot
  refine ⟨hn, fun i hi => hfirst i (by omega), fun i h2 h3 => hmerges i (by omega) (by omega), fun j => ?_, ?_⟩
  · rw [hmem, ← hkr]
    constructor
    · intro e
      exact congrArg Prod.snd e
    · rintro rfl
      rfl
  · rw [hk1, ← hkr] at htotal
    simpa using htotal

/-! Writing the arena. -/

theorem writeNodes_frame (nodes : List Node) (s : State) (i : Nat) : { writeNodes s i nodes with NODE := s.NODE } = s := by
  induction nodes generalizing s i with
  | nil => rfl
  | cons x xs ih =>
    have h := ih (s.setNode (BitVec.ofNat 9 i) x) (i + 1)
    rw [writeNodes]
    rw [State.mk.injEq] at *
    simp_all

theorem writeNodes_node (nodes : List Node) (s : State) (i : Nat) (h : i + nodes.length ≤ 512) (j : Idx) :
    (writeNodes s i nodes).node j =
      if i ≤ j.toNat ∧ j.toNat < i + nodes.length then (nodes[j.toNat - i]?).getD unwrittenNode else s.node j := by
  induction nodes generalizing s i with
  | nil =>
    rw [writeNodes, if_neg]
    simp only [List.length_nil]
    omega
  | cons x xs ih =>
    rw [List.length_cons] at h
    rw [writeNodes, ih _ _ (by omega), setNode_node, List.length_cons]
    have hj : j = BitVec.ofNat 9 i ↔ j.toNat = i := by
      constructor
      · rintro rfl
        simp
        omega
      · intro e
        apply BitVec.eq_of_toNat_eq
        simp
        omega
    by_cases h1 : j.toNat = i
    · rw [if_neg (by omega), if_pos (hj.2 h1), if_pos (by omega), h1]
      simp
    · rw [if_neg (fun e => h1 (hj.1 e))]
      by_cases h2 : i + 1 ≤ j.toNat ∧ j.toNat < i + 1 + xs.length
      · rw [if_pos h2, if_pos (by omega)]
        have : j.toNat - i = (j.toNat - (i + 1)) + 1 := by omega
        rw [this, List.getElem?_cons_succ]
      · rw [if_neg h2, if_neg (by omega)]

/-- BUILD's writes touch NODE, NN, ROOT and TV alone. -/
theorem installTree_frame (s : State) (nodes : List Node) :
    { installTree s nodes with NODE := s.NODE, NN := s.NN, ROOT := s.ROOT, TV := s.TV } = s := by
  have h := writeNodes_frame nodes s 0
  rw [installTree]
  rw [State.mk.injEq] at *
  simp_all

/-- The entries BUILD writes. -/
theorem installTree_node {s : State} {nodes : List Node} (h : nodes.length ≤ 512) {j : Idx}
    (hj : j.toNat < nodes.length) : nodes[j.toNat]? = some ((installTree s nodes).node j) := by
  have := writeNodes_node nodes s 0 (by omega) j
  rw [if_pos (by omega)] at this
  have he : (installTree s nodes).node j = (writeNodes s 0 nodes).node j := rfl
  rw [he, this, Nat.sub_zero, List.getElem?_eq_getElem hj]
  rfl

/-- R28 is about NN, ROOT and the entries of the arena alone. -/
theorem isTree_congr {s t : State} (h : IsTree s) (h1 : t.NN = s.NN) (h2 : t.ROOT = s.ROOT)
    (h3 : ∀ i, t.node i = s.node i) : IsTree t := by
  have hlc : leafCount t = leafCount s := by simp [leafCount, h1]
  have hic : ∀ p j, IsChild t p j ↔ IsChild s p j := fun p j => by simp [IsChild, h3]
  constructor
  · rw [hlc, h1]
    exact h.size
  · rw [h1, h2]
    exact h.root
  · intro i
    rw [hlc, h3]
    exact h.leaves i
  · intro i j f x g y
    rw [hlc, h3, h3]
    exact h.rising i j f x g y
  · intro i
    rw [hlc, h1, h3]
    intro a b
    obtain ⟨f, l, r, e⟩ := h.internals i a b
    exact ⟨f, l, r, by rw [h3, h3]; exact e⟩
  · intro j
    rw [h1, h2]
    simp only [hic]
    exact h.parent j
  · intro p
    rw [h1, h2, hic]
    exact h.no_parent p

/-! The tree BUILD leaves. -/

section Built

variable {s : State} (hk : 1 ≤ s.K)
include hk

theorem built_NN : (installTree s (builtNodes s)).NN.toNat = 2 * s.K - 1 := by
  have := K_le s
  simp only [installTree, (builtNodes_spec hk).1, BitVec.toNat_ofNat]
  omega

theorem built_ROOT : (installTree s (builtNodes s)).ROOT.toNat = 2 * s.K - 2 := by
  have := K_le s
  simp only [installTree, (builtNodes_spec hk).1, BitVec.toNat_ofNat]
  omega

theorem built_leafCount : leafCount (installTree s (builtNodes s)) = s.K := by
  rw [leafCount, built_NN hk]
  omega

theorem built_node {j : Idx} (hj : j.toNat < 2 * s.K - 1) :
    (builtNodes s)[j.toNat]? = some ((installTree s (builtNodes s)).node j) := by
  have := K_le s
  have h := (builtNodes_spec hk).1
  exact installTree_node (by omega) (by omega)

theorem built_freq {j : Idx} (hj : j.toNat < 2 * s.K - 1) :
    freqAt (builtNodes s) j.toNat = ((installTree s (builtNodes s)).node j).freq := by
  rw [freqAt, built_node hk hj]
  rfl

theorem built_childAt {p j : Idx} (hp : p.toNat < 2 * s.K - 1) :
    childAt (builtNodes s) p.toNat j.toNat ↔ IsChild (installTree s (builtNodes s)) p j := by
  rw [childAt, built_node hk hp, IsChild]
  constructor
  · rintro ⟨f, l, r, h, hj⟩
    exact ⟨f, l, r, Option.some.inj h, hj.imp BitVec.eq_of_toNat_eq BitVec.eq_of_toNat_eq⟩
  · rintro ⟨f, l, r, h, hj⟩
    exact ⟨f, l, r, by rw [h], hj.imp (congrArg _) (congrArg _)⟩

theorem built_liveAt {n j : Idx} (hn : n.toNat ≤ 2 * s.K - 1) :
    liveAt (builtNodes s) n.toNat j.toNat ↔ LiveBefore (installTree s (builtNodes s)) n j := by
  rw [liveAt, LiveBefore]
  constructor
  · rintro ⟨h1, h2⟩
    exact ⟨h1, fun m hm hc => h2 m.toNat hm ((built_childAt hk (by omega)).2 hc)⟩
  · rintro ⟨h1, h2⟩
    refine ⟨h1, fun m hm hc => ?_⟩
    have hmi : (BitVec.ofNat 9 m).toNat = m := by
      have := n.isLt
      simp
      omega
    apply h2 (BitVec.ofNat 9 m) (by omega)
    rw [← built_childAt hk (by omega), hmi]
    exact hc

theorem built_leaf {i : Idx} (hi : i.toNat < s.K) :
    (leavesOf s)[i.toNat]? = some ((installTree s (builtNodes s)).node i) := by
  rw [← (builtNodes_spec hk).2.1 _ hi, built_node hk (by omega)]

/-- Each later entry merges two live ones. -/
theorem built_merge {n : Idx} (h1 : s.K ≤ n.toNat) (h2 : n.toNat < 2 * s.K - 1) :
    ∃ f l r, (installTree s (builtNodes s)).node n = .internal f l r ∧ l.toNat < r.toNat ∧
      LiveBefore (installTree s (builtNodes s)) n l ∧ LiveBefore (installTree s (builtNodes s)) n r ∧
      f.toNat = ((installTree s (builtNodes s)).node l).freq.toNat +
        ((installTree s (builtNodes s)).node r).freq.toNat ∧
      ∀ j, LiveBefore (installTree s (builtNodes s)) n j → j ≠ l → j ≠ r →
        keyLt (nodeKey (installTree s (builtNodes s)) l) (nodeKey (installTree s (builtNodes s)) j) = true ∧
        keyLt (nodeKey (installTree s (builtNodes s)) r) (nodeKey (installTree s (builtNodes s)) j) = true := by
  obtain ⟨f, l, r, a1, a2, a3, a4, a5, a6⟩ := (builtNodes_spec hk).2.2.1 n.toNat h1 h2
  rw [built_node hk h2] at a1
  have hl := a3.1
  have hr := a4.1
  rw [built_freq hk (by omega), built_freq hk (by omega)] at a5
  refine ⟨f, l, r, Option.some.inj a1, a2, (built_liveAt hk (by omega)).1 a3, (built_liveAt hk (by omega)).1 a4, a5, ?_⟩
  intro j hj hjl hjr
  have hjn := hj.1
  have := a6 j.toNat ((built_liveAt hk (by omega)).2 hj) (fun e => hjl (BitVec.eq_of_toNat_eq e))
    (fun e => hjr (BitVec.eq_of_toNat_eq e))
  rwa [built_freq hk (by omega), built_freq hk (by omega), built_freq hk (by omega)] at this

/-- BUILD's arena is a tree (R130, R136). -/
theorem built_isTree : IsTree (installTree s (builtNodes s)) := by
  have hle := K_le s
  have hNN := built_NN hk
  have hROOT := built_ROOT hk
  have hlc := built_leafCount hk
  refine ⟨by omega, by omega, ?_, ?_, ?_, ?_, ?_⟩
  · intro i hi
    rw [hlc] at hi
    obtain ⟨y, hy, hn⟩ := leavesOf_mem (List.mem_of_getElem? (built_leaf hk hi))
    refine ⟨_, _, hn, ?_⟩
    have h1 := (s.ft y).isLt
    have h2 : (s.ft y).toNat ≠ 0 := fun e => hy (BitVec.eq_of_toNat_eq e)
    simp
    omega
  · intro i j f x g y hij hj hi' hj'
    rw [hlc] at hj
    have h1 := built_leaf hk (i := i) (by omega)
    have h2 := built_leaf hk hj
    rw [List.getElem?_eq_some_iff] at h1 h2
    obtain ⟨b1, h1⟩ := h1
    obtain ⟨b2, h2⟩ := h2
    exact (List.pairwise_iff_getElem.1 (leavesOf_rising s)) i.toNat j.toNat b1 b2 hij f x g y (h1.trans hi')
      (h2.trans hj')
  · intro i h1 h2
    obtain ⟨f, l, r, a1, a2, -, a4, a5, -⟩ := built_merge hk (n := i) (by omega) (by omega)
    exact ⟨f, l, r, a1, a2, a4.1, a5⟩
  · intro j hj hjr
    have hnl : ¬ liveAt (builtNodes s) (2 * s.K - 1) j.toNat := by
      rw [(builtNodes_spec hk).2.2.2.1]
      intro e
      exact hjr (BitVec.eq_of_toNat_eq (by omega))
    have hex : ∃ p < 2 * s.K - 1, childAt (builtNodes s) p j.toNat := by
      apply Classical.byContradiction
      intro hno
      exact hnl ⟨by omega, fun m hm hc => hno ⟨m, hm, hc⟩⟩
    obtain ⟨p, hp, hc⟩ := hex
    have hpi : (BitVec.ofNat 9 p).toNat = p := by simp; omega
    have hcp : IsChild (installTree s (builtNodes s)) (BitVec.ofNat 9 p) j := by
      rw [← built_childAt hk (by omega), hpi]
      exact hc
    refine ⟨BitVec.ofNat 9 p, by omega, hcp, ?_⟩
    -- a child is live when it is taken, so no earlier entry has taken it
    have key : ∀ u v : Idx, v.toNat < 2 * s.K - 1 → u.toNat < v.toNat →
        IsChild (installTree s (builtNodes s)) u j → ¬ IsChild (installTree s (builtNodes s)) v j := by
      rintro u v hv huv hcu ⟨f, l, r, hn, hj'⟩
      have hvk : s.K ≤ v.toNat := by
        apply Nat.le_of_not_lt
        intro hlt
        obtain ⟨y, -, hy⟩ := leavesOf_mem (List.mem_of_getElem? (built_leaf hk hlt))
        rw [hn] at hy
        cases hy
      obtain ⟨f', l', r', hn', -, hl, hr, -⟩ := built_merge hk hvk hv
      rw [hn] at hn'
      cases hn'
      rcases hj' with rfl | rfl
      · exact hl.2 u huv hcu
      · exact hr.2 u huv hcu
    intro q hq hcq
    rw [hNN] at hq
    rcases Nat.lt_trichotomy q.toNat (BitVec.ofNat 9 p).toNat with h | h | h
    · exact absurd hcp (key q _ (by omega) h hcq)
    · exact BitVec.eq_of_toNat_eq h
    · exact absurd hcq (key _ q hq h hcp)
  · intro p hp hc
    have h := ((builtNodes_spec hk).2.2.2.1 (2 * s.K - 2)).2 rfl
    rw [← hROOT] at h
    exact h.2 p.toNat (by omega) ((built_childAt hk (by omega)).2 hc)

end Built

end Sys2Proof.Machine
end

