-- ==== Sys2Proof/Laws/Frames.lean ====
section
/-! SUPPORT. The frames of the long operations, one lemma a field: the bit-packer, the decoder, writing a tree and writing
the code tables leave every other field as it was. -/

namespace Sys2Proof.Machine

@[simp] theorem pkAppend_PH (s : State) (x : Bool) : (pkAppend s x).PH = s.PH :=
  (congrArg State.PH (pkAppend_frame s x) :)
@[simp] theorem pkAppend_ERRCODE (s : State) (x : Bool) : (pkAppend s x).ERRCODE = s.ERRCODE :=
  (congrArg State.ERRCODE (pkAppend_frame s x) :)
@[simp] theorem pkAppend_ERRCMD (s : State) (x : Bool) : (pkAppend s x).ERRCMD = s.ERRCMD :=
  (congrArg State.ERRCMD (pkAppend_frame s x) :)
@[simp] theorem pkAppend_ERRINFO (s : State) (x : Bool) : (pkAppend s x).ERRINFO = s.ERRINFO :=
  (congrArg State.ERRINFO (pkAppend_frame s x) :)
@[simp] theorem pkAppend_FT (s : State) (x : Bool) : (pkAppend s x).FT = s.FT :=
  (congrArg State.FT (pkAppend_frame s x) :)
@[simp] theorem pkAppend_NODE (s : State) (x : Bool) : (pkAppend s x).NODE = s.NODE :=
  (congrArg State.NODE (pkAppend_frame s x) :)
@[simp] theorem pkAppend_NN (s : State) (x : Bool) : (pkAppend s x).NN = s.NN :=
  (congrArg State.NN (pkAppend_frame s x) :)
@[simp] theorem pkAppend_ROOT (s : State) (x : Bool) : (pkAppend s x).ROOT = s.ROOT :=
  (congrArg State.ROOT (pkAppend_frame s x) :)
@[simp] theorem pkAppend_TV (s : State) (x : Bool) : (pkAppend s x).TV = s.TV :=
  (congrArg State.TV (pkAppend_frame s x) :)
@[simp] theorem pkAppend_CT (s : State) (x : Bool) : (pkAppend s x).CT = s.CT :=
  (congrArg State.CT (pkAppend_frame s x) :)
@[simp] theorem pkAppend_ICT (s : State) (x : Bool) : (pkAppend s x).ICT = s.ICT :=
  (congrArg State.ICT (pkAppend_frame s x) :)
@[simp] theorem pkAppend_CW (s : State) (x : Bool) : (pkAppend s x).CW = s.CW :=
  (congrArg State.CW (pkAppend_frame s x) :)
@[simp] theorem pkAppend_ACC (s : State) (x : Bool) : (pkAppend s x).ACC = s.ACC :=
  (congrArg State.ACC (pkAppend_frame s x) :)
@[simp] theorem pkAppend_DO (s : State) (x : Bool) : (pkAppend s x).DO = s.DO :=
  (congrArg State.DO (pkAppend_frame s x) :)
@[simp] theorem pkAppend_RSP (s : State) (x : Bool) : (pkAppend s x).RSP = s.RSP :=
  (congrArg State.RSP (pkAppend_frame s x) :)
@[simp] theorem pkAppend_script (s : State) (x : Bool) : (pkAppend s x).script = s.script :=
  (congrArg State.script (pkAppend_frame s x) :)
@[simp] theorem pkAppend_pc (s : State) (x : Bool) : (pkAppend s x).pc = s.pc :=
  (congrArg State.pc (pkAppend_frame s x) :)
@[simp] theorem pkAppend_ft (s : State) (x : Bool) (y : Sym) : (pkAppend s x).ft y = s.ft y :=
  (congrArg (fun u => State.ft u y) (pkAppend_frame s x) :)
@[simp] theorem pkAppend_node (s : State) (x : Bool) (j : Idx) : (pkAppend s x).node j = s.node j :=
  (congrArg (fun u => State.node u j) (pkAppend_frame s x) :)
@[simp] theorem pkAppend_ct (s : State) (x : Bool) (y : Sym) : (pkAppend s x).ct y = s.ct y :=
  (congrArg (fun u => State.ct u y) (pkAppend_frame s x) :)
@[simp] theorem pkAppend_ict (s : State) (x : Bool) (k : BitStr) : (pkAppend s x).ict k = s.ict k :=
  (congrArg (fun u => State.ict u k) (pkAppend_frame s x) :)
@[simp] theorem pkAppend_K (s : State) (x : Bool) : (pkAppend s x).K = s.K :=
  (congrArg (fun u => State.K u) (pkAppend_frame s x) :)
@[simp] theorem pkAppend_TOTAL (s : State) (x : Bool) : (pkAppend s x).TOTAL = s.TOTAL :=
  (congrArg (fun u => State.TOTAL u) (pkAppend_frame s x) :)
@[simp] theorem pkAppend_CTN (s : State) (x : Bool) : (pkAppend s x).CTN = s.CTN :=
  (congrArg (fun u => State.CTN u) (pkAppend_frame s x) :)
@[simp] theorem pkAppend_ICTN (s : State) (x : Bool) : (pkAppend s x).ICTN = s.ICTN :=
  (congrArg (fun u => State.ICTN u) (pkAppend_frame s x) :)

@[simp] theorem pkAppends_PH (s : State) (l : List Bool) : (l.foldl pkAppend s).PH = s.PH :=
  (congrArg State.PH (foldl_pkAppend_frame l s) :)
@[simp] theorem pkAppends_ERRCODE (s : State) (l : List Bool) : (l.foldl pkAppend s).ERRCODE = s.ERRCODE :=
  (congrArg State.ERRCODE (foldl_pkAppend_frame l s) :)
@[simp] theorem pkAppends_ERRCMD (s : State) (l : List Bool) : (l.foldl pkAppend s).ERRCMD = s.ERRCMD :=
  (congrArg State.ERRCMD (foldl_pkAppend_frame l s) :)
@[simp] theorem pkAppends_ERRINFO (s : State) (l : List Bool) : (l.foldl pkAppend s).ERRINFO = s.ERRINFO :=
  (congrArg State.ERRINFO (foldl_pkAppend_frame l s) :)
@[simp] theorem pkAppends_FT (s : State) (l : List Bool) : (l.foldl pkAppend s).FT = s.FT :=
  (congrArg State.FT (foldl_pkAppend_frame l s) :)
@[simp] theorem pkAppends_NODE (s : State) (l : List Bool) : (l.foldl pkAppend s).NODE = s.NODE :=
  (congrArg State.NODE (foldl_pkAppend_frame l s) :)
@[simp] theorem pkAppends_NN (s : State) (l : List Bool) : (l.foldl pkAppend s).NN = s.NN :=
  (congrArg State.NN (foldl_pkAppend_frame l s) :)
@[simp] theorem pkAppends_ROOT (s : State) (l : List Bool) : (l.foldl pkAppend s).ROOT = s.ROOT :=
  (congrArg State.ROOT (foldl_pkAppend_frame l s) :)
@[simp] theorem pkAppends_TV (s : State) (l : List Bool) : (l.foldl pkAppend s).TV = s.TV :=
  (congrArg State.TV (foldl_pkAppend_frame l s) :)
@[simp] theorem pkAppends_CT (s : State) (l : List Bool) : (l.foldl pkAppend s).CT = s.CT :=
  (congrArg State.CT (foldl_pkAppend_frame l s) :)
@[simp] theorem pkAppends_ICT (s : State) (l : List Bool) : (l.foldl pkAppend s).ICT = s.ICT :=
  (congrArg State.ICT (foldl_pkAppend_frame l s) :)
@[simp] theorem pkAppends_CW (s : State) (l : List Bool) : (l.foldl pkAppend s).CW = s.CW :=
  (congrArg State.CW (foldl_pkAppend_frame l s) :)
@[simp] theorem pkAppends_ACC (s : State) (l : List Bool) : (l.foldl pkAppend s).ACC = s.ACC :=
  (congrArg State.ACC (foldl_pkAppend_frame l s) :)
@[simp] theorem pkAppends_DO (s : State) (l : List Bool) : (l.foldl pkAppend s).DO = s.DO :=
  (congrArg State.DO (foldl_pkAppend_frame l s) :)
@[simp] theorem pkAppends_RSP (s : State) (l : List Bool) : (l.foldl pkAppend s).RSP = s.RSP :=
  (congrArg State.RSP (foldl_pkAppend_frame l s) :)
@[simp] theorem pkAppends_script (s : State) (l : List Bool) : (l.foldl pkAppend s).script = s.script :=
  (congrArg State.script (foldl_pkAppend_frame l s) :)
@[simp] theorem pkAppends_pc (s : State) (l : List Bool) : (l.foldl pkAppend s).pc = s.pc :=
  (congrArg State.pc (foldl_pkAppend_frame l s) :)
@[simp] theorem pkAppends_ft (s : State) (l : List Bool) (y : Sym) : (l.foldl pkAppend s).ft y = s.ft y :=
  (congrArg (fun u => State.ft u y) (foldl_pkAppend_frame l s) :)
@[simp] theorem pkAppends_node (s : State) (l : List Bool) (j : Idx) : (l.foldl pkAppend s).node j = s.node j :=
  (congrArg (fun u => State.node u j) (foldl_pkAppend_frame l s) :)
@[simp] theorem pkAppends_ct (s : State) (l : List Bool) (y : Sym) : (l.foldl pkAppend s).ct y = s.ct y :=
  (congrArg (fun u => State.ct u y) (foldl_pkAppend_frame l s) :)
@[simp] theorem pkAppends_ict (s : State) (l : List Bool) (k : BitStr) : (l.foldl pkAppend s).ict k = s.ict k :=
  (congrArg (fun u => State.ict u k) (foldl_pkAppend_frame l s) :)
@[simp] theorem pkAppends_K (s : State) (l : List Bool) : (l.foldl pkAppend s).K = s.K :=
  (congrArg (fun u => State.K u) (foldl_pkAppend_frame l s) :)
@[simp] theorem pkAppends_TOTAL (s : State) (l : List Bool) : (l.foldl pkAppend s).TOTAL = s.TOTAL :=
  (congrArg (fun u => State.TOTAL u) (foldl_pkAppend_frame l s) :)
@[simp] theorem pkAppends_CTN (s : State) (l : List Bool) : (l.foldl pkAppend s).CTN = s.CTN :=
  (congrArg (fun u => State.CTN u) (foldl_pkAppend_frame l s) :)
@[simp] theorem pkAppends_ICTN (s : State) (l : List Bool) : (l.foldl pkAppend s).ICTN = s.ICTN :=
  (congrArg (fun u => State.ICTN u) (foldl_pkAppend_frame l s) :)

@[simp] theorem decBit_PH (s : State) (x : Bool) : (decBit s x).1.PH = s.PH :=
  (congrArg State.PH (decBit_frame s x) :)
@[simp] theorem decBit_ERRCODE (s : State) (x : Bool) : (decBit s x).1.ERRCODE = s.ERRCODE :=
  (congrArg State.ERRCODE (decBit_frame s x) :)
@[simp] theorem decBit_ERRCMD (s : State) (x : Bool) : (decBit s x).1.ERRCMD = s.ERRCMD :=
  (congrArg State.ERRCMD (decBit_frame s x) :)
@[simp] theorem decBit_ERRINFO (s : State) (x : Bool) : (decBit s x).1.ERRINFO = s.ERRINFO :=
  (congrArg State.ERRINFO (decBit_frame s x) :)
@[simp] theorem decBit_FT (s : State) (x : Bool) : (decBit s x).1.FT = s.FT :=
  (congrArg State.FT (decBit_frame s x) :)
@[simp] theorem decBit_NODE (s : State) (x : Bool) : (decBit s x).1.NODE = s.NODE :=
  (congrArg State.NODE (decBit_frame s x) :)
@[simp] theorem decBit_NN (s : State) (x : Bool) : (decBit s x).1.NN = s.NN :=
  (congrArg State.NN (decBit_frame s x) :)
@[simp] theorem decBit_ROOT (s : State) (x : Bool) : (decBit s x).1.ROOT = s.ROOT :=
  (congrArg State.ROOT (decBit_frame s x) :)
@[simp] theorem decBit_TV (s : State) (x : Bool) : (decBit s x).1.TV = s.TV :=
  (congrArg State.TV (decBit_frame s x) :)
@[simp] theorem decBit_CT (s : State) (x : Bool) : (decBit s x).1.CT = s.CT :=
  (congrArg State.CT (decBit_frame s x) :)
@[simp] theorem decBit_ICT (s : State) (x : Bool) : (decBit s x).1.ICT = s.ICT :=
  (congrArg State.ICT (decBit_frame s x) :)
@[simp] theorem decBit_CW (s : State) (x : Bool) : (decBit s x).1.CW = s.CW :=
  (congrArg State.CW (decBit_frame s x) :)
@[simp] theorem decBit_PK (s : State) (x : Bool) : (decBit s x).1.PK = s.PK :=
  (congrArg State.PK (decBit_frame s x) :)
@[simp] theorem decBit_EO (s : State) (x : Bool) : (decBit s x).1.EO = s.EO :=
  (congrArg State.EO (decBit_frame s x) :)
@[simp] theorem decBit_RSP (s : State) (x : Bool) : (decBit s x).1.RSP = s.RSP :=
  (congrArg State.RSP (decBit_frame s x) :)
@[simp] theorem decBit_script (s : State) (x : Bool) : (decBit s x).1.script = s.script :=
  (congrArg State.script (decBit_frame s x) :)
@[simp] theorem decBit_pc (s : State) (x : Bool) : (decBit s x).1.pc = s.pc :=
  (congrArg State.pc (decBit_frame s x) :)
@[simp] theorem decBit_ft (s : State) (x : Bool) (y : Sym) : (decBit s x).1.ft y = s.ft y :=
  (congrArg (fun u => State.ft u y) (decBit_frame s x) :)
@[simp] theorem decBit_node (s : State) (x : Bool) (j : Idx) : (decBit s x).1.node j = s.node j :=
  (congrArg (fun u => State.node u j) (decBit_frame s x) :)
@[simp] theorem decBit_ct (s : State) (x : Bool) (y : Sym) : (decBit s x).1.ct y = s.ct y :=
  (congrArg (fun u => State.ct u y) (decBit_frame s x) :)
@[simp] theorem decBit_ict (s : State) (x : Bool) (k : BitStr) : (decBit s x).1.ict k = s.ict k :=
  (congrArg (fun u => State.ict u k) (decBit_frame s x) :)
@[simp] theorem decBit_K (s : State) (x : Bool) : (decBit s x).1.K = s.K :=
  (congrArg (fun u => State.K u) (decBit_frame s x) :)
@[simp] theorem decBit_TOTAL (s : State) (x : Bool) : (decBit s x).1.TOTAL = s.TOTAL :=
  (congrArg (fun u => State.TOTAL u) (decBit_frame s x) :)
@[simp] theorem decBit_CTN (s : State) (x : Bool) : (decBit s x).1.CTN = s.CTN :=
  (congrArg (fun u => State.CTN u) (decBit_frame s x) :)
@[simp] theorem decBit_ICTN (s : State) (x : Bool) : (decBit s x).1.ICTN = s.ICTN :=
  (congrArg (fun u => State.ICTN u) (decBit_frame s x) :)

@[simp] theorem decBits_PH (s : State) (m : Nat) (l : List Bool) : (decBits s m l).1.PH = s.PH :=
  (congrArg State.PH (decBits_frame l s m) :)
@[simp] theorem decBits_ERRCODE (s : State) (m : Nat) (l : List Bool) : (decBits s m l).1.ERRCODE = s.ERRCODE :=
  (congrArg State.ERRCODE (decBits_frame l s m) :)
@[simp] theorem decBits_ERRCMD (s : State) (m : Nat) (l : List Bool) : (decBits s m l).1.ERRCMD = s.ERRCMD :=
  (congrArg State.ERRCMD (decBits_frame l s m) :)
@[simp] theorem decBits_ERRINFO (s : State) (m : Nat) (l : List Bool) : (decBits s m l).1.ERRINFO = s.ERRINFO :=
  (congrArg State.ERRINFO (decBits_frame l s m) :)
@[simp] theorem decBits_FT (s : State) (m : Nat) (l : List Bool) : (decBits s m l).1.FT = s.FT :=
  (congrArg State.FT (decBits_frame l s m) :)
@[simp] theorem decBits_NODE (s : State) (m : Nat) (l : List Bool) : (decBits s m l).1.NODE = s.NODE :=
  (congrArg State.NODE (decBits_frame l s m) :)
@[simp] theorem decBits_NN (s : State) (m : Nat) (l : List Bool) : (decBits s m l).1.NN = s.NN :=
  (congrArg State.NN (decBits_frame l s m) :)
@[simp] theorem decBits_ROOT (s : State) (m : Nat) (l : List Bool) : (decBits s m l).1.ROOT = s.ROOT :=
  (congrArg State.ROOT (decBits_frame l s m) :)
@[simp] theorem decBits_TV (s : State) (m : Nat) (l : List Bool) : (decBits s m l).1.TV = s.TV :=
  (congrArg State.TV (decBits_frame l s m) :)
@[simp] theorem decBits_CT (s : State) (m : Nat) (l : List Bool) : (decBits s m l).1.CT = s.CT :=
  (congrArg State.CT (decBits_frame l s m) :)
@[simp] theorem decBits_ICT (s : State) (m : Nat) (l : List Bool) : (decBits s m l).1.ICT = s.ICT :=
  (congrArg State.ICT (decBits_frame l s m) :)
@[simp] theorem decBits_CW (s : State) (m : Nat) (l : List Bool) : (decBits s m l).1.CW = s.CW :=
  (congrArg State.CW (decBits_frame l s m) :)
@[simp] theorem decBits_PK (s : State) (m : Nat) (l : List Bool) : (decBits s m l).1.PK = s.PK :=
  (congrArg State.PK (decBits_frame l s m) :)
@[simp] theorem decBits_EO (s : State) (m : Nat) (l : List Bool) : (decBits s m l).1.EO = s.EO :=
  (congrArg State.EO (decBits_frame l s m) :)
@[simp] theorem decBits_RSP (s : State) (m : Nat) (l : List Bool) : (decBits s m l).1.RSP = s.RSP :=
  (congrArg State.RSP (decBits_frame l s m) :)
@[simp] theorem decBits_script (s : State) (m : Nat) (l : List Bool) : (decBits s m l).1.script = s.script :=
  (congrArg State.script (decBits_frame l s m) :)
@[simp] theorem decBits_pc (s : State) (m : Nat) (l : List Bool) : (decBits s m l).1.pc = s.pc :=
  (congrArg State.pc (decBits_frame l s m) :)
@[simp] theorem decBits_ft (s : State) (m : Nat) (l : List Bool) (y : Sym) : (decBits s m l).1.ft y = s.ft y :=
  (congrArg (fun u => State.ft u y) (decBits_frame l s m) :)
@[simp] theorem decBits_node (s : State) (m : Nat) (l : List Bool) (j : Idx) : (decBits s m l).1.node j = s.node j :=
  (congrArg (fun u => State.node u j) (decBits_frame l s m) :)
@[simp] theorem decBits_ct (s : State) (m : Nat) (l : List Bool) (y : Sym) : (decBits s m l).1.ct y = s.ct y :=
  (congrArg (fun u => State.ct u y) (decBits_frame l s m) :)
@[simp] theorem decBits_ict (s : State) (m : Nat) (l : List Bool) (k : BitStr) : (decBits s m l).1.ict k = s.ict k :=
  (congrArg (fun u => State.ict u k) (decBits_frame l s m) :)
@[simp] theorem decBits_K (s : State) (m : Nat) (l : List Bool) : (decBits s m l).1.K = s.K :=
  (congrArg (fun u => State.K u) (decBits_frame l s m) :)
@[simp] theorem decBits_TOTAL (s : State) (m : Nat) (l : List Bool) : (decBits s m l).1.TOTAL = s.TOTAL :=
  (congrArg (fun u => State.TOTAL u) (decBits_frame l s m) :)
@[simp] theorem decBits_CTN (s : State) (m : Nat) (l : List Bool) : (decBits s m l).1.CTN = s.CTN :=
  (congrArg (fun u => State.CTN u) (decBits_frame l s m) :)
@[simp] theorem decBits_ICTN (s : State) (m : Nat) (l : List Bool) : (decBits s m l).1.ICTN = s.ICTN :=
  (congrArg (fun u => State.ICTN u) (decBits_frame l s m) :)

@[simp] theorem installTree_PH (s : State) (nodes : List Node) : (installTree s nodes).PH = s.PH :=
  (congrArg State.PH (installTree_frame s nodes) :)
@[simp] theorem installTree_ERRCODE (s : State) (nodes : List Node) : (installTree s nodes).ERRCODE = s.ERRCODE :=
  (congrArg State.ERRCODE (installTree_frame s nodes) :)
@[simp] theorem installTree_ERRCMD (s : State) (nodes : List Node) : (installTree s nodes).ERRCMD = s.ERRCMD :=
  (congrArg State.ERRCMD (installTree_frame s nodes) :)
@[simp] theorem installTree_ERRINFO (s : State) (nodes : List Node) : (installTree s nodes).ERRINFO = s.ERRINFO :=
  (congrArg State.ERRINFO (installTree_frame s nodes) :)
@[simp] theorem installTree_FT (s : State) (nodes : List Node) : (installTree s nodes).FT = s.FT :=
  (congrArg State.FT (installTree_frame s nodes) :)
@[simp] theorem installTree_CT (s : State) (nodes : List Node) : (installTree s nodes).CT = s.CT :=
  (congrArg State.CT (installTree_frame s nodes) :)
@[simp] theorem installTree_ICT (s : State) (nodes : List Node) : (installTree s nodes).ICT = s.ICT :=
  (congrArg State.ICT (installTree_frame s nodes) :)
@[simp] theorem installTree_CW (s : State) (nodes : List Node) : (installTree s nodes).CW = s.CW :=
  (congrArg State.CW (installTree_frame s nodes) :)
@[simp] theorem installTree_PK (s : State) (nodes : List Node) : (installTree s nodes).PK = s.PK :=
  (congrArg State.PK (installTree_frame s nodes) :)
@[simp] theorem installTree_ACC (s : State) (nodes : List Node) : (installTree s nodes).ACC = s.ACC :=
  (congrArg State.ACC (installTree_frame s nodes) :)
@[simp] theorem installTree_EO (s : State) (nodes : List Node) : (installTree s nodes).EO = s.EO :=
  (congrArg State.EO (installTree_frame s nodes) :)
@[simp] theorem installTree_DO (s : State) (nodes : List Node) : (installTree s nodes).DO = s.DO :=
  (congrArg State.DO (installTree_frame s nodes) :)
@[simp] theorem installTree_RSP (s : State) (nodes : List Node) : (installTree s nodes).RSP = s.RSP :=
  (congrArg State.RSP (installTree_frame s nodes) :)
@[simp] theorem installTree_script (s : State) (nodes : List Node) : (installTree s nodes).script = s.script :=
  (congrArg State.script (installTree_frame s nodes) :)
@[simp] theorem installTree_pc (s : State) (nodes : List Node) : (installTree s nodes).pc = s.pc :=
  (congrArg State.pc (installTree_frame s nodes) :)
@[simp] theorem installTree_ft (s : State) (nodes : List Node) (y : Sym) : (installTree s nodes).ft y = s.ft y :=
  (congrArg (fun u => State.ft u y) (installTree_frame s nodes) :)
@[simp] theorem installTree_ct (s : State) (nodes : List Node) (y : Sym) : (installTree s nodes).ct y = s.ct y :=
  (congrArg (fun u => State.ct u y) (installTree_frame s nodes) :)
@[simp] theorem installTree_ict (s : State) (nodes : List Node) (k : BitStr) : (installTree s nodes).ict k = s.ict k :=
  (congrArg (fun u => State.ict u k) (installTree_frame s nodes) :)
@[simp] theorem installTree_K (s : State) (nodes : List Node) : (installTree s nodes).K = s.K :=
  (congrArg (fun u => State.K u) (installTree_frame s nodes) :)
@[simp] theorem installTree_TOTAL (s : State) (nodes : List Node) : (installTree s nodes).TOTAL = s.TOTAL :=
  (congrArg (fun u => State.TOTAL u) (installTree_frame s nodes) :)
@[simp] theorem installTree_CTN (s : State) (nodes : List Node) : (installTree s nodes).CTN = s.CTN :=
  (congrArg (fun u => State.CTN u) (installTree_frame s nodes) :)
@[simp] theorem installTree_ICTN (s : State) (nodes : List Node) : (installTree s nodes).ICTN = s.ICTN :=
  (congrArg (fun u => State.ICTN u) (installTree_frame s nodes) :)

@[simp] theorem installCodes_PH (s : State) (out : List CodeRecord) : (installCodes s out).PH = s.PH :=
  (congrArg State.PH (installCodes_frame s out) :)
@[simp] theorem installCodes_ERRCODE (s : State) (out : List CodeRecord) : (installCodes s out).ERRCODE = s.ERRCODE :=
  (congrArg State.ERRCODE (installCodes_frame s out) :)
@[simp] theorem installCodes_ERRCMD (s : State) (out : List CodeRecord) : (installCodes s out).ERRCMD = s.ERRCMD :=
  (congrArg State.ERRCMD (installCodes_frame s out) :)
@[simp] theorem installCodes_ERRINFO (s : State) (out : List CodeRecord) : (installCodes s out).ERRINFO = s.ERRINFO :=
  (congrArg State.ERRINFO (installCodes_frame s out) :)
@[simp] theorem installCodes_FT (s : State) (out : List CodeRecord) : (installCodes s out).FT = s.FT :=
  (congrArg State.FT (installCodes_frame s out) :)
@[simp] theorem installCodes_NODE (s : State) (out : List CodeRecord) : (installCodes s out).NODE = s.NODE :=
  (congrArg State.NODE (installCodes_frame s out) :)
@[simp] theorem installCodes_NN (s : State) (out : List CodeRecord) : (installCodes s out).NN = s.NN :=
  (congrArg State.NN (installCodes_frame s out) :)
@[simp] theorem installCodes_ROOT (s : State) (out : List CodeRecord) : (installCodes s out).ROOT = s.ROOT :=
  (congrArg State.ROOT (installCodes_frame s out) :)
@[simp] theorem installCodes_TV (s : State) (out : List CodeRecord) : (installCodes s out).TV = s.TV :=
  (congrArg State.TV (installCodes_frame s out) :)
@[simp] theorem installCodes_CW (s : State) (out : List CodeRecord) : (installCodes s out).CW = s.CW :=
  (congrArg State.CW (installCodes_frame s out) :)
@[simp] theorem installCodes_PK (s : State) (out : List CodeRecord) : (installCodes s out).PK = s.PK :=
  (congrArg State.PK (installCodes_frame s out) :)
@[simp] theorem installCodes_ACC (s : State) (out : List CodeRecord) : (installCodes s out).ACC = s.ACC :=
  (congrArg State.ACC (installCodes_frame s out) :)
@[simp] theorem installCodes_EO (s : State) (out : List CodeRecord) : (installCodes s out).EO = s.EO :=
  (congrArg State.EO (installCodes_frame s out) :)
@[simp] theorem installCodes_DO (s : State) (out : List CodeRecord) : (installCodes s out).DO = s.DO :=
  (congrArg State.DO (installCodes_frame s out) :)
@[simp] theorem installCodes_RSP (s : State) (out : List CodeRecord) : (installCodes s out).RSP = s.RSP :=
  (congrArg State.RSP (installCodes_frame s out) :)
@[simp] theorem installCodes_script (s : State) (out : List CodeRecord) : (installCodes s out).script = s.script :=
  (congrArg State.script (installCodes_frame s out) :)
@[simp] theorem installCodes_pc (s : State) (out : List CodeRecord) : (installCodes s out).pc = s.pc :=
  (congrArg State.pc (installCodes_frame s out) :)
@[simp] theorem installCodes_ft (s : State) (out : List CodeRecord) (y : Sym) : (installCodes s out).ft y = s.ft y :=
  (congrArg (fun u => State.ft u y) (installCodes_frame s out) :)
@[simp] theorem installCodes_node (s : State) (out : List CodeRecord) (j : Idx) : (installCodes s out).node j = s.node j :=
  (congrArg (fun u => State.node u j) (installCodes_frame s out) :)
@[simp] theorem installCodes_K (s : State) (out : List CodeRecord) : (installCodes s out).K = s.K :=
  (congrArg (fun u => State.K u) (installCodes_frame s out) :)
@[simp] theorem installCodes_TOTAL (s : State) (out : List CodeRecord) : (installCodes s out).TOTAL = s.TOTAL :=
  (congrArg (fun u => State.TOTAL u) (installCodes_frame s out) :)

end Sys2Proof.Machine
end

