-- ==== Sys2Proof/Laws/Effect.lean ====
section
/-! SUPPORT. Everything a command can do to the state, said once: a proof about every command takes cases here and does not
unfold a meaning. -/

namespace Sys2Proof.Machine

/-- What a command that answers a next state has written before its response. -/
inductive Effect (s : State) : Instr → State → Prop
  /-- nothing: a read, a refused word, a test that passes -/
  | same (i : Instr) : Effect s i s
  /-- fault entry (60_exceptions.md R222) -/
  | fault (i : Instr) (e : CmdError) : s.PH = .run → Effect s i
      { s with PH := .fault, ERRCODE := errorCode e, ERRCMD := encode i, ERRINFO := errorInfo e }
  | srst : Effect s .srst (softReset s)
  | eclr : Effect s .eclr (clearFault s)
  | fclr : s.PH = .run → Effect s .fclr { s with FT := [] }
  | fset (x : Sym) (count : Count) : s.PH = .run → Effect s (.fset x count) (s.setFt x count)
  | finc (x : Sym) : s.PH = .run → Effect s (.finc x) (s.setFt x (s.ft x + 1))
  | build : s.PH = .run → 1 ≤ s.K → Effect s .build (installTree s (builtNodes s))
  | derive (out : List CodeRecord) : s.PH = .run → s.TV = true → treeRecords s = some out →
      Effect s .derive (installCodes s out)
  | enc (x : Sym) : s.PH = .run → (s.ct x).valid = true →
      Effect s (.enc x) ((s.ct x).code.toList.foldl pkAppend s)
  | eflush_beat : s.PH = .run → 0 < s.PK.cnt.toNat →
      Effect s .eflush { s.emitEO s.PK.buf (s.PK.cnt.setWidth 6) with PK := emptyPacker }
  | eflush_none : s.PH = .run → s.PK.cnt.toNat = 0 → Effect s .eflush { s with PK := emptyPacker }
  | dbits (n : BitVec 8) (imm : BitVec 32) : s.PH = .run → 1 ≤ n.toNat → n.toNat ≤ 32 →
      Effect s (.dbits n imm) (decBits s 0 (bitsOf imm n.toNat)).1
  | drst : s.PH = .run → Effect s .drst { s with ACC := emptyAcc }
  | cwclr : s.PH = .run → Effect s .cwclr { s with CW := emptyStr }
  | cwapp (n : BitVec 8) (imm : BitVec 32) : s.PH = .run → s.CW.len.toNat + n.toNat ≤ 255 →
      Effect s (.cwapp n imm) { s with CW := s.CW.append (bitsOf imm n.toNat) }
  | cclr : s.PH = .run → Effect s .cclr s.clearCt
  | cld (x : Sym) : s.PH = .run → s.CW.len ≠ 0 → Effect s (.cld x) (s.setCt x { valid := true, code := s.CW })
  | crd_valid (x : Sym) : s.PH = .run → (s.ct x).valid = true → Effect s (.crd x) { s with CW := (s.ct x).code }
  | crd_empty (x : Sym) : s.PH = .run → Effect s (.crd x) { s with CW := emptyStr }
  | iclr : s.PH = .run → Effect s .iclr { s with ICT := [] }
  | ild (x : Sym) : s.PH = .run → s.CW.len ≠ 0 → s.ict s.CW = none → s.ICTN ≠ 256 →
      Effect s (.ild x) (s.insertIct s.CW x)

theorem errorCode_le (e : CmdError) : (errorCode e).toNat ≤ 8 ∧ errorCode e ≠ 0 := by
  cases e <;> simp [errorCode]

/-- A command that answers a next state has one of the effects, and then gives one legal response (R93). -/
theorem exec_effect {i : Instr} {s t : State} (h : exec i s = .next t) :
    ∃ u e d, Effect s i u ∧ t = u.answer e d ∧ ((e : BitVec 4).toNat ≤ 8 ∨ e = 15) ∧ (e ≠ 0 → d = 0) := by
  have fin : ∀ {u : State} {e : BitVec 4} {d : BitVec 64}, (e = 0 ∨ e = 15 ∧ d = 0) → Effect s i u →
      t = u.answer e d → ∃ u e d, Effect s i u ∧ t = u.answer e d ∧ ((e : BitVec 4).toNat ≤ 8 ∨ e = 15) ∧
        (e ≠ 0 → d = 0) := by
    intro u e d he hu ht
    refine ⟨u, e, d, hu, ht, ?_, ?_⟩
    · rcases he with rfl | ⟨rfl, -⟩
      · exact .inl (by simp)
      · exact .inr rfl
    · rcases he with rfl | ⟨-, rfl⟩
      · exact fun h => absurd rfl h
      · exact fun _ => rfl
  have flt : ∀ e, s.PH = .run → t = faultEntry (encode i) e s →
      ∃ u e d, Effect s i u ∧ t = u.answer e d ∧ ((e : BitVec 4).toNat ≤ 8 ∨ e = 15) ∧ (e ≠ 0 → d = 0) := by
    intro e hr ht
    exact ⟨_, errorCode e, 0, .fault i e hr, ht, .inl (errorCode_le e).1, fun _ => rfl⟩
  cases hp : s.PH with
  | fault =>
    by_cases hx : executesInFault i = true
    · cases i <;> simp only [executesInFault, Bool.false_eq_true] at hx
      case nop => rw [exec_nop] at h; exact fin (.inl rfl) (.same _) (Host.Outcome.next.inj h).symm
      case srst => rw [exec_srst] at h; exact fin (.inl rfl) .srst (Host.Outcome.next.inj h).symm
      case eclr => rw [exec_eclr] at h; exact fin (.inl rfl) .eclr (Host.Outcome.next.inj h).symm
      case csrr n =>
        cases hc : csr s n with
        | none =>
          have := (csr_eq_none_iff s n).1 hc
          simp at hx
          omega
        | some v => rw [exec_csrr hc] at h; exact fin (.inl rfl) (.same _) (Host.Outcome.next.inj h).symm
    · rw [exec_refused hp (by simpa using hx)] at h
      exact fin (.inr ⟨rfl, rfl⟩) (.same _) (Host.Outcome.next.inj h).symm
  | run =>
    have nx : ∀ {u : State}, Host.Outcome.next u = (Host.Outcome.next t : Result) → t = u :=
      fun h => (Host.Outcome.next.inj h).symm
    cases i
    case nop => rw [exec_nop] at h; exact fin (.inl rfl) (.same _) (nx h)
    case srst => rw [exec_srst] at h; exact fin (.inl rfl) .srst (nx h)
    case eclr => rw [exec_eclr] at h; exact fin (.inl rfl) .eclr (nx h)
    case csrr n =>
      cases hc : csr s n with
      | none => rw [exec_csrr_unassigned hp ((csr_eq_none_iff s n).1 hc)] at h; exact flt _ hp (nx h)
      | some v => rw [exec_csrr hc] at h; exact fin (.inl rfl) (.same _) (nx h)
    case fclr => rw [exec_fclr hp] at h; exact fin (.inl rfl) (.fclr hp) (nx h)
    case fset x count => rw [exec_fset hp] at h; exact fin (.inl rfl) (.fset x count hp) (nx h)
    case finc x =>
      rw [exec_finc hp] at h
      split at h
      · exact flt _ hp (nx h)
      · exact fin (.inl rfl) (.finc x hp) (nx h)
    case frd => rw [exec_frd hp] at h; exact fin (.inl rfl) (.same _) (nx h)
    case build =>
      rw [exec_build hp] at h
      split at h
      · exact flt _ hp (nx h)
      · exact fin (.inl rfl) (.build hp (by omega)) (nx h)
    case nrd n =>
      rw [exec_nrd hp] at h
      split at h
      · exact flt _ hp (nx h)
      · split at h
        · exact flt _ hp (nx h)
        · exact fin (.inl rfl) (.same _) (nx h)
    case derive =>
      by_cases ht : s.TV = false
      · rw [exec_derive_no_tree hp ht] at h; exact flt _ hp (nx h)
      · have ht : s.TV = true := by simpa using ht
        cases ho : treeRecords s with
        | none => rw [exec_derive_undefined hp ht ho] at h; cases h
        | some out => rw [exec_derive hp ht ho] at h; exact fin (.inl rfl) (.derive out hp ht ho) (nx h)
    case enc x =>
      rw [exec_enc hp] at h
      split at h
      · exact flt _ hp (nx h)
      · exact fin (.inl rfl) (.enc x hp (by simp_all)) (nx h)
    case eflush =>
      rw [exec_eflush hp] at h
      split at h
      · exact fin (.inl rfl) (.eflush_beat hp (by assumption)) (nx h)
      · exact fin (.inl rfl) (.eflush_none hp (by omega)) (nx h)
    case dbits n imm =>
      rw [exec_dbits hp] at h
      split at h
      · exact flt _ hp (nx h)
      · rename_i hn
        have hn := (legalBitCount_iff n).1 (by simpa using hn)
        exact fin (.inl rfl) (.dbits n imm hp hn.1 hn.2) (nx h)
    case dend =>
      rw [exec_dend hp] at h
      split at h
      · exact flt _ hp (nx h)
      · exact fin (.inl rfl) (.same _) (nx h)
    case drst => rw [exec_drst hp] at h; exact fin (.inl rfl) (.drst hp) (nx h)
    case cwclr => rw [exec_cwclr hp] at h; exact fin (.inl rfl) (.cwclr hp) (nx h)
    case cwapp n imm =>
      rw [exec_cwapp hp] at h
      split at h
      · exact flt _ hp (nx h)
      · split at h
        · exact flt _ hp (nx h)
        · exact fin (.inl rfl) (.cwapp n imm hp (by simp_all [Config.lmax])) (nx h)
    case cwrd =>
      rw [exec_cwrd hp] at h
      split at h
      · exact flt _ hp (nx h)
      · exact fin (.inl rfl) (.same _) (nx h)
    case cclr => rw [exec_cclr hp] at h; exact fin (.inl rfl) (.cclr hp) (nx h)
    case cld x =>
      rw [exec_cld hp] at h
      split at h
      · exact flt _ hp (nx h)
      · exact fin (.inl rfl) (.cld x hp (by assumption)) (nx h)
    case crd x =>
      rw [exec_crd hp] at h
      split at h
      · exact fin (.inl rfl) (.crd_valid x hp (by assumption)) (nx h)
      · exact fin (.inl rfl) (.crd_empty x hp) (nx h)
    case iclr => rw [exec_iclr hp] at h; exact fin (.inl rfl) (.iclr hp) (nx h)
    case ild x =>
      by_cases hc : s.CW.len = 0
      · rw [exec_ild_empty hp x hc] at h; exact flt _ hp (nx h)
      · cases hy : s.ict s.CW with
        | some y =>
          rw [exec_ild_held hp x y hc hy] at h
          split at h
          · exact fin (.inl rfl) (.same _) (nx h)
          · exact flt _ hp (nx h)
        | none =>
          rw [exec_ild_new hp x hc hy] at h
          split at h
          · exact flt _ hp (nx h)
          · exact fin (.inl rfl) (.ild x hp hc hy (by assumption)) (nx h)
    case ilk =>
      by_cases hm : s.CW.len = 0 ∨ s.ict s.CW = none
      · rw [exec_ilk_miss hp hm] at h; exact fin (.inl rfl) (.same _) (nx h)
      · simp only [not_or] at hm
        cases hx : s.ict s.CW with
        | none => exact absurd hx hm.2
        | some x => rw [exec_ilk_hit hp x hm.1 hx] at h; exact fin (.inl rfl) (.same _) (nx h)

end Sys2Proof.Machine
end

