-- ==== Sys2Proof/Laws/Encoding.lean ====
section
/-! SUPPORT. The fields of a command word and the word of four fields are inverse to each other. -/

namespace Sys2Proof

@[simp] theorem opField_packWord (op a : BitVec 8) (b : BitVec 16) (imm : BitVec 32) :
    opField (packWord op a b imm) = op := by
  apply BitVec.eq_of_getLsbD_eq
  intro i hi
  simp only [opField, packWord, BitVec.getLsbD_extractLsb', BitVec.getLsbD_append, hi, decide_true, Bool.true_and]
  rw [if_neg (by omega), if_neg (by omega), if_neg (by omega)]
  congr 1
  omega

@[simp] theorem aField_packWord (op a : BitVec 8) (b : BitVec 16) (imm : BitVec 32) :
    aField (packWord op a b imm) = a := by
  apply BitVec.eq_of_getLsbD_eq
  intro i hi
  simp only [aField, packWord, BitVec.getLsbD_extractLsb', BitVec.getLsbD_append, hi, decide_true, Bool.true_and]
  rw [if_neg (by omega), if_neg (by omega), if_pos (by omega)]
  congr 1
  omega

@[simp] theorem bField_packWord (op a : BitVec 8) (b : BitVec 16) (imm : BitVec 32) :
    bField (packWord op a b imm) = b := by
  apply BitVec.eq_of_getLsbD_eq
  intro i hi
  simp only [bField, packWord, BitVec.getLsbD_extractLsb', BitVec.getLsbD_append, hi, decide_true, Bool.true_and]
  rw [if_neg (by omega), if_pos (by omega)]
  congr 1
  omega

@[simp] theorem immField_packWord (op a : BitVec 8) (b : BitVec 16) (imm : BitVec 32) :
    immField (packWord op a b imm) = imm := by
  apply BitVec.eq_of_getLsbD_eq
  intro i hi
  simp only [immField, packWord, BitVec.getLsbD_extractLsb', BitVec.getLsbD_append, hi, decide_true, Bool.true_and]
  rw [if_pos (by omega)]
  congr 1
  omega

/-- Every word is the word of its four fields. -/
theorem packWord_fields (w : Cmd) : packWord (opField w) (aField w) (bField w) (immField w) = w := by
  apply BitVec.eq_of_getLsbD_eq
  intro i hi
  simp only [packWord, opField, aField, bField, immField, BitVec.getLsbD_append, BitVec.getLsbD_extractLsb']
  by_cases h1 : i < 32
  · simp [h1]
  · by_cases h2 : i - 32 < 16
    · simp [h1, h2, show 32 + (i - 32) = i by omega]
    · by_cases h3 : i - 32 - 16 < 8
      · simp [h1, h2, h3, show 48 + (i - 32 - 16) = i by omega]
      · have h4 : i - 32 - 16 - 8 < 8 := by omega
        simp [h1, h2, h3, h4, show 56 + (i - 32 - 16 - 8) = i by omega]

/-- Two words with the same fields are the same word. -/
theorem word_ext {v w : Cmd} (ho : opField v = opField w) (ha : aField v = aField w) (hb : bField v = bField w)
    (hi : immField v = immField w) : v = w := by
  rw [← packWord_fields v, ← packWord_fields w, ho, ha, hb, hi]

theorem word_ext_iff {v w : Cmd} : v = w ↔ opField v = opField w ∧ aField v = aField w ∧ bField v = bField w ∧
    immField v = immField w :=
  ⟨fun h => by subst h; simp, fun ⟨ho, ha, hb, hi⟩ => word_ext ho ha hb hi⟩

theorem opField_and (v w : Cmd) : opField (v &&& w) = opField v &&& opField w := by
  simp [opField, BitVec.extractLsb'_and]

theorem aField_and (v w : Cmd) : aField (v &&& w) = aField v &&& aField w := by
  simp [aField, BitVec.extractLsb'_and]

theorem bField_and (v w : Cmd) : bField (v &&& w) = bField v &&& bField w := by
  simp [bField, BitVec.extractLsb'_and]

theorem immField_and (v w : Cmd) : immField (v &&& w) = immField v &&& immField w := by
  simp [immField, BitVec.extractLsb'_and]

/-- `cmd & mask_F = v << 56` exactly when op is v and every reserved field is 0 (30_encoding.md R91). -/
theorem and_mask_eq_iff (w : Cmd) (f : Format) (op : BitVec 8) :
    w &&& f.mask = packWord op 0 0 0 ↔ opField w = op ∧ f.reservedZero w = true := by
  rw [word_ext_iff, opField_and, aField_and, bField_and, immField_and]
  have ones8 : ∀ v : BitVec 8, v &&& 255#8 = v := fun v => BitVec.and_allOnes
  have ones16 : ∀ v : BitVec 16, v &&& 65535#16 = v := fun v => BitVec.and_allOnes
  have ones32 : ∀ v : BitVec 32, v &&& 4294967295#32 = v := fun v => BitVec.and_allOnes
  have zo : opField f.mask = 255#8 := by cases f <;> rfl
  rw [zo, ones8]
  cases f
  · rw [show aField Format.Z.mask = 255#8 from rfl, show bField Format.Z.mask = 65535#16 from rfl,
      show immField Format.Z.mask = 4294967295#32 from rfl, ones8, ones16, ones32]
    simp [Format.reservedZero, and_assoc]
  · rw [show aField Format.A.mask = 0#8 from rfl, show bField Format.A.mask = 65535#16 from rfl,
      show immField Format.A.mask = 4294967295#32 from rfl, ones16, ones32]
    simp [Format.reservedZero]
  · rw [show aField Format.B.mask = 255#8 from rfl, show bField Format.B.mask = 0#16 from rfl,
      show immField Format.B.mask = 4294967295#32 from rfl, ones8, ones32]
    simp [Format.reservedZero]
  · rw [show aField Format.AI.mask = 0#8 from rfl, show bField Format.AI.mask = 65535#16 from rfl,
      show immField Format.AI.mask = 0#32 from rfl, ones16]
    simp [Format.reservedZero]

/-- What a row of the opcode map makes of the fields: a command with that opcode and format, whose operands are the
fields its format uses. -/
theorem opcodeRow_sound {op : BitVec 8} {f : Format} {make : BitVec 8 → BitVec 16 → BitVec 32 → Instr}
    (h : opcodeRow op = some (f, make)) (a : BitVec 8) (b : BitVec 16) (imm : BitVec 32) :
    (make a b imm).opcode = op ∧ (make a b imm).format = f ∧
    ((f = .Z ∧ (make a b imm).fields = (0, 0, 0)) ∨ (f = .A ∧ (make a b imm).fields = (a, 0, 0)) ∨
     (f = .B ∧ (make a b imm).fields = (0, b, 0)) ∨ (f = .AI ∧ (make a b imm).fields = (a, 0, imm))) := by
  unfold opcodeRow at h
  split at h <;> first
    | (simp only [Option.some.injEq, Prod.mk.injEq] at h
       obtain ⟨rfl, rfl⟩ := h
       refine ⟨?_, rfl, by simp [Instr.fields]⟩
       apply BitVec.eq_of_toNat_eq
       simp_all [Instr.opcode])
    | cases h

/-- A word with its reserved fields 0 is the encoding of the command its opcode's row makes of it. -/
theorem encode_row {w : Cmd} {f : Format} {make : BitVec 8 → BitVec 16 → BitVec 32 → Instr}
    (hr : opcodeRow (opField w) = some (f, make)) (hz : f.reservedZero w = true) :
    encode (make (aField w) (bField w) (immField w)) = w := by
  obtain ⟨ho, -, hf⟩ := opcodeRow_sound hr (aField w) (bField w) (immField w)
  conv => rhs; rw [← packWord_fields w]
  rw [encode, ho]
  rcases hf with ⟨rfl, hf⟩ | ⟨rfl, hf⟩ | ⟨rfl, hf⟩ | ⟨rfl, hf⟩ <;>
    rw [hf] <;>
    simp [Format.reservedZero] at hz <;> simp [hz]

end Sys2Proof
end

