-- ==== Sys2Proof/Laws/Memory.lean ====
section
/-! SUPPORT. The tables keep their canonical form (log 12): every operation that writes a table keeps Memory.wf, and the
state after reset has it. -/

namespace Sys2Proof.Machine

theorem toNat_injective {w : Nat} (a b : BitVec w) (h : a.toNat = b.toNat) : a = b := BitVec.eq_of_toNat_eq h

theorem wf_reset : Memory.wf State.reset :=
  ⟨Table.canonical_nil _ _, Table.canonical_nil _ _, Table.canonical_nil _ _, List.Pairwise.nil⟩

theorem canonical_clearCt (t : Table Sym CodeEntry) : Table.Canonical BitVec.toNat unwrittenEntry
    (Table.mapAll BitVec.toNat unwrittenEntry (fun e => { e with valid := false }) t) :=
  Table.canonical_mapAll toNat_injective _ _ _

/-- Memory.wf is about the four tables alone. -/
theorem wf_congr {s t : State} (h : Memory.wf s) (h1 : t.FT = s.FT) (h2 : t.NODE = s.NODE) (h3 : t.CT = s.CT)
    (h4 : t.ICT = s.ICT) : Memory.wf t := by
  simpa only [Memory.wf, h1, h2, h3, h4] using h

theorem wf_setFt {s : State} (h : Memory.wf s) (x : Sym) (v : Count) : Memory.wf (s.setFt x v) :=
  ⟨Table.canonical_set toNat_injective h.1 x v, h.2⟩

theorem wf_clearFt {s : State} (h : Memory.wf s) : Memory.wf { s with FT := [] } :=
  ⟨Table.canonical_nil _ _, h.2⟩

theorem wf_setNode {s : State} (h : Memory.wf s) (i : Idx) (n : Node) : Memory.wf (s.setNode i n) :=
  ⟨h.1, Table.canonical_set toNat_injective h.2.1 i n, h.2.2⟩

theorem wf_setCt {s : State} (h : Memory.wf s) (x : Sym) (e : CodeEntry) : Memory.wf (s.setCt x e) :=
  ⟨h.1, h.2.1, Table.canonical_set toNat_injective h.2.2.1 x e, h.2.2.2⟩

theorem wf_clearCt {s : State} (h : Memory.wf s) : Memory.wf s.clearCt :=
  ⟨h.1, h.2.1, canonical_clearCt s.CT, h.2.2.2⟩

theorem wf_insertIct {s : State} (h : Memory.wf s) (c : BitStr) (x : Sym) : Memory.wf (s.insertIct c x) :=
  ⟨h.1, h.2.1, h.2.2.1, Table.rising_put BitStr.key_injective h.2.2.2 c x⟩

theorem wf_clearIct {s : State} (h : Memory.wf s) : Memory.wf { s with ICT := [] } :=
  ⟨h.1, h.2.1, h.2.2.1, by simp [Table.Rising]⟩

theorem wf_writeNodes {s : State} (h : Memory.wf s) (i : Nat) (nodes : List Node) :
    Memory.wf (writeNodes s i nodes) := by
  induction nodes generalizing s i with
  | nil => exact h
  | cons x xs ih => exact ih (wf_setNode h _ x) _

theorem wf_installTree {s : State} (h : Memory.wf s) (nodes : List Node) : Memory.wf (installTree s nodes) :=
  wf_congr (wf_writeNodes h 0 nodes) rfl rfl rfl rfl

theorem wf_installCodes {s : State} (h : Memory.wf s) (out : List CodeRecord) : Memory.wf (installCodes s out) := by
  have hfold : ∀ (l : List CodeRecord) (t : State), Memory.wf t → Memory.wf (l.foldl recordCode t) := by
    intro l
    induction l with
    | nil => exact fun t ht => ht
    | cons r l ih => exact fun t ht => ih _ (wf_insertIct (wf_setCt ht _ _) _ _)
  exact hfold out _ (wf_clearIct (wf_clearCt h))

theorem wf_pkAppends {s : State} (h : Memory.wf s) (l : List Bool) : Memory.wf (l.foldl pkAppend s) :=
  wf_congr h (by simp) (by simp) (by simp) (by simp)

theorem wf_decBits {s : State} (h : Memory.wf s) (m : Nat) (l : List Bool) : Memory.wf (decBits s m l).1 :=
  wf_congr h (by simp) (by simp) (by simp) (by simp)

theorem wf_softReset {s : State} (h : Memory.wf s) : Memory.wf (softReset s) :=
  ⟨Table.canonical_nil _ _, h.2.1, canonical_clearCt s.CT, List.Pairwise.nil⟩

theorem wf_hardReset (s : State) : Memory.wf (hardReset s) := wf_congr wf_reset rfl rfl rfl rfl

end Sys2Proof.Machine
end

