-- ==== Sys2Proof/Laws/PerInstr.lean ====
section
/-! SUPPORT. A law of every command as syntax: its encoding has its opcode, has 0 in every field its format reserves, and
the opcode map gives it back from its own fields (30_encoding.md R91, R96). One lemma a constructor. -/

namespace Sys2Proof.Laws.EncodesInItsFormat

/-- The word of a command has its opcode and its format, and the row of that opcode makes the command again. -/
def Statement (i : Instr) : Prop :=
  opField (encode i) = i.opcode ∧ i.format.reservedZero (encode i) = true ∧
  ∃ make, opcodeRow i.opcode = some (i.format, make) ∧
    make (aField (encode i)) (bField (encode i)) (immField (encode i)) = i

theorem nop : Statement .nop :=
  ⟨by simp [encode], by simp [encode, Instr.format, Instr.fields, Format.reservedZero], _, rfl, rfl⟩

theorem srst : Statement .srst :=
  ⟨by simp [encode], by simp [encode, Instr.format, Instr.fields, Format.reservedZero], _, rfl, rfl⟩

theorem eclr : Statement .eclr :=
  ⟨by simp [encode], by simp [encode, Instr.format, Instr.fields, Format.reservedZero], _, rfl, rfl⟩

theorem csrr (n : BitVec 16) : Statement (.csrr n) :=
  ⟨by simp [encode], by simp [encode, Instr.format, Instr.fields, Format.reservedZero], _, rfl, by simp [encode, Instr.fields]⟩

theorem fclr : Statement .fclr :=
  ⟨by simp [encode], by simp [encode, Instr.format, Instr.fields, Format.reservedZero], _, rfl, rfl⟩

theorem fset (x : Sym) (count : Count) : Statement (.fset x count) :=
  ⟨by simp [encode], by simp [encode, Instr.format, Instr.fields, Format.reservedZero], _, rfl, by simp [encode, Instr.fields]⟩

theorem finc (x : Sym) : Statement (.finc x) :=
  ⟨by simp [encode], by simp [encode, Instr.format, Instr.fields, Format.reservedZero], _, rfl, by simp [encode, Instr.fields]⟩

theorem frd (x : Sym) : Statement (.frd x) :=
  ⟨by simp [encode], by simp [encode, Instr.format, Instr.fields, Format.reservedZero], _, rfl, by simp [encode, Instr.fields]⟩

theorem build : Statement .build :=
  ⟨by simp [encode], by simp [encode, Instr.format, Instr.fields, Format.reservedZero], _, rfl, rfl⟩

theorem nrd (n : BitVec 16) : Statement (.nrd n) :=
  ⟨by simp [encode], by simp [encode, Instr.format, Instr.fields, Format.reservedZero], _, rfl, by simp [encode, Instr.fields]⟩

theorem derive : Statement .derive :=
  ⟨by simp [encode], by simp [encode, Instr.format, Instr.fields, Format.reservedZero], _, rfl, rfl⟩

theorem enc (x : Sym) : Statement (.enc x) :=
  ⟨by simp [encode], by simp [encode, Instr.format, Instr.fields, Format.reservedZero], _, rfl, by simp [encode, Instr.fields]⟩

theorem eflush : Statement .eflush :=
  ⟨by simp [encode], by simp [encode, Instr.format, Instr.fields, Format.reservedZero], _, rfl, rfl⟩

theorem dbits (n : BitVec 8) (bits : BitVec 32) : Statement (.dbits n bits) :=
  ⟨by simp [encode], by simp [encode, Instr.format, Instr.fields, Format.reservedZero], _, rfl, by simp [encode, Instr.fields]⟩

theorem dend : Statement .dend :=
  ⟨by simp [encode], by simp [encode, Instr.format, Instr.fields, Format.reservedZero], _, rfl, rfl⟩

theorem drst : Statement .drst :=
  ⟨by simp [encode], by simp [encode, Instr.format, Instr.fields, Format.reservedZero], _, rfl, rfl⟩

theorem cwclr : Statement .cwclr :=
  ⟨by simp [encode], by simp [encode, Instr.format, Instr.fields, Format.reservedZero], _, rfl, rfl⟩

theorem cwapp (n : BitVec 8) (bits : BitVec 32) : Statement (.cwapp n bits) :=
  ⟨by simp [encode], by simp [encode, Instr.format, Instr.fields, Format.reservedZero], _, rfl, by simp [encode, Instr.fields]⟩

theorem cwrd (j : BitVec 16) : Statement (.cwrd j) :=
  ⟨by simp [encode], by simp [encode, Instr.format, Instr.fields, Format.reservedZero], _, rfl, by simp [encode, Instr.fields]⟩

theorem cclr : Statement .cclr :=
  ⟨by simp [encode], by simp [encode, Instr.format, Instr.fields, Format.reservedZero], _, rfl, rfl⟩

theorem cld (x : Sym) : Statement (.cld x) :=
  ⟨by simp [encode], by simp [encode, Instr.format, Instr.fields, Format.reservedZero], _, rfl, by simp [encode, Instr.fields]⟩

theorem crd (x : Sym) : Statement (.crd x) :=
  ⟨by simp [encode], by simp [encode, Instr.format, Instr.fields, Format.reservedZero], _, rfl, by simp [encode, Instr.fields]⟩

theorem iclr : Statement .iclr :=
  ⟨by simp [encode], by simp [encode, Instr.format, Instr.fields, Format.reservedZero], _, rfl, rfl⟩

theorem ild (x : Sym) : Statement (.ild x) :=
  ⟨by simp [encode], by simp [encode, Instr.format, Instr.fields, Format.reservedZero], _, rfl, by simp [encode, Instr.fields]⟩

theorem ilk : Statement .ilk :=
  ⟨by simp [encode], by simp [encode, Instr.format, Instr.fields, Format.reservedZero], _, rfl, rfl⟩

end Sys2Proof.Laws.EncodesInItsFormat
end

