-- ==== Sys2Proof/Laws/Sequences.lean ====
section
/-! SUPPORT. Command sequences: running one after another, and the chunks of a bit-string (30_encoding.md R101). -/

namespace Sys2Proof.Machine

theorem execAll_nil (s : State) : execAll [] s = .next s := rfl

theorem execAll_cons {i : Instr} {s t : State} (h : exec i s = .next t) (is : List Instr) :
    execAll (i :: is) s = execAll is t := by simp [execAll, h]

theorem execAll_append {a : List Instr} {s t : State} (h : execAll a s = .next t) (b : List Instr) :
    execAll (a ++ b) s = execAll b t := by
  induction a generalizing s with
  | nil => cases h; rfl
  | cons i is ih =>
    simp only [List.cons_append, execAll] at *
    split at h
    · exact ih h
    · cases h
    · cases h

@[simp] theorem chunks_nil : chunks [] = [] := rfl

/-- The first chunk is the first 32 bits, the others are the chunks of the rest. -/
theorem chunks_of_ne_nil {c : List Bool} (h : c ≠ []) : chunks c = c.take 32 :: chunks (c.drop 32) := by
  have hl : 0 < c.length := List.length_pos_iff.2 h
  have hn : (c.length + 31) / 32 = ((c.drop 32).length + 31) / 32 + 1 := by
    rw [List.length_drop]
    omega
  rw [chunks, hn, List.range_succ_eq_map]
  simp only [chunks, List.map_cons, List.map_map, Nat.mul_zero, List.drop_zero]
  congr 1
  apply List.map_congr_left
  intro j _
  simp only [Function.comp, List.drop_drop]
  congr 2
  omega

/-- The operands of one chunk's command say the chunk again (R70, R72, R101). -/
theorem bitsOf_chunk {g : List Bool} (h : g.length ≤ 32) :
    bitsOf (BitVec.ofNat 32 (natOfBits g)) (BitVec.ofNat 8 g.length).toNat = g := by
  have : (BitVec.ofNat 8 g.length).toNat = g.length := by simp; omega
  rw [this]
  exact bitsOf_ofNat_natOfBits 32 g h

theorem perChunk_nil (make : BitVec 8 → BitVec 32 → Instr) : perChunk make [] = [] := rfl

theorem perChunk_of_ne_nil (make : BitVec 8 → BitVec 32 → Instr) {c : List Bool} (h : c ≠ []) :
    perChunk make c = make (BitVec.ofNat 8 (c.take 32).length) (BitVec.ofNat 32 (natOfBits (c.take 32))) ::
      perChunk make (c.drop 32) := by
  rw [perChunk, chunks_of_ne_nil h, List.map_cons, perChunk]

end Sys2Proof.Machine
end

