-- ==== Sys2Proof/Laws/Step.lean ====
section
/-! SUPPORT. Everything a step that answers a next state can do (00_scope.md R13). -/

namespace Sys2Proof.Machine

/-- What becomes of an illegal word (30_encoding.md R98; 60_exceptions.md R224). -/
theorem illegalWord_cases (w : Cmd) (cause : IllegalCause) (s : State) :
    (s.PH = .fault ∧ illegalWord w cause s = s.answer 15 0) ∨
    (s.PH = .run ∧ illegalWord w cause s = faultEntry w (.illegalCommand cause) s) := by
  cases h : s.PH with
  | run => exact .inr ⟨rfl, by simp [illegalWord, whenRun_run h]⟩
  | fault => exact .inl ⟨rfl, by simp [illegalWord, whenRun_fault h]⟩

/-- Nothing presented; a reset; an illegal word; a command with one of its effects and one legal response. -/
theorem step_cases {s t : State} (h : step s = .next t) :
    (nextAction s = none ∧ t = s) ∨
    (nextAction s = some .reset ∧ t = hardReset (advance s)) ∨
    (∃ w cause, nextAction s = some (.command w) ∧ decode w = .error cause ∧ t = illegalWord w cause (advance s)) ∨
    ∃ w i u e d, nextAction s = some (.command w) ∧ decode w = .ok i ∧ Effect (advance s) i u ∧ t = u.answer e d ∧
      ((e : BitVec 4).toNat ≤ 8 ∨ e = 15) ∧ (e ≠ 0 → d = 0) := by
  unfold step at h
  split at h
  · rename_i hn
    cases h
    exact .inl ⟨hn, rfl⟩
  · rename_i a ha
    cases a with
    | reset =>
      cases h
      exact .inr (.inl ⟨ha, rfl⟩)
    | command w =>
      simp only [act, acceptWord] at h
      split at h
      · rename_i i hi
        obtain ⟨u, e, d, h1⟩ := exec_effect h
        exact .inr (.inr (.inr ⟨w, i, u, e, d, ha, hi, h1⟩))
      · rename_i c hc
        cases h
        exact .inr (.inr (.inl ⟨w, c, ha, hc, rfl⟩))

end Sys2Proof.Machine
end

