-- ==== Sys2Proof/Tests/Slice0.lean ====
section
/-! SUPPORT. Tests. Expected values are those of spec/95_test_vectors.md (the section or vector is named), or worked out
from the rule a test names. After them, for every obligation with hypotheses, a state and operands that meet them. -/

namespace Sys2Proof.Tests

open Machine

/-! ## Well-formedness: each check refuses an ill-formed command (R92) -/

theorem test_wellFormed_dbits_n_zero : ¬ WellFormed (.dbits 0 1) := by decide

theorem test_wellFormed_dbits_n_33 : ¬ WellFormed (.dbits 33 1) := by decide

theorem test_wellFormed_cwapp_n_zero : ¬ WellFormed (.cwapp 0 0) := by decide

theorem test_wellFormed_cwapp_n_33 : ¬ WellFormed (.cwapp 33 0) := by decide

theorem test_wellFormed_cwrd_j_8 : ¬ WellFormed (.cwrd 8) := by decide

theorem test_wellFormed_csrr_n_8 : ¬ WellFormed (.csrr 8) := by decide

theorem test_wellFormed_bounds : WellFormed (.dbits 1 0) ∧ WellFormed (.dbits 32 0) ∧ WellFormed (.cwapp 1 0) ∧
    WellFormed (.cwapp 32 0) ∧ WellFormed (.cwrd 7) ∧ WellFormed (.csrr 7) ∧ WellFormed (.nrd 0xFFFF) := by decide

/-! ## Decoding: the words of 95_test_vectors.md 2.1 -/

theorem test_decode_nop : decode 0x0000000000000000#64 = .ok .nop := rfl

theorem test_decode_srst : decode 0x0100000000000000#64 = .ok .srst := rfl

theorem test_decode_eclr : decode 0x0200000000000000#64 = .ok .eclr := rfl

theorem test_decode_csrr_id : decode 0x0300000000000000#64 = .ok (.csrr 0) := rfl

theorem test_decode_csrr_reginfo : decode 0x0300000700000000#64 = .ok (.csrr 7) := rfl

theorem test_decode_fclr : decode 0x1000000000000000#64 = .ok .fclr := rfl

theorem test_decode_fset : decode 0x11610000FFFFFFFF#64 = .ok (.fset 0x61 0xFFFFFFFF) := rfl

theorem test_decode_finc : decode 0x1272000000000000#64 = .ok (.finc 0x72) := rfl

theorem test_decode_frd : decode 0x1362000000000000#64 = .ok (.frd 0x62) := rfl

theorem test_decode_build : decode 0x2000000000000000#64 = .ok .build := rfl

theorem test_decode_nrd : decode 0x210001FE00000000#64 = .ok (.nrd 510) := rfl

theorem test_decode_derive : decode 0x3000000000000000#64 = .ok .derive := rfl

theorem test_decode_enc : decode 0x4063000000000000#64 = .ok (.enc 0x63) := rfl

theorem test_decode_eflush : decode 0x4100000000000000#64 = .ok .eflush := rfl

theorem test_decode_dbits : decode 0x50170000003B5176#64 = .ok (.dbits 23 0x3B5176) := rfl

theorem test_decode_dbits_32 : decode 0x50200000FFFFFFFF#64 = .ok (.dbits 32 0xFFFFFFFF) := rfl

theorem test_decode_dend : decode 0x5100000000000000#64 = .ok .dend := rfl

theorem test_decode_drst : decode 0x5200000000000000#64 = .ok .drst := rfl

theorem test_decode_cwclr : decode 0x6000000000000000#64 = .ok .cwclr := rfl

theorem test_decode_cwapp : decode 0x6103000000000003#64 = .ok (.cwapp 3 3) := rfl

theorem test_decode_cwrd : decode 0x6200000700000000#64 = .ok (.cwrd 7) := rfl

theorem test_decode_cclr : decode 0x6800000000000000#64 = .ok .cclr := rfl

theorem test_decode_cld : decode 0x6978000000000000#64 = .ok (.cld 0x78) := rfl

theorem test_decode_crd : decode 0x6A61000000000000#64 = .ok (.crd 0x61) := rfl

theorem test_decode_iclr : decode 0x7000000000000000#64 = .ok .iclr := rfl

theorem test_decode_ild : decode 0x7162000000000000#64 = .ok (.ild 0x62) := rfl

theorem test_decode_ilk : decode 0x7200000000000000#64 = .ok .ilk := rfl

theorem test_decode_illegal_op_04 : decode 0x0400000000000000#64 = .error .unassignedOpcode := rfl

theorem test_decode_illegal_op_FF : decode 0xFF00000000000000#64 = .error .unassignedOpcode := rfl

theorem test_decode_illegal_nop_imm : decode 0x0000000000000001#64 = .error .reservedNotZero := rfl

theorem test_decode_illegal_build_b : decode 0x2000000100000000#64 = .error .reservedNotZero := rfl

theorem test_decode_illegal_finc_imm : decode 0x1261000000000001#64 = .error .reservedNotZero := rfl

theorem test_decode_illegal_fset_b : decode 0x1161000100000002#64 = .error .reservedNotZero := rfl

theorem test_decode_illegal_csrr_a : decode 0x0301000100000000#64 = .error .reservedNotZero := rfl

theorem test_decode_illegal_csrr_8 : decode 0x0300000800000000#64 = .error .operandOutOfRange := rfl

theorem test_decode_illegal_dbits_0 : decode 0x5000000000000001#64 = .error .operandOutOfRange := rfl

theorem test_decode_illegal_dbits_33 : decode 0x5021000000000001#64 = .error .operandOutOfRange := rfl

theorem test_decode_illegal_cwapp_0 : decode 0x6100000000000000#64 = .error .operandOutOfRange := rfl

theorem test_decode_illegal_cwrd_8 : decode 0x6200000800000000#64 = .error .operandOutOfRange := rfl

theorem test_decode_illegal_nrd_a : decode 0x2101000000000000#64 = .error .reservedNotZero := rfl

theorem test_encode_fset : encode (.fset 0x61 2) = 0x1161000000000002#64 := by decide

theorem test_decodeTableWord_ild : decodeTableWord 64 0x7172000000000000 = some (.ild 0x72) := by decide

/-! ## Assembler notation (R100, R101) -/

theorem test_assemble_fset :
    assembleLine ['F', 'S', 'E', 'T', ' ', '\'', 'a', '\'', ',', ' ', '2'] = some [.fset 0x61 2] := by decide

theorem test_assemble_dbits_binary_comment :
    assembleLine ['D', 'B', 'I', 'T', 'S', ' ', '3', ',', ' ', '0', 'b', '1', '0', '0', ' ', ';', ' ', 'x'] =
      some [.dbits 3 4] := by decide

theorem test_assemble_csrr_name :
    assembleLine ['C', 'S', 'R', 'R', ' ', 'S', 'T', 'A', 'T', 'U', 'S'] = some [.csrr 1] := by decide

theorem test_assemble_cwset :
    assembleLine ['C', 'W', 'S', 'E', 'T', ' ', '"', '1', '1', '0', '"'] = some [.cwclr, .cwapp 3 3] := by decide

theorem test_expand_dstr_two_chunks : (Pseudo.dstr (List.replicate 33 true)).expand =
    [.dbits 32 0xFFFFFFFF, .dbits 1 1] := by decide

/-! ## One step of each command -/

/-- The response a command gives. -/
def response (i : Instr) (s : State) : Option Response := (nextState? (exec i s)).bind fun t => t.RSP.getLast?

/-- A part of the state a command leaves. -/
def after {α : Type} (f : State → α) (i : Instr) (s : State) : Option α := (nextState? (exec i s)).map f

/-- FT of T2, "aab". -/
def twoCounts : State := { State.reset with FT := [(0x61, 2), (0x62, 1)] }

/-- The tree of T2. -/
def twoLeaves : State := { twoCounts with
  NODE := [(0, .leaf 2 0x61), (1, .leaf 1 0x62), (2, .internal 3 0 1)], NN := 3, ROOT := 2, TV := true }

/-- The code tables of T2: a is "0", b is "1". -/
def twoCodes : State := { twoLeaves with
  CT := [(0x61, { valid := true, code := { len := 1, bits := 0 } }),
    (0x62, { valid := true, code := { len := 1, bits := 1 } })],
  ICT := [({ len := 1, bits := 0 }, 0x61), ({ len := 1, bits := 1 }, 0x62)] }

/-- Phase FAULT after `BUILD` from reset (95_test_vectors.md 2.7). -/
def emptyFault : State := { State.reset with PH := .fault, ERRCODE := 1, ERRCMD := 0x2000000000000000 }

/-- CW of "11001" (95_test_vectors.md 2.6). -/
def staged : State := { State.reset with CW := { len := 5, bits := 0x13 } }

theorem test_nop_in_fault : response .nop emptyFault = some { err := 0, data := 0 } := by decide

theorem test_srst_clears : after (fun t => (t.FT, t.TV, t.NN, t.ICT)) .srst twoCodes = some ([], false, 0, []) := by
  decide

theorem test_srst_invalidates_ct : after (fun t => (t.ct 0x61).valid) .srst twoCodes = some false := by decide

theorem test_eclr : after (fun t => (t.PH, t.ERRCODE, t.ERRCMD, t.ERRINFO)) .eclr emptyFault =
    some (.run, 0, 0, 0) := by decide

theorem test_csrr_status_in_fault : response (.csrr 1) emptyFault = some { err := 0, data := 0x101 } := by decide

set_option maxRecDepth 4000 in
theorem test_csrr_ftinfo : response (.csrr 5) { State.reset with FT := [(0x61, 2), (0x71, 7)] } =
    some { err := 0, data := 0x0000000009000002 } := by decide

theorem test_fclr : after State.FT .fclr twoCounts = some [] := by decide

theorem test_fset_zero_removes : after State.FT (.fset 0x62 0) twoCounts = some [(0x61, 2)] := by decide

theorem test_finc_last_count : response (.finc 0x61) { State.reset with FT := [(0x61, 0xFFFFFFFE)] } =
    some { err := 0, data := 0xFFFFFFFF } := by decide

theorem test_finc_overflow : after (fun t => (t.ERRCODE, t.ERRINFO, t.ERRCMD, t.FT)) (.finc 0x61)
    { State.reset with FT := [(0x61, 0xFFFFFFFF)] } = some (8, 1, 0x1261000000000000, [(0x61, 0xFFFFFFFF)]) := by
  decide

theorem test_frd : response (.frd 0x62) twoCounts = some { err := 0, data := 1 } := by decide

theorem test_build_t2 : after (fun t => (t.NODE, t.NN, t.ROOT, t.TV)) .build twoCounts =
    some ([(0, .leaf 2 0x61), (1, .leaf 1 0x62), (2, .internal 3 0 1)], 3, 2, true) := by decide

/-- T5: a leaf and an internal node of the same frequency; the smaller index is the left child. -/
theorem test_build_t5_tie : after (fun t => (t.node 3, t.node 4)) .build
    { State.reset with FT := [(0x61, 1), (0x62, 1), (0x63, 2)] } =
    some (.internal 2 0 1, .internal 4 2 3) := by decide

theorem test_nrd_internal : response (.nrd 2) twoLeaves = some { err := 0, data := 0x0402000000000003 } := by decide

theorem test_nrd_leaf : response (.nrd 1) twoLeaves = some { err := 0, data := 0x0000620000000001 } := by decide

theorem test_derive_t2 : after (fun t => (t.CT, t.ICT)) .derive twoLeaves = some (twoCodes.CT, twoCodes.ICT) := by decide

/-- T1: a single leaf has the code "0". -/
theorem test_derive_single_leaf : after (fun t => (t.ct 0x61).code.toList) .derive
    { State.reset with NODE := [(0, .leaf 4 0x61)], NN := 1, TV := true } = some [false] := by decide

/-- EV1: the second ENC fills a beat and leaves 8 bits. -/
theorem test_enc_ev1 : after (fun t => (t.EO, t.PK)) (.enc 0x79) { State.reset with
    CT := [(0x79, { valid := true, code := { len := 20, bits := 0xAAAAA } })], PK := { cnt := 20, buf := 0xFFFFF } } =
    some ([{ data := 0xAAAFFFFF, cnt := 32 }], { cnt := 8, buf := 0xAA }) := by decide

/-- EV3. -/
theorem test_enc_unknown : after (fun t => (t.ERRCODE, t.ERRINFO, t.ERRCMD)) (.enc 0x61) State.reset =
    some (2, 0x61, 0x4061000000000000) := by decide

/-- EV1's first EFLUSH. -/
theorem test_eflush : after (fun t => (t.EO, t.PK)) .eflush { State.reset with PK := { cnt := 16, buf := 0xAAAA } } =
    some ([{ data := 0xAAAA, cnt := 16 }], { cnt := 0, buf := 0 }) := by decide

/-- EV4. -/
theorem test_eflush_empty : after State.EO .eflush State.reset = some [] := by decide

/-- DV3: keys "1", "10", "0"; the shorter key matches first. -/
theorem test_dbits_dv3 : after (fun t => (t.DO, t.ACC.str.len)) (.dbits 2 1) { State.reset with
    ICT := [({ len := 1, bits := 0 }, 0x7A), ({ len := 1, bits := 1 }, 0x70), ({ len := 2, bits := 1 }, 0x71)] } =
    some ([0x70, 0x7A], 0) := by decide

/-- DV2: the accumulator with 255 bits overflows and then matches nothing. -/
theorem test_dbits_overflow : after (fun t => (t.DO, t.ACC.str.len, t.ACC.ovf)) (.dbits 2 1) { State.reset with
    ICT := [({ len := 1, bits := 0 }, 0x61)],
    ACC := { str := { len := 255, bits := BitVec.allOnes 255 }, ovf := false } } = some ([], 255, true) := by decide

/-- DV2's DEND. -/
theorem test_dend_overflowed : after (fun t => (t.ERRCODE, t.ERRINFO)) .dend { State.reset with
    ACC := { str := { len := 255, bits := BitVec.allOnes 255 }, ovf := true } } = some (3, 0x1FF) := by decide

/-- DV5. -/
theorem test_dend_empty : response .dend State.reset = some { err := 0, data := 0 } := by decide

theorem test_drst : after State.ACC .drst { State.reset with ACC := { str := { len := 1, bits := 1 }, ovf := false } } =
    some { str := { len := 0, bits := 0 }, ovf := false } := by decide

theorem test_cwclr : after State.CW .cwclr staged = some { len := 0, bits := 0 } := by decide

/-- 2.6: of 0xFFFFFFFE only imm[1:0] is used. -/
theorem test_cwapp : after State.CW (.cwapp 2 0xFFFFFFFE) { State.reset with CW := { len := 3, bits := 3 } } =
    some { len := 5, bits := 0x13 } := by decide

/-- EV2: a 256th bit. -/
theorem test_cwapp_too_long : after (fun t => (t.ERRCODE, t.ERRINFO, t.CW.len)) (.cwapp 1 1)
    { State.reset with CW := { len := 255, bits := 1 } } = some (8, 2, 255) := by decide

theorem test_cwrd : response (.cwrd 0) staged = some { err := 0, data := 0x0000000500000013 } := by decide

/-- EV2: 254 ones and a zero. -/
theorem test_cwrd_last_chunk : response (.cwrd 7) { State.reset with
    CW := { len := 255, bits := BitVec.ofNat 255 (2 ^ 254 - 1) } } = some { err := 0, data := 0x000000FF3FFFFFFF } := by
  decide

theorem test_cclr : after State.CTN .cclr twoCodes = some 0 := by decide

theorem test_cld : after (fun t => t.ct 0x78) (.cld 0x78) staged =
    some { valid := true, code := { len := 5, bits := 0x13 } } := by decide

theorem test_cld_empty : after State.ERRCODE (.cld 0x61) State.reset = some 5 := by decide

theorem test_crd : response (.crd 0x62) twoCodes = some { err := 0, data := 0x101 } := by decide

theorem test_crd_none : after State.CW (.crd 0x71) staged = some { len := 0, bits := 0 } := by decide

theorem test_iclr : after State.ICT .iclr twoCodes = some [] := by decide

theorem test_ild_new : after State.ICT (.ild 0x61) staged = some [({ len := 5, bits := 0x13 }, 0x61)] := by decide

/-- 2.6: "0" is already a's. -/
theorem test_ild_duplicate : after (fun t => (t.ERRCODE, t.ERRINFO)) (.ild 0x62)
    { twoCodes with CW := { len := 1, bits := 0 } } = some (4, 0x6261) := by decide

theorem test_ilk_hit : response .ilk { twoCodes with CW := { len := 1, bits := 0 } } =
    some { err := 0, data := 0x161 } := by decide

theorem test_ilk_empty : response .ilk twoCodes = some { err := 0, data := 0 } := by decide

/-- 2.7: in phase FAULT a refused word answers 15 and keeps the fault. -/
theorem test_refused_in_fault : after (fun t => (t.RSP, t.ERRCODE)) .fclr emptyFault =
    some ([{ err := 15, data := 0 }], 1) := by decide

/-- 2.1: an unassigned opcode. -/
theorem test_step_illegal : (nextState? (step { State.reset with script := [.command 0x0400000000000000] })).map
    (fun t => (t.PH, t.ERRCODE, t.ERRINFO, t.ERRCMD, t.pc)) = some (.fault, 6, 1, 0x0400000000000000, 1) := by decide

theorem test_withFetchWord : (nextState? (step (State.reset.withFetchWord 64 0x0300000000000000))).map (fun t => t.RSP) =
    some [{ err := 0, data := 0x0000000148554646 }] := by decide

/-! ## Witnesses: for every obligation with hypotheses, a state and operands that meet them, each clause at its bounds -/

/-- A state with one word presented. -/
def presenting (w : Cmd) (s : State) : State := { s with script := [.command w], pc := 0 }

theorem test_witness_DecodeOfEncode : WellFormed (.dbits 32 0) ∧ ¬ WellFormed (.dbits 33 0) ∧ WellFormed (.csrr 7) ∧
    ¬ WellFormed (.csrr 8) := by decide

theorem test_witness_EncodeOfDecode : decode 0x0300000700000000#64 = .ok (.csrr 7) := rfl

theorem test_witness_DecodeRejectsInOrder :
    opcodeAssigned 0x0400000000000000#64 = false ∧
    (opcodeAssigned 0x2000000100000000#64 = true ∧ matchesRow 0x2000000100000000#64 = false) ∧
    (opcodeAssigned 0x5021000000000001#64 = true ∧ matchesRow 0x5021000000000001#64 = true ∧
      staticRangeOk 0x5021000000000001#64 = false) ∧
    (opcodeAssigned 0x5020000000000001#64 = true ∧ matchesRow 0x5020000000000001#64 = true ∧
      staticRangeOk 0x5020000000000001#64 = true) := by decide

theorem test_witness_StepRunsDecodedCommand :
    (presenting 0x1361000000000000 twoCounts).script[(presenting 0x1361000000000000 twoCounts).pc]? =
      some (.command 0x1361000000000000#64) ∧ decode 0x1361000000000000#64 = .ok (.frd 0x61) := ⟨rfl, rfl⟩

theorem test_witness_StepFaultsOnIllegalWord :
    (presenting 0xFF00000000000000 emptyFault).script[(presenting 0xFF00000000000000 emptyFault).pc]? =
      some (.command 0xFF00000000000000#64) ∧ decode 0xFF00000000000000#64 = .error .unassignedOpcode ∧
    (presenting 0xFF00000000000000 emptyFault).PH = .fault ∧ (presenting 0xFF00000000000000 State.reset).PH = .run :=
  ⟨rfl, rfl, rfl, rfl⟩

theorem test_witness_StepWaitsAndResets :
    State.reset.script[State.reset.pc]? = none ∧
    ({ twoCodes with script := [.reset] } : State).script[({ twoCodes with script := [.reset] } : State).pc]? =
      some .reset := ⟨rfl, rfl⟩

theorem test_witness_PlacedWordRunsNext : WellFormed .build ∧ WellFormed (.dbits 1 1) := by decide

/-- A built tree meets R28. -/
theorem test_isTree_twoCounts : IsTree (installTree twoCounts (builtNodes twoCounts)) := built_isTree (by decide)

/-- The tree of T2, as BUILD leaves it. -/
abbrev built : State := installTree twoCounts (builtNodes twoCounts)

theorem test_built_run : built.PH = .run ∧ built.TV = true := by decide

theorem test_treeOk_built : TreeOk built := ⟨fun _ => test_isTree_twoCounts, fun h => absurd h (by decide)⟩

theorem test_treeOk_no_tree (s : State) (h : s.TV = false ∧ s.NN = 0 ∧ s.ROOT = 0) : TreeOk s :=
  ⟨fun ht => absurd ht (by simp [h.1]), fun _ => h.2⟩

/-- Each of the three verdicts, on states with and without a tree. -/
theorem test_witness_OrderOfChecksDecidesEveryWord :
    TreeOk built ∧ orderOfChecks 0x3000000000000000#64 built = .completes ∧
    TreeOk State.reset ∧ orderOfChecks 0x3000000000000000#64 State.reset = .error .sequenceError ∧
    TreeOk emptyFault ∧ orderOfChecks 0x3000000000000000#64 emptyFault = .refused :=
  ⟨test_treeOk_built, by decide, test_treeOk_no_tree _ (by decide), by decide, test_treeOk_no_tree _ (by decide),
    by decide⟩

theorem test_witness_FaultsDoNotNest :
    emptyFault.PH = .fault ∧ (∃ t, acceptWord 0x1000000000000000#64 emptyFault = .next t) ∧
    (∃ t, acceptWord 0x0200000000000000#64 emptyFault = .next t) :=
  ⟨rfl, ⟨_, rfl⟩, ⟨_, rfl⟩⟩

theorem test_witness_OnlyAcknowledgementLeavesFault :
    (∃ t, step (presenting 0x0200000000000000 emptyFault) = .next t ∧ t.PH = .run) ∧
    (∃ t, step (presenting 0x0100000000000000 emptyFault) = .next t ∧ t.PH = .run) ∧
    (∃ t, step { emptyFault with script := [.reset] } = .next t ∧ t.PH = .run) :=
  ⟨⟨_, rfl, rfl⟩, ⟨_, rfl, rfl⟩, ⟨_, rfl, rfl⟩⟩

theorem test_witness_EachErrorHasItsCause :
    after (fun t => (t.PH, t.ERRCODE)) .build State.reset = some (.fault, 1) ∧
    after (fun t => (t.PH, t.ERRCODE)) (.enc 0x61) State.reset = some (.fault, 2) ∧
    after (fun t => (t.PH, t.ERRCODE)) .dend
      { State.reset with ACC := { str := { len := 1, bits := 1 }, ovf := false } } = some (.fault, 3) ∧
    after (fun t => (t.PH, t.ERRCODE)) (.ild 0x62) { twoCodes with CW := { len := 1, bits := 0 } } = some (.fault, 4) ∧
    after (fun t => (t.PH, t.ERRCODE)) (.cld 0x61) State.reset = some (.fault, 5) ∧
    after (fun t => (t.PH, t.ERRCODE)) (.ild 0x61) State.reset = some (.fault, 5) ∧
    after (fun t => (t.PH, t.ERRCODE)) .derive State.reset = some (.fault, 7) ∧
    after (fun t => (t.PH, t.ERRCODE)) (.nrd 0) State.reset = some (.fault, 7) := by decide

/-- The same for code 6 (33 bits, chunk 8, register 8, a node at NN) and code 8 (the last count, the 256th bit). -/
theorem test_witness_EachErrorHasItsCause_illegal_capacity :
    after (fun t => (t.PH, t.ERRCODE)) (.dbits 33 0) State.reset = some (.fault, 6) ∧
    after (fun t => (t.PH, t.ERRCODE)) (.cwapp 0 0) State.reset = some (.fault, 6) ∧
    after (fun t => (t.PH, t.ERRCODE)) (.cwrd 8) State.reset = some (.fault, 6) ∧
    after (fun t => (t.PH, t.ERRCODE)) (.csrr 8) State.reset = some (.fault, 6) ∧
    after (fun t => (t.PH, t.ERRCODE)) (.nrd 3) twoLeaves = some (.fault, 6) ∧
    after (fun t => (t.PH, t.ERRCODE)) (.finc 0x61) { State.reset with FT := [(0x61, 0xFFFFFFFF)] } = some (.fault, 8) ∧
    after (fun t => (t.PH, t.ERRCODE)) (.cwapp 1 0) { State.reset with CW := { len := 255, bits := 1 } }
      = some (.fault, 8) := by decide

/-- Bit-strings of twoCodes: every codeword and key, canonical and not empty. -/
theorem test_valid_twoCodes : ∀ x, (twoCodes.ct x).valid = true → x = 0x61 ∨ x = 0x62 := by decide

theorem test_bitsOk_twoCodes : BitsOk twoCodes := by
  refine ⟨by decide, by decide, by decide, by decide, fun x hx => ?_, by decide, by decide⟩
  rcases test_valid_twoCodes x hx with rfl | rfl <;> decide

theorem test_bitsOk_twoCounts : BitsOk twoCounts :=
  ⟨by decide, by decide, by decide, by decide, by decide, by decide, by decide⟩

theorem test_witness_StepKeepsBitsCanonical : BitsOk twoCodes ∧
    (∃ t, step { twoCodes with script := [.command 0x4061000000000000] } = .next t) :=
  ⟨test_bitsOk_twoCodes, _, rfl⟩

theorem test_witness_StepKeepsTree : TreeOk built ∧ ∃ t, step built = .next t := ⟨test_treeOk_built, _, rfl⟩

/-- Every invariant together, on the state BUILD leaves, its tree included. -/
theorem test_inv_built : Inv built where
  memory := wf_installTree (by simp [Memory.wf, twoCounts, State.reset, Table.Canonical, Table.Rising]) _
  faultRegs := ⟨by decide, by decide, by decide⟩
  bits := ⟨by decide, by decide, by decide, by decide, by decide, by decide, by decide⟩
  tree := test_treeOk_built
  ictSize := by decide
  responses := fun _ hr => absurd (show _ ∈ ([] : List Response) from (show built.RSP = [] by decide) ▸ hr) (by simp)
  index := by decide

theorem test_witness_StepKeepsInvariant : Inv built ∧ ∃ t, step built = .next t := ⟨test_inv_built, _, rfl⟩

theorem test_witness_StepNeverStops : Inv built := test_inv_built

/-- Phase RUN, the hypothesis of every statement about one command alone, from reset and with counts. -/
theorem test_witness_run : State.reset.PH = .run ∧ twoCounts.PH = .run ∧ twoCodes.PH = .run := ⟨rfl, rfl, rfl⟩

theorem test_witness_FincCountsOrFaults :
    (({ State.reset with FT := [(0x61, 0xFFFFFFFE)] } : State).ft 0x61).toNat < 2 ^ 32 - 1 ∧
    (({ State.reset with FT := [(0x61, 0xFFFFFFFF)] } : State).ft 0x61).toNat = 2 ^ 32 - 1 := by decide

theorem test_witness_TallyCountsTheInput : State.reset.PH = .run ∧ ([0x61, 0x61, 0x62] : List Sym).length < 2 ^ 32 := by
  decide

theorem test_witness_BuildRejectsEmptyTable : State.reset.PH = .run ∧ ∀ x, State.reset.ft x = 0 := ⟨rfl, fun _ => rfl⟩

theorem test_witness_BuildMakesTree : twoCounts.PH = .run ∧ (∃ x, twoCounts.ft x ≠ 0) ∧
    ∃ t, exec .build twoCounts = .next t := ⟨rfl, ⟨0x61, by decide⟩, _, rfl⟩

/-- The bounds of the clauses of BuildLeavesAreTheCounts and BuildMergesTheTwoLeast: indices 0, K − 1, K and NN − 1. -/
theorem test_witness_built_indices : twoCounts.K = 2 ∧ built.NN = 3 ∧ built.node 0 = .leaf 2 0x61 ∧
    built.node 1 = .leaf 1 0x62 ∧ built.node 2 = .internal 3 0 1 := by decide

theorem test_witness_BuildIsDeterministic : twoCounts.PH = .run ∧ twoCodes.PH = .run ∧ (∃ x, twoCounts.ft x ≠ 0) ∧
    (∀ x, twoCounts.ft x = twoCodes.ft x) ∧ (∃ t, exec .build twoCounts = .next t) ∧
    ∃ t, exec .build twoCodes = .next t :=
  ⟨rfl, rfl, ⟨0x61, by decide⟩, fun _ => rfl, ⟨_, rfl⟩, _, rfl⟩

theorem test_witness_NrdReadsOneNode :
    (State.reset.PH = .run ∧ State.reset.TV = false) ∧
    (twoLeaves.PH = .run ∧ twoLeaves.TV = true ∧ twoLeaves.NN.toNat ≤ (3 : BitVec 16).toNat) ∧
    (2 : BitVec 16).toNat < twoLeaves.NN.toNat ∧
    after State.PH (.nrd 3) twoLeaves = some .fault := by decide

theorem test_witness_derive : built.PH = .run ∧ built.TV = true ∧ IsTree built ∧ ∃ t, exec .derive built = .next t := by
  obtain ⟨out, ho, -⟩ := treeRecords_eq test_isTree_twoCounts
  exact ⟨test_built_run.1, test_built_run.2, test_isTree_twoCounts, _, exec_derive test_built_run.1 test_built_run.2 ho⟩

/-- The two valid codewords DeriveCodesAreTreePaths speaks of, on T2's tree. -/
theorem test_witness_DeriveCodesAreTreePaths :
    after (fun t => ((t.ct 0x61).valid, (t.ct 0x62).code.toList)) .derive twoLeaves = some (true, [true]) := by decide

theorem test_witness_EncAppendsCodeword : twoCodes.PH = .run ∧ (twoCodes.ct 0x61).valid = true := by decide

theorem test_witness_EncRejectsUnknownSymbol : twoCodes.PH = .run ∧ (twoCodes.ct 0x63).valid = false := by decide

theorem test_witness_EflushEmitsTheRest : State.reset.PK.cnt = 0 ∧
    ({ State.reset with PK := { cnt := 31, buf := 0x3FFFFFFF } } : State).PK.cnt ≠ 0 := by decide

theorem test_witness_EncodedStreamIsTheCodewords : twoCodes.PH = .run ∧ twoCodes.PK.cnt = 0 ∧
    ∀ x ∈ ([0x61, 0x61, 0x62] : List Sym), (twoCodes.ct x).valid = true := by decide

theorem test_witness_DbitsCompletes : (1 ≤ (1 : BitVec 8).toNat ∧ (1 : BitVec 8).toNat ≤ 32) ∧
    (1 ≤ (32 : BitVec 8).toNat ∧ (32 : BitVec 8).toNat ≤ 32) ∧ (0 : BitVec 8).toNat = 0 ∧ 32 < (33 : BitVec 8).toNat := by
  decide

/-- With an empty accumulator, and with one of 255 bits that has seen 256. -/
theorem test_witness_DbitsRefinesTheDocument :
    (AccHolds twoCodes.ACC [] ∧ ∃ t, exec (.dbits 32 1) twoCodes = .next t) ∧
    AccHolds { str := BitStr.ofList (List.replicate 255 true), ovf := true } (List.replicate 256 true) :=
  ⟨⟨show twoCodes.ACC = _ by decide, _, rfl⟩, by
    simp [AccHolds, Config.lmax, List.take_replicate, -List.reduceReplicate]⟩

theorem test_witness_DendTestsAccumulator : State.reset.ACC.str.len = 0 ∧
    ({ State.reset with ACC := { str := { len := 1, bits := 1 }, ovf := false } } : State).ACC.str.len ≠ 0 := by decide

theorem test_prefixFree_twoCodes : PrefixFree twoCodes := by
  intro x y hx hy h
  rcases test_valid_twoCodes x hx with rfl | rfl <;> rcases test_valid_twoCodes y hy with rfl | rfl <;> revert h <;> decide

theorem test_ictInverts_twoCodes : IctInverts twoCodes := by
  intro k x
  constructor
  · intro h
    have hm := Table.mem_of_find? h
    simp only [twoCodes, List.mem_cons, Prod.mk.injEq, List.not_mem_nil, or_false] at hm
    rcases hm with ⟨rfl, rfl⟩ | ⟨rfl, rfl⟩ <;> decide
  · rintro ⟨hv, rfl⟩
    rcases test_valid_twoCodes x hv with rfl | rfl <;> decide

theorem test_witness_DecodingInvertsEncoding : twoCodes.PH = .run ∧ BitsOk twoCodes ∧ PrefixFree twoCodes ∧
    IctInverts twoCodes ∧ twoCodes.PK.cnt = 0 ∧ AccHolds twoCodes.ACC [] ∧
    ∀ x ∈ ([0x61, 0x61, 0x62] : List Sym), (twoCodes.ct x).valid = true :=
  ⟨rfl, test_bitsOk_twoCodes, test_prefixFree_twoCodes, test_ictInverts_twoCodes, by decide, by unfold AccHolds; decide, by decide⟩

theorem test_witness_RoundTripFromReset : ([0x61, 0x61, 0x62] : List Sym) ≠ [] ∧
    ∀ x, ([0x61, 0x61, 0x62] : List Sym).count x < 2 ^ 32 :=
  ⟨by decide, fun _ => Nat.lt_of_le_of_lt List.count_le_length (by decide)⟩

/-- CwappAppendsBits: the last n that fits, the first that does not, and both n out of range. -/
theorem test_witness_CwappAppendsBits :
    (({ State.reset with CW := { len := 223, bits := 1 } } : State).CW.len.toNat + (32 : BitVec 8).toNat ≤ 255) ∧
    (255 < ({ State.reset with CW := { len := 224, bits := 1 } } : State).CW.len.toNat + (32 : BitVec 8).toNat) ∧
    (0 : BitVec 8).toNat = 0 ∧ 32 < (33 : BitVec 8).toNat ∧
    ({ State.reset with CW := { len := 224, bits := 1 } } : State).CW.Canonical ∧
    after State.PH (.cwapp 32 0) { State.reset with CW := { len := 224, bits := 1 } } = some .fault := by decide

theorem test_witness_CwrdReadsOneChunk : (7 : BitVec 16).toNat ≤ 7 ∧ 7 < (8 : BitVec 16).toNat := by decide

theorem test_witness_CldLoadsOneEntry : staged.CW.len ≠ 0 ∧ State.reset.CW.len = 0 := by decide

theorem test_witness_CrdReadsOneEntry : (twoCodes.ct 0x61).valid = true ∧ (twoCodes.ct 0x63).valid = false := by decide

/-- 256 keys: the words of 8 bits. -/
def fullIct : Table BitStr Sym := allSyms.map fun x => ({ len := 8, bits := x.setWidth 255 }, x)

theorem test_witness_IldInsertsOneRecord :
    (State.reset.CW.len = 0) ∧
    (({ twoCodes with CW := { len := 1, bits := 0 } } : State).CW.len ≠ 0 ∧
      ({ twoCodes with CW := { len := 1, bits := 0 } } : State).ict { len := 1, bits := 0 } = some 0x61) ∧
    (staged.CW.len ≠ 0 ∧ staged.ict staged.CW = none ∧ staged.ICTN ≠ 256) := by decide

set_option maxRecDepth 4000 in
/-- ILD with 256 keys held, none of them CW. -/
theorem test_witness_IldInsertsOneRecord_full : ({ staged with ICT := fullIct } : State).ICTN = 256 ∧
    ({ staged with ICT := fullIct } : State).ict staged.CW = none := by
  constructor
  · simp [State.ICTN, fullIct]
  · simp [State.ict, fullIct, Table.find?_eq_none_iff, staged]

theorem test_witness_IlkLooksUp : State.reset.CW.len = 0 ∧ (staged.CW.len ≠ 0 ∧ staged.ict staged.CW = none) ∧
    ({ twoCodes with CW := { len := 1, bits := 1 } } : State).ict { len := 1, bits := 1 } = some 0x62 := by decide

/-- TableTransferInvertsCt: no two Symbols share a codeword, and two do (95_test_vectors.md 2.6: CLD makes no check). -/
theorem test_witness_TableTransferInvertsCt : BitsOk twoCodes ∧ allSyms.Perm allSyms ∧
    (∀ x y, (twoCodes.ct x).valid = true → (twoCodes.ct y).valid = true →
      (twoCodes.ct x).code = (twoCodes.ct y).code → x = y) := by
  refine ⟨test_bitsOk_twoCodes, List.Perm.refl _, fun x y hx hy h => ?_⟩
  rcases test_valid_twoCodes x hx with rfl | rfl <;> rcases test_valid_twoCodes y hy with rfl | rfl <;> revert h <;> decide

/-- Two Symbols with the codeword "11001". -/
def sharedCode : State := (staged.setCt 0x78 { valid := true, code := staged.CW }).setCt 0x79
  { valid := true, code := staged.CW }

theorem test_witness_TableTransferInvertsCt_shared : sharedCode.PH = .run ∧ BitsOk sharedCode ∧
    ∃ x y, x ≠ y ∧ (sharedCode.ct x).valid = true ∧ (sharedCode.ct y).valid = true ∧
      (sharedCode.ct x).code = (sharedCode.ct y).code := by
  have hv : ∀ x, (sharedCode.ct x).valid = true → x = 0x78 ∨ x = 0x79 := by decide
  refine ⟨rfl, ⟨by decide, by decide, by decide, by decide, fun x hx => ?_, by decide, by decide⟩, 0x78, 0x79, by decide⟩
  rcases hv x hx with rfl | rfl <;> decide

theorem test_witness_CsrrReadsRegisters : (0 : BitVec 16).toNat ≤ 7 ∧ (7 : BitVec 16).toNat ≤ 7 ∧ twoCodes.ICTN ≤ 256 := by
  decide

theorem test_witness_CsrrRejectsUnassigned : 7 < (8 : BitVec 16).toNat ∧ 7 < (0xFFFF : BitVec 16).toNat ∧
    State.reset.PH = .run ∧ emptyFault.PH = .fault := by decide

/-- Each clause of OnlyItsCommandsWriteEachItem, with a command that changes the item. -/
theorem test_witness_OnlyItsCommandsWriteEachItem :
    after (fun t => t.PH ≠ State.reset.PH ∧ t.ERRCODE ≠ 0 ∧ t.ERRCMD ≠ 0) .build State.reset = some True ∧
    after (fun t => t.ERRINFO ≠ 0) (.enc 0x61) State.reset = some True ∧
    after (fun t => t.PH ≠ emptyFault.PH ∧ t.ERRCODE ≠ emptyFault.ERRCODE) .eclr emptyFault = some True ∧
    after (fun t => t.FT ≠ twoCounts.FT) .fclr twoCounts = some True ∧
    after (fun t => t.NODE ≠ twoCounts.NODE) .build twoCounts = some True ∧
    after (fun t => t.NN ≠ twoCounts.NN ∧ t.ROOT ≠ twoCounts.ROOT ∧ t.TV ≠ twoCounts.TV) .build twoCounts = some True ∧
    after (fun t => t.CT ≠ twoCodes.CT) .cclr twoCodes = some True ∧
    after (fun t => t.ICT ≠ twoCodes.ICT) .iclr twoCodes = some True ∧
    after (fun t => t.CW ≠ staged.CW) .cwclr staged = some True ∧
    after (fun t => t.PK ≠ twoCodes.PK) (.enc 0x62) twoCodes = some True ∧
    after (fun t => t.ACC ≠ State.reset.ACC) (.dbits 1 1) State.reset = some True ∧
    after (fun t => t.EO ≠ []) .eflush { State.reset with PK := { cnt := 1, buf := 1 } } = some True ∧
    after (fun t => t.DO ≠ twoCodes.DO) (.dbits 1 1) twoCodes = some True := by
  refine ⟨?_, ?_, ?_, ?_, ?_, ?_, ?_, ?_, ?_, ?_, ?_, ?_, ?_⟩ <;> exact congrArg some (eq_true (by decide))

theorem test_witness_StreamsOnlyGrow : ∃ t, exec .eflush { State.reset with PK := { cnt := 1, buf := 1 } } = .next t :=
  ⟨_, rfl⟩

/-- twoCounts with something in the entries that nothing reads. -/
def litter : State := { twoCounts with
  NODE := [(7, .internal 9 1 2)], CT := [(0x61, { valid := false, code := { len := 9, bits := 5 } })] }

theorem test_witness_UnspecifiedContentIsUnobservable : SameVisible twoCounts litter ∧ twoCounts ≠ litter ∧
    ∃ t, step twoCounts = .next t := by
  refine ⟨⟨by decide, fun _ => rfl, by decide, fun i hi => ?_, by decide, by decide, rfl, by decide, by decide, by decide⟩,
    by decide, _, rfl⟩
  exact absurd hi (Nat.not_lt_zero _)

/-- An arena that is no tree (TV = 1 and no node), on which DERIVE stops (log 10); no run from reset reaches it. -/
def noNodes : State := { State.reset with
  TV := true, script := [.command 0x3000000000000000] }

theorem test_witness_UnspecifiedContentIsUnobservable_fault : step noNodes = .fault .walkUndefined := rfl

theorem test_witness_CwsetLoadsTheLiteral : State.reset.PH = .run ∧ (List.replicate 255 true).length ≤ 255 ∧
    ([] : List Bool).length ≤ 255 := ⟨rfl, by rw [List.length_replicate], by decide⟩

end Sys2Proof.Tests
end

section
/-! The reset values (10_state.md R50, 46_system.md R201). -/

namespace Sys2Proof.Machine

theorem atReset_reset : AtReset State.reset where
  phase := rfl
  fault := ⟨rfl, rfl, rfl⟩
  counts _ := rfl
  tree := ⟨rfl, rfl, rfl⟩
  codes _ := rfl
  inv := rfl
  cw := rfl
  pk := rfl
  acc := rfl

theorem atReset_hardReset (s : State) : AtReset (hardReset s) where
  phase := hardReset_PH s
  fault := ⟨hardReset_ERRCODE s, hardReset_ERRCMD s, hardReset_ERRINFO s⟩
  counts := hardReset_ft s
  tree := ⟨hardReset_NN s, hardReset_ROOT s, hardReset_TV s⟩
  codes x := congrArg CodeEntry.valid (hardReset_ct s x)
  inv := hardReset_ICT s
  cw := hardReset_CW s
  pk := hardReset_PK s
  acc := hardReset_ACC s

theorem atReset_softReset (s : State) : AtReset (softReset s) where
  phase := softReset_PH s
  fault := ⟨softReset_ERRCODE s, softReset_ERRCMD s, softReset_ERRINFO s⟩
  counts := softReset_ft s
  tree := ⟨softReset_NN s, softReset_ROOT s, softReset_TV s⟩
  codes x := congrArg CodeEntry.valid (softReset_ct s x)
  inv := softReset_ICT s
  cw := softReset_CW s
  pk := softReset_PK s
  acc := softReset_ACC s

/-- A response writes none of the block's items. -/
theorem AtReset.answer {s : State} (h : AtReset s) (err : BitVec 4) (data : BitVec 64) : AtReset (s.answer err data) :=
  { h with }

/-- Settles O13: `rst` ends in `hardReset`, SRST in `softReset` and a response that leaves every item as it is. -/
theorem resetValuesOfEveryItem : Obligations.ResetValuesOfEveryItem := by
  refine ⟨atReset_reset, rfl, rfl, fun s => ?_, fun s => ?_⟩
  · exact ⟨hardReset s, rfl, atReset_hardReset s, hardReset_EO s, hardReset_DO s⟩
  · exact ⟨_, exec_srst s, (atReset_softReset s).answer 0 0, softReset_EO s, softReset_DO s, rfl, rfl, rfl⟩

end Sys2Proof.Machine
end

section
/-! The control and status registers as numbers: where each field stands (10_state.md R43 to R49), and their value after
reset. -/

namespace Sys2Proof.Machine

theorem Phase.bit_toNat (p : Phase) : p.bit.toNat = if p = .fault then 1 else 0 := by cases p <;> rfl

/-- A flag worth k as a product, the form the bits of a concatenation take. -/
theorem ite_eq_mul_toNat (p : Prop) [Decidable p] (k : Nat) : (if p then k else 0) = k * (decide p).toNat := by
  by_cases h : p <;> simp [h]

/-- STATUS (R43): each flag counts at its bit, the error code from bit 8. -/
theorem statusReg_toNat (s : State) : (statusReg s).toNat =
    (if s.PH = .fault then 1 else 0) + 2 * s.TV.toNat + (if 0 < s.CTN then 4 else 0) + (if 0 < s.ICTN then 8 else 0)
      + (if 0 < s.ACC.str.len.toNat then 16 else 0) + 32 * s.ACC.ovf.toNat + (if 0 < s.PK.cnt.toNat then 64 else 0)
      + (if 0 < s.CW.len.toNat then 128 else 0) + 256 * s.ERRCODE.toNat := by
  simp only [statusReg, toNat_append_eq, toNat_ofBool_eq, Phase.bit_toNat, ite_eq_mul_toNat, BitVec.toNat_ofNat]
  omega

/-- TREEINFO (R46). -/
theorem treeInfoReg_toNat (s : State) : (treeInfoReg s).toNat = s.ROOT.toNat + 2 ^ 16 * s.NN.toNat := by
  simp only [treeInfoReg, toNat_append_eq, BitVec.toNat_ofNat]
  omega

/-- FTINFO (R47): K fits its 9 bits and TOTAL its 40. -/
theorem ftInfoReg_toNat (s : State) : (ftInfoReg s).toNat = s.K + 2 ^ 24 * s.TOTAL := by
  have hK := K_le s
  have hTOTAL := TOTAL_le s
  simp only [ftInfoReg, toNat_append_eq, BitVec.toNat_ofNat]
  omega

/-- TABINFO (R48): CTN fits its 9 bits always, ICTN while ICT is within its capacity (R30). -/
theorem tabInfoReg_toNat {s : State} (h : s.ICTN ≤ 256) : (tabInfoReg s).toNat = s.CTN + 2 ^ 16 * s.ICTN := by
  have hCTN := CTN_le s
  simp only [tabInfoReg, toNat_append_eq, BitVec.toNat_ofNat]
  omega

/-- REGINFO (R49). -/
theorem regInfoReg_toNat (s : State) : (regInfoReg s).toNat =
    s.CW.len.toNat + 2 ^ 8 * s.ACC.str.len.toNat + 2 ^ 16 * s.ACC.ovf.toNat + 2 ^ 24 * s.PK.cnt.toNat := by
  simp only [regInfoReg, toNat_append_eq, toNat_ofBool_eq, BitVec.toNat_ofNat]
  omega

theorem TOTAL_eq_zero {s : State} (h : ∀ x, s.ft x = 0) : s.TOTAL = 0 := by
  refine List.sum_eq_zero fun c hc => ?_
  obtain ⟨x, -, rfl⟩ := List.mem_map.1 hc
  rw [h x]
  rfl

theorem CTN_eq_zero {s : State} (h : ∀ x, (s.ct x).valid = false) : s.CTN = 0 := by
  simp [State.CTN, h]

section AtReset

variable {s : State} (h : AtReset s)
include h

theorem AtReset.statusReg_eq : statusReg s = 0 := by
  obtain ⟨hcode, -, -⟩ := h.fault
  obtain ⟨-, -, htv⟩ := h.tree
  apply BitVec.eq_of_toNat_eq
  rw [statusReg_toNat]
  simp [h.phase, hcode, htv, CTN_eq_zero h.codes, State.ICTN, h.inv, h.cw, h.pk, h.acc]

theorem AtReset.treeInfoReg_eq : treeInfoReg s = 0 := by
  obtain ⟨hnn, hroot, -⟩ := h.tree
  apply BitVec.eq_of_toNat_eq
  simp [treeInfoReg_toNat, hnn, hroot]

theorem AtReset.ftInfoReg_eq : ftInfoReg s = 0 := by
  apply BitVec.eq_of_toNat_eq
  simp [ftInfoReg_toNat, (K_eq_zero_iff s).2 h.counts, TOTAL_eq_zero h.counts]

theorem AtReset.tabInfoReg_eq : tabInfoReg s = 0 := by
  have hICTN : s.ICTN = 0 := by simp [State.ICTN, h.inv]
  apply BitVec.eq_of_toNat_eq
  simp [tabInfoReg_toNat (hICTN.trans_le (Nat.zero_le _)), hICTN, CTN_eq_zero h.codes]

theorem AtReset.regInfoReg_eq : regInfoReg s = 0 := by
  apply BitVec.eq_of_toNat_eq
  simp [regInfoReg_toNat, h.cw, h.pk, h.acc]

/-- Every register but ID reads 0 after a reset (R43 to R49). -/
theorem AtReset.csr_eq_zero {n : BitVec 16} {v : BitVec 64} (hv : csr s n = some v) (hn : n ≠ 0) : v = 0 := by
  obtain ⟨-, hcmd, hinfo⟩ := h.fault
  unfold csr at hv
  split at hv
  case h_1 h0 => exact absurd (BitVec.eq_of_toNat_eq h0) hn
  case h_9 => cases hv
  all_goals cases hv
  · exact h.statusReg_eq
  · exact hcmd
  · exact hinfo
  · exact h.treeInfoReg_eq
  · exact h.ftInfoReg_eq
  · exact h.tabInfoReg_eq
  · exact h.regInfoReg_eq

end AtReset

/-- A register number up to 7 is assigned (R39). -/
theorem exists_csr_eq_some (s : State) {n : BitVec 16} (hn : n.toNat ≤ 7) : ∃ v, csr s n = some v :=
  Option.ne_none_iff_exists'.1 fun h => absurd ((csr_eq_none_iff s n).1 h) (Nat.not_lt.2 hn)

/-- Settles O53: CSRR answers the register's value and writes nothing else; the fields of each register are those of its
`_toNat` lemma. -/
theorem csrrReadsRegisters : Obligations.CsrrReadsRegisters := by
  intro s n hn
  obtain ⟨v, hv⟩ := exists_csr_eq_some s hn
  obtain ⟨h0, h1, h2, h3, h4, h5, h6, h7⟩ := csr_values s
  have hread : ∀ {m w}, csr s m = some w → n = m → v = w := by
    rintro m w hw rfl
    exact Option.some.inj (hv.symm.trans hw)
  refine ⟨s.answer 0 v, v, exec_csrr hv, rfl, rfl, hread h0, fun hn => ?_, hread h2, hread h3, fun hn => ?_, fun hn => ?_,
    fun hn hICTN => ?_, fun hn => ?_, ?_⟩
  · rw [hread h1 hn, statusReg_toNat]
  · rw [hread h4 hn, treeInfoReg_toNat]
  · rw [hread h5 hn, ftInfoReg_toNat]
  · rw [hread h6 hn, tabInfoReg_toNat hICTN]
  · rw [hread h7 hn, regInfoReg_toNat]
  · rintro rfl hn
    exact atReset_reset.csr_eq_zero hv hn

end Sys2Proof.Machine
end

section
/-! The decoder's own table against the rows of 30_encoding.md R96 and the masks of R91, and the order of tests of R97. -/

namespace Sys2Proof.Machine

/-- The row (match, mask) of R96 that an opcode's entry in the decoder's table stands for; none for an unassigned one. -/
def wordRow (op : BitVec 8) : Option (Cmd × Cmd) := (opcodeRow op).map fun p => (packWord op 0 0 0, p.1.mask)

theorem wordRow_eq_some_iff {op : BitVec 8} {r : Cmd × Cmd} :
    wordRow op = some r ↔ ∃ f make, opcodeRow op = some (f, make) ∧ (packWord op 0 0 0, f.mask) = r := by
  simp only [wordRow, Option.map_eq_some_iff, Prod.exists]

/-- The rows of R96, in rising order of opcode, are those of the decoder's table. -/
theorem opcodeRows_eq : opcodeRows = (List.range 256).filterMap fun n => wordRow (BitVec.ofNat 8 n) := by decide

theorem mem_opcodeRows_iff {r : Cmd × Cmd} : r ∈ opcodeRows ↔ ∃ op, wordRow op = some r := by
  rw [opcodeRows_eq, List.mem_filterMap]
  constructor
  · rintro ⟨n, -, h⟩
    exact ⟨_, h⟩
  · rintro ⟨op, h⟩
    exact ⟨op.toNat, List.mem_range.2 op.isLt, by rwa [BitVec.ofNat_toNat, BitVec.setWidth_eq]⟩

/-- An opcode is one of the 25 exactly when the decoder's table has an entry for it. -/
theorem opcodeAssigned_iff (w : Cmd) :
    opcodeAssigned w = true ↔ ∃ f make, opcodeRow (opField w) = some (f, make) := by
  simp only [opcodeAssigned, List.any_eq_true, mem_opcodeRows_iff, wordRow_eq_some_iff, beq_iff_eq]
  constructor
  · rintro ⟨_, ⟨op, f, make, hr, rfl⟩, ho⟩
    rw [opField_packWord] at ho
    exact ⟨f, make, ho ▸ hr⟩
  · rintro ⟨f, make, hr⟩
    exact ⟨_, ⟨opField w, f, make, hr, rfl⟩, (opField_packWord ..).symm⟩

/-- A word is an instance of some row exactly when the fields its own opcode's format reserves are 0. -/
theorem matchesRow_iff (w : Cmd) :
    matchesRow w = true ↔ ∃ f make, opcodeRow (opField w) = some (f, make) ∧ f.reservedZero w = true := by
  simp only [matchesRow, List.any_eq_true, mem_opcodeRows_iff, wordRow_eq_some_iff, beq_iff_eq]
  constructor
  · rintro ⟨_, ⟨op, f, make, hr, rfl⟩, hm⟩
    obtain ⟨rfl, hz⟩ := (and_mask_eq_iff w f op).1 hm
    exact ⟨f, make, hr, hz⟩
  · rintro ⟨f, make, hr, hz⟩
    exact ⟨_, ⟨opField w, f, make, hr, rfl⟩, (and_mask_eq_iff w f (opField w)).2 ⟨rfl, hz⟩⟩

/-- The ranges R97 sets on the fields of a command's word are those on its operands. -/
theorem staticRangeOk_encode (i : Instr) : staticRangeOk (encode i) = i.operandsInRange := by
  cases i <;> simp [staticRangeOk, encode, Instr.opcode, Instr.fields, Instr.operandsInRange, legalCsr, legalBitCount,
    legalChunk]

/-- The first test of R97. -/
theorem decode_of_opcodeRow_eq_none {w : Cmd} (hr : opcodeRow (opField w) = none) :
    decode w = .error .unassignedOpcode := by
  simp [decode, hr]

section Row

variable {w : Cmd} {f : Format} {make : BitVec 8 → BitVec 16 → BitVec 32 → Instr}
  (hr : opcodeRow (opField w) = some (f, make))
include hr

theorem matchesRow_eq_reservedZero : matchesRow w = f.reservedZero w := by
  rw [Bool.eq_iff_iff, matchesRow_iff, hr]
  simp

/-- The second test of R97. -/
theorem decode_of_reservedZero_eq_false (hz : f.reservedZero w = false) : decode w = .error .reservedNotZero := by
  simp [decode, hr, hz]

/-- The third test of R97, and the command when it passes. -/
theorem decode_of_reservedZero (hz : f.reservedZero w = true) :
    decode w = if staticRangeOk w = true then .ok (make (aField w) (bField w) (immField w))
      else .error .operandOutOfRange := by
  have hs := staticRangeOk_encode (make (aField w) (bField w) (immField w))
  rw [encode_row hr hz] at hs
  simp [decode, hr, hz, hs]

end Row

/-- Settles O4: one case for each place where decoding can end, and the tests that passed before it. -/
theorem decodeRejectsInOrder : Obligations.DecodeRejectsInOrder := by
  intro w
  cases hr : opcodeRow (opField w) with
  | none =>
    have ha : opcodeAssigned w = false := by simp [← Bool.not_eq_true, opcodeAssigned_iff, hr]
    simp [decode_of_opcodeRow_eq_none hr, ha]
  | some row =>
    obtain ⟨f, make⟩ := row
    have ha : opcodeAssigned w = true := (opcodeAssigned_iff w).2 ⟨f, make, hr⟩
    have hm := matchesRow_eq_reservedZero hr
    cases hz : f.reservedZero w with
    | false => simp [decode_of_reservedZero_eq_false hr hz, ha, hm, hz]
    | true =>
      have hd := decode_of_reservedZero hr hz
      cases hs : staticRangeOk w with
      | false => simp [hd, ha, hm, hz, hs]
      | true => simp [hd, ha, hm, hz, hs, encode_row hr hz]

end Sys2Proof.Machine
end

section
/-! The frequency table (40_frequency_table.md R120 to R124): what each command writes, and FINC's exact count. -/

namespace Sys2Proof.Machine

/-- The count that FINC refuses to pass (R122). -/
theorem count_eq_max_iff (c : Count) : c = 0xFFFFFFFF#32 ↔ c.toNat = 2 ^ 32 - 1 :=
  BitVec.toNat_inj.symm

/-- Below the greatest count the next one is exact (R124). -/
theorem count_succ_toNat {c : Count} (h : c.toNat < 2 ^ 32 - 1) : (c + 1).toNat = c.toNat + 1 :=
  BitVec.toNat_add_of_lt (Nat.add_lt_of_lt_sub h)

/-- A count fills the low part of a response's data and is read there unchanged. -/
theorem toNat_setWidth_count (c : Count) : (c.setWidth 64).toNat = c.toNat :=
  BitVec.toNat_setWidth_of_le (by decide)

/-- One count and the response are all that a write with its response changes. -/
theorem setFt_answer_frame (s : State) (x : Sym) (v : Count) (e : BitVec 4) (d : BitVec 64) :
    { (s.setFt x v).answer e d with FT := s.FT, RSP := s.RSP } = s := rfl

/-- Fault entry changes PH, the fault registers and the response history alone (R222). -/
theorem faultEntry_frame (s : State) (w : Cmd) (e : CmdError) :
    { faultEntry w e s with
      PH := s.PH, ERRCODE := s.ERRCODE, ERRCMD := s.ERRCMD, ERRINFO := s.ERRINFO, RSP := s.RSP } = s := rfl

section Run

variable {s : State} (hrun : s.PH = .run)
include hrun

theorem exec_finc_of_lt {x : Sym} (hlt : (s.ft x).toNat < 2 ^ 32 - 1) :
    exec (.finc x) s = .next ((s.setFt x (s.ft x + 1)).answer 0 ((s.ft x + 1).setWidth 64)) := by
  rw [exec_finc hrun, if_neg (mt (count_eq_max_iff _).1 hlt.ne)]

theorem exec_finc_of_max {x : Sym} (hmax : (s.ft x).toNat = 2 ^ 32 - 1) :
    exec (.finc x) s = .next (faultEntry (encode (.finc x)) (.capacity .countOverflow) s) := by
  rw [exec_finc hrun, if_pos ((count_eq_max_iff _).2 hmax)]

end Run

/-- Settles O19: FCLR leaves the table that lists nothing, so every count is 0, and K and TOTAL with them. -/
theorem fclrEmptiesCounts : Obligations.FclrEmptiesCounts := by
  intro s hrun
  have hzero : ∀ x, ({ s with FT := [] }.answer 0 0).ft x = 0 := fun _ => rfl
  exact ⟨_, exec_fclr hrun, hzero, (K_eq_zero_iff _).2 hzero, TOTAL_eq_zero hzero, rfl, rfl⟩

/-- Settles O20: FSET is one write to the table with its response; a count read after it is that of `setFt_ft`. -/
theorem fsetReplacesOneCount : Obligations.FsetReplacesOneCount := by
  intro s x count hrun
  exact ⟨_, exec_fset hrun x count, setFt_ft s x count, rfl, setFt_answer_frame s x count 0 0⟩

/-- Settles O21: below 2^32 − 1 FINC writes and answers the exact successor, at 2^32 − 1 it enters the fault. -/
theorem fincCountsOrFaults : Obligations.FincCountsOrFaults := by
  intro s x hrun
  by_cases hmax : (s.ft x).toNat = 2 ^ 32 - 1
  · exact ⟨_, exec_finc_of_max hrun hmax, fun hlt => absurd hmax hlt.ne,
      fun _ => ⟨rfl, rfl, rfl, rfl, rfl, faultEntry_frame s _ _⟩⟩
  · have hlt : (s.ft x).toNat < 2 ^ 32 - 1 := by omega
    have hsucc := count_succ_toNat hlt
    refine ⟨_, exec_finc_of_lt hrun hlt, fun _ => ⟨(s.ft x + 1).setWidth 64, ?_, fun y hy => ?_, ?_, rfl,
      setFt_answer_frame s _ _ _ _⟩, fun h => absurd h hmax⟩
    · rw [answer_ft, setFt_ft, if_pos rfl, hsucc]
    · rw [answer_ft, setFt_ft, if_neg hy]
    · rw [toNat_setWidth_count, hsucc]

/-- Settles O55: FRD answers the count, and the response is all it writes. -/
theorem frdReadsOneCount : Obligations.FrdReadsOneCount := by
  intro s x hrun
  exact ⟨_, _, exec_frd hrun x, rfl, toNat_setWidth_count (s.ft x), rfl⟩

end Sys2Proof.Machine
end

section
/-! The tree builder (41_tree_builder.md R130 to R138): the merges of a successful BUILD, BUILD of an empty table, and the
three outcomes of NRD. -/

namespace Sys2Proof.Machine

/-! A response writes no node, so the words the tree is spoken of in read the same after it. -/

@[simp] theorem isChild_answer (s : State) (e : BitVec 4) (d : BitVec 64) (p j : Idx) :
    IsChild (s.answer e d) p j ↔ IsChild s p j := Iff.rfl

@[simp] theorem liveBefore_answer (s : State) (e : BitVec 4) (d : BitVec 64) (n j : Idx) :
    LiveBefore (s.answer e d) n j ↔ LiveBefore s n j := Iff.rfl

@[simp] theorem nodeKey_answer (s : State) (e : BitVec 4) (d : BitVec 64) (i : Idx) :
    nodeKey (s.answer e d) i = nodeKey s i := rfl

/-- BUILD has something to build exactly when some Symbol has a count (R131). -/
theorem one_le_K_iff (s : State) : 1 ≤ s.K ↔ ∃ x, s.ft x ≠ 0 := by
  rw [Nat.one_le_iff_ne_zero, Ne, K_eq_zero_iff, not_forall]

/-! The data of NRD's response (R138): each field counts from its lowest bit. -/

theorem nodeData_leaf_toNat (f : Freq) (x : Sym) : (nodeData (.leaf f x)).toNat = f.toNat + 2 ^ 40 * x.toNat := by
  have hx : (x.setWidth 9).toNat = x.toNat := BitVec.toNat_setWidth_of_le (by decide)
  simp only [nodeData, toNat_append_eq, hx, BitVec.toNat_ofNat]
  omega

theorem nodeData_internal_toNat (f : Freq) (l r : Idx) :
    (nodeData (.internal f l r)).toNat = f.toNat + 2 ^ 40 * l.toNat + 2 ^ 49 * r.toNat + 2 ^ 58 := by
  simp only [nodeData, toNat_append_eq, BitVec.toNat_ofNat]
  omega

/-- NRD's operand, read as an index of the arena. -/
theorem nodeIndex_eq_ofNat (i : BitVec 16) : nodeIndex i = BitVec.ofNat 9 i.toNat := rfl

section Run

variable {s : State} (hrun : s.PH = .run)
include hrun

theorem exec_build_of_K_eq_zero (hK : s.K = 0) :
    exec .build s = .next (faultEntry (encode .build) .invalidInput s) := by
  rw [exec_build hrun, if_pos hK]

theorem exec_build_of_one_le_K (hK : 1 ≤ s.K) : exec .build s = .next
    ((installTree s (builtNodes s)).answer 0 (treeInfoReg (installTree s (builtNodes s)))) := by
  rw [exec_build hrun, if_neg (Nat.one_le_iff_ne_zero.1 hK)]

theorem exec_nrd_of_no_tree {i : BitVec 16} (htv : s.TV = false) :
    exec (.nrd i) s = .next (faultEntry (encode (.nrd i)) .sequenceError s) := by
  rw [exec_nrd hrun, if_pos htv]

theorem exec_nrd_of_le {i : BitVec 16} (htv : s.TV = true) (hi : s.NN.toNat ≤ i.toNat) :
    exec (.nrd i) s = .next (faultEntry (encode (.nrd i)) (.illegalCommand .operandOutOfRange) s) := by
  have hillegal : legalNode i s.NN = false := Bool.eq_false_iff.2 (mt (legalNode_iff i s.NN).1 hi.not_gt)
  rw [exec_nrd hrun, if_neg (ne_false_of_eq_true htv), if_pos hillegal]

theorem exec_nrd_of_lt {i : BitVec 16} (htv : s.TV = true) (hi : i.toNat < s.NN.toNat) :
    exec (.nrd i) s = .next (s.answer 0 (nodeData (s.node (nodeIndex i)))) := by
  have hlegal := (legalNode_iff i s.NN).2 hi
  rw [exec_nrd hrun, if_neg (ne_false_of_eq_true htv), if_neg (ne_false_of_eq_true hlegal)]

end Run

/-- Settles O26: the arena BUILD installs has the merge loop's property at each entry from K on (`built_merge`), and the
response leaves it as it is. -/
theorem buildMergesTheTwoLeast : Obligations.BuildMergesTheTwoLeast := by
  intro s t hrun hcount ht n hKn hn
  have hK := (one_le_K_iff s).2 hcount
  rw [exec_build_of_one_le_K hrun hK] at ht
  cases ht
  rw [answer_NN, built_NN hK] at hn
  simpa using built_merge hK hKn hn

/-- Settles O23: with no count BUILD ends in fault entry, which writes PH, the fault registers and the response alone. -/
theorem buildRejectsEmptyTable : Obligations.BuildRejectsEmptyTable := by
  intro s hrun hzero
  exact ⟨_, exec_build_of_K_eq_zero hrun ((K_eq_zero_iff s).2 hzero), rfl, rfl, rfl, rfl, rfl, faultEntry_frame s _ _⟩

/-- Settles O28: one case for no tree, one for an index outside it and one for a node, whose fields are those of the two
`nodeData` lemmas. -/
theorem nrdReadsOneNode : Obligations.NrdReadsOneNode := by
  intro s i hrun
  cases htv : s.TV with
  | false =>
    exact ⟨_, exec_nrd_of_no_tree hrun htv, fun _ => ⟨rfl, rfl, rfl⟩, nofun, nofun,
      fun _ => ⟨rfl, rfl, faultEntry_frame s _ _⟩⟩
  | true =>
    rcases Nat.lt_or_ge i.toNat s.NN.toNat with hi | hi
    · refine ⟨_, exec_nrd_of_lt hrun htv hi, nofun, fun _ hge => absurd hi hge.not_gt, fun _ _ => ⟨_, rfl, rfl, ?_⟩,
        fun hfault => absurd (hrun.symm.trans hfault) (by decide)⟩
      rw [nodeIndex_eq_ofNat]
      cases s.node (BitVec.ofNat 9 i.toNat) with
      | leaf f x => exact nodeData_leaf_toNat f x
      | internal f l r => exact nodeData_internal_toNat f l r
    · exact ⟨_, exec_nrd_of_le hrun htv hi, nofun, fun _ _ => ⟨rfl, rfl, rfl⟩, fun _ hlt => absurd hlt hi.not_gt,
        fun _ => ⟨rfl, rfl, faultEntry_frame s _ _⟩⟩

end Sys2Proof.Machine
end

section
/-! The end of a stream (43_encoder.md R163): what EFLUSH adds to the beats, and what it leaves of the packer. -/

namespace Sys2Proof.Machine

/-- A beat makes the stream longer by the bits it holds (R69). -/
theorem bitsEO_emitEO (s : State) (data : BitVec 32) (cnt : BitVec 6) :
    bitsEO (s.emitEO data cnt) = bitsEO s ++ bitsOf data cnt.toNat := by
  simp [bitsEO]

/-- With an empty packer all the bits encoded so far are in EO. -/
theorem encodedBits_of_cnt_eq_zero {s : State} (hcnt : s.PK.cnt = 0) : encodedBits s = bitsEO s := by
  simp [encodedBits, hcnt]

/-- A beat of the packer's bits puts all the bits encoded so far into EO. -/
theorem bitsEO_emitEO_packer (s : State) :
    bitsEO (s.emitEO s.PK.buf (s.PK.cnt.setWidth 6)) = encodedBits s := by
  rw [bitsEO_emitEO, BitVec.toNat_setWidth_of_le (by decide), encodedBits]

section Run

variable {s : State} (hrun : s.PH = .run)
include hrun

theorem exec_eflush_of_cnt_eq_zero (hcnt : s.PK.cnt = 0) :
    exec .eflush s = .next ({ s with PK := emptyPacker }.answer 0 (s.PK.cnt.setWidth 64)) := by
  have hnone : ¬ 0 < s.PK.cnt.toNat := by simp [hcnt]
  rw [exec_eflush hrun, if_neg hnone]

theorem exec_eflush_of_cnt_ne_zero (hcnt : s.PK.cnt ≠ 0) :
    exec .eflush s = .next ({ s.emitEO s.PK.buf (s.PK.cnt.setWidth 6) with PK := emptyPacker }.answer 0
      (s.PK.cnt.setWidth 64)) := by
  have hsome : 0 < s.PK.cnt.toNat := Nat.pos_of_ne_zero (mt (BitVec.eq_of_toNat_eq (y := 0#5)) hcnt)
  rw [exec_eflush hrun, if_pos hsome]

end Run

/-- Settles O35: with nothing in the packer EO already holds every bit, otherwise the one short beat brings the rest
(`bitsEO_emitEO_packer`); the count loses nothing where the answer and the beat widen it. -/
theorem eflushEmitsTheRest : Obligations.EflushEmitsTheRest := by
  intro s hrun
  have hanswer : (s.PK.cnt.setWidth 64).toNat = s.PK.cnt.toNat := BitVec.toNat_setWidth_of_le (by decide)
  by_cases hcnt : s.PK.cnt = 0
  · exact ⟨_, _, exec_eflush_of_cnt_eq_zero hrun hcnt, rfl, hanswer, (encodedBits_of_cnt_eq_zero hcnt).symm, rfl,
      fun _ => rfl, fun hne => absurd hcnt hne, rfl⟩
  · have hbeat : (s.PK.cnt.setWidth 6).toNat = s.PK.cnt.toNat := BitVec.toNat_setWidth_of_le (by decide)
    exact ⟨_, _, exec_eflush_of_cnt_ne_zero hrun hcnt, rfl, hanswer, bitsEO_emitEO_packer s, rfl,
      fun hzero => absurd hzero hcnt, fun _ => ⟨_, rfl, rfl, hbeat⟩, rfl⟩

end Sys2Proof.Machine
end

section
/-! The decoder's two commands about its accumulator (44_decoder.md): the test at the end of a stream (R172), and the
restart (R173). -/

namespace Sys2Proof.Machine

/-- ERRINFO of TruncatedStreamError (R172): the length in bits 7 to 0, the overflow flag in bit 8. -/
theorem errorInfo_truncatedStream_toNat (len : BitVec 8) (ovf : Bool) :
    (errorInfo (.truncatedStream len ovf)).toNat = len.toNat + 256 * ovf.toNat := by
  simp only [errorInfo, toNat_append_eq, toNat_ofBool_eq, BitVec.toNat_ofNat]
  omega

theorem accHolds_emptyAcc : AccHolds emptyAcc [] := rfl

section Run

variable {s : State} (hrun : s.PH = .run)
include hrun

theorem exec_dend_of_len_eq_zero (hlen : s.ACC.str.len = 0) : exec .dend s = .next (s.answer 0 0) := by
  have hempty : ¬ 0 < s.ACC.str.len.toNat := by simp [hlen]
  rw [exec_dend hrun, if_neg hempty]

theorem exec_dend_of_len_ne_zero (hlen : s.ACC.str.len ≠ 0) :
    exec .dend s = .next (faultEntry (encode .dend) (.truncatedStream s.ACC.str.len s.ACC.ovf) s) := by
  have hbits : 0 < s.ACC.str.len.toNat := Nat.pos_of_ne_zero (mt (BitVec.eq_of_toNat_eq (y := 0#8)) hlen)
  rw [exec_dend hrun, if_pos hbits]

end Run

/-- Settles O39: an empty accumulator gets the bare response, any other the fault entry, whose frame keeps ACC and whose
ERRINFO is `errorInfo_truncatedStream_toNat`. -/
theorem dendTestsAccumulator : Obligations.DendTestsAccumulator := by
  intro s hrun
  by_cases hlen : s.ACC.str.len = 0
  · exact ⟨_, exec_dend_of_len_eq_zero hrun hlen, fun _ => ⟨rfl, rfl⟩, fun hne => absurd hlen hne⟩
  · have hinfo := errorInfo_truncatedStream_toNat s.ACC.str.len s.ACC.ovf
    exact ⟨_, exec_dend_of_len_ne_zero hrun hlen, fun hzero => absurd hzero hlen,
      fun _ => ⟨rfl, rfl, hinfo, rfl, rfl, faultEntry_frame s _ _⟩⟩

/-- Settles O40: DRST writes the empty accumulator, which holds the empty bit-string, and the response. -/
theorem drstEmptiesAccumulator : Obligations.DrstEmptiesAccumulator := by
  intro s hrun
  have hstr : emptyAcc.str.toList = [] := bitsOf_zero _
  exact ⟨_, exec_drst hrun, accHolds_emptyAcc, hstr, rfl, rfl, rfl⟩

end Sys2Proof.Machine
end

section
/-! The table port (45_table_port.md R180 to R190): each outcome of each command, and the numbers its response shows. -/

namespace Sys2Proof.Machine

theorem toList_emptyStr : emptyStr.toList = [] := bitsOf_zero _

theorem canonical_emptyStr : emptyStr.Canonical := BitVec.zero_ushiftRight

/-- Writes that keep the phase do not lead from phase RUN to phase FAULT. -/
theorem not_fault_of_PH_eq {s t : State} (hrun : s.PH = .run) (hPH : t.PH = s.PH) : t.PH ≠ .fault := by
  rw [hPH, hrun]
  decide

/-! The data of the responses: each field counts from its lowest bit. -/

/-- Valid bit and byte, as CRD and ILK answer them (R187, R190). -/
theorem validByte_toNat (b : BitVec 8) : (0#55 ++ 1#1 ++ b : BitVec (55 + 1 + 8)).toNat = 256 + b.toNat := by
  have hflag : (0#55 ++ 1#1 : BitVec (55 + 1)).toNat * 2 ^ 8 = 256 := rfl
  exact (toNat_append_eq (0#55 ++ 1#1) b).trans (congrArg (· + b.toNat) hflag)

/-- ERRINFO of DuplicateCodeError (R215): the Symbol held in bits 7 to 0, the new one above it. -/
theorem errorInfo_duplicateCode_toNat (held new : Sym) :
    (errorInfo (.duplicateCode held new)).toNat = held.toNat + 256 * new.toNat := by
  simp only [errorInfo, toNat_append_eq, BitVec.toNat_ofNat]
  omega

/-- Chunk j shows bits 32j to 32j + 31 of the codeword's bits, 0 beyond bit 254 (R182). -/
theorem cwChunk_getLsbD (c : BitStr) {j i : Nat} (hj : j ≤ 7) (hi : i < 32) :
    (cwChunk c j).getLsbD i = c.bits.getLsbD (32 * j + i) := by
  have hbit : 32 * j + i < 256 := by omega
  simp [cwChunk, hi, hbit]

/-- The low half of CWRD's data is the chunk (R182). -/
theorem cwrdData_getLsbD (len : BitVec 8) (chunk : BitVec 32) {i : Nat} (hi : i < 32) :
    (0#24 ++ len ++ chunk : BitVec (24 + 8 + 32)).getLsbD i = chunk.getLsbD i := by
  rw [BitVec.getLsbD_append, if_pos hi]

/-- The high half of CWRD's data is the length (R182). -/
theorem cwrdData_toNat_div (len : BitVec 8) (chunk : BitVec 32) :
    (0#24 ++ len ++ chunk : BitVec (24 + 8 + 32)).toNat / 2 ^ 32 = len.toNat := by
  simp only [toNat_append_eq, BitVec.toNat_ofNat]
  omega

/-- A new key makes ICT longer by one (R30). -/
theorem insertIct_ICTN {s : State} {c : BitStr} (hnew : s.ict c = none) (x : Sym) :
    (s.insertIct c x).ICTN = s.ICTN + 1 :=
  Table.length_put_new BitStr.key hnew x

section Run

variable {s : State} (hrun : s.PH = .run)
include hrun

theorem exec_cwapp_of_illegal {n : BitVec 8} (imm : BitVec 32) (hn : n.toNat = 0 ∨ 32 < n.toNat) :
    exec (.cwapp n imm) s =
      .next (faultEntry (encode (.cwapp n imm)) (.illegalCommand .operandOutOfRange) s) := by
  rw [exec_cwapp hrun, if_pos ((legalBitCount_eq_false_iff n).2 hn)]

theorem exec_cwapp_of_too_long {n : BitVec 8} (imm : BitVec 32) (hn : legalBitCount n = true)
    (hlen : 255 < s.CW.len.toNat + n.toNat) :
    exec (.cwapp n imm) s = .next (faultEntry (encode (.cwapp n imm)) (.capacity .codewordTooLong) s) := by
  rw [exec_cwapp hrun, if_neg (ne_false_of_eq_true hn), if_pos hlen]

theorem exec_cwapp_of_fits {n : BitVec 8} (imm : BitVec 32) (hn : legalBitCount n = true)
    (hlen : s.CW.len.toNat + n.toNat ≤ 255) :
    exec (.cwapp n imm) s = .next ({ s with CW := s.CW.append (bitsOf imm n.toNat) }.answer 0
      (BitVec.ofNat 64 (s.CW.len.toNat + n.toNat))) := by
  rw [exec_cwapp hrun, if_neg (ne_false_of_eq_true hn), if_neg hlen.not_gt]

theorem exec_cwrd_of_le {j : BitVec 16} (hj : j.toNat ≤ 7) : exec (.cwrd j) s = .next
    (s.answer 0 (0#24 ++ s.CW.len ++ cwChunk s.CW j.toNat : BitVec (24 + 8 + 32))) := by
  rw [exec_cwrd hrun, if_neg (ne_false_of_eq_true ((legalChunk_iff j).2 hj))]

theorem exec_cwrd_of_lt {j : BitVec 16} (hj : 7 < j.toNat) : exec (.cwrd j) s = .next
    (faultEntry (encode (.cwrd j)) (.illegalCommand .operandOutOfRange) s) := by
  rw [exec_cwrd hrun, if_pos (Bool.eq_false_iff.2 (mt (legalChunk_iff j).1 hj.not_ge))]

theorem exec_cld_of_len_eq_zero (x : Sym) (hlen : s.CW.len = 0) :
    exec (.cld x) s = .next (faultEntry (encode (.cld x)) .malformedRecord s) := by
  rw [exec_cld hrun, if_pos hlen]

theorem exec_cld_of_len_ne_zero (x : Sym) (hlen : s.CW.len ≠ 0) :
    exec (.cld x) s = .next ((s.setCt x { valid := true, code := s.CW }).answer 0 0) := by
  rw [exec_cld hrun, if_neg hlen]

theorem exec_crd_of_valid {x : Sym} (hvalid : (s.ct x).valid = true) : exec (.crd x) s = .next
    ({ s with CW := (s.ct x).code }.answer 0 (0#55 ++ 1#1 ++ (s.ct x).code.len : BitVec (55 + 1 + 8))) := by
  rw [exec_crd hrun, if_pos hvalid]

theorem exec_crd_of_not_valid {x : Sym} (hvalid : (s.ct x).valid = false) :
    exec (.crd x) s = .next ({ s with CW := emptyStr }.answer 0 0) := by
  rw [exec_crd hrun, if_neg (Bool.eq_false_iff.1 hvalid)]

theorem exec_ild_same {x : Sym} (hlen : s.CW.len ≠ 0) (hheld : s.ict s.CW = some x) :
    exec (.ild x) s = .next (s.answer 0 0) := by
  rw [exec_ild_held hrun x x hlen hheld, if_pos rfl]

theorem exec_ild_duplicate {x y : Sym} (hlen : s.CW.len ≠ 0) (hheld : s.ict s.CW = some y) (hne : y ≠ x) :
    exec (.ild x) s = .next (faultEntry (encode (.ild x)) (.duplicateCode y x) s) := by
  rw [exec_ild_held hrun x y hlen hheld, if_neg hne]

theorem exec_ild_full (x : Sym) (hlen : s.CW.len ≠ 0) (hnew : s.ict s.CW = none) (hfull : s.ICTN = 256) :
    exec (.ild x) s = .next (faultEntry (encode (.ild x)) (.capacity .inverseTableFull) s) := by
  rw [exec_ild_new hrun x hlen hnew, if_pos hfull]

theorem exec_ild_insert (x : Sym) (hlen : s.CW.len ≠ 0) (hnew : s.ict s.CW = none) (hroom : s.ICTN ≠ 256) :
    exec (.ild x) s = .next ((s.insertIct s.CW x).answer 0 1) := by
  rw [exec_ild_new hrun x hlen hnew, if_neg hroom]

end Run

/-- Settles O44: the range test, then the length test, each ending in the fault entry; past both, the bits appended are
those of `BitStr.toList_append`. -/
theorem cwappAppendsBits : Obligations.CwappAppendsBits := by
  intro s n imm hrun
  by_cases hout : n.toNat = 0 ∨ 32 < n.toNat
  · have hno : ¬ (1 ≤ n.toNat ∧ n.toNat ≤ 32) := by omega
    exact ⟨_, exec_cwapp_of_illegal hrun imm hout, fun h1 h32 => absurd ⟨h1, h32⟩ hno, fun _ => ⟨rfl, rfl, rfl⟩,
      fun h1 h32 => absurd ⟨h1, h32⟩ hno, fun _ => ⟨rfl, rfl, faultEntry_frame s _ _⟩⟩
  · have hn : legalBitCount n = true := (legalBitCount_iff n).2 (by omega)
    rcases Nat.lt_or_ge 255 (s.CW.len.toNat + n.toNat) with hlong | hfits
    · exact ⟨_, exec_cwapp_of_too_long hrun imm hn hlong, fun _ _ hle => absurd hle hlong.not_ge,
        fun h => absurd h hout, fun _ _ _ => ⟨rfl, rfl, rfl⟩, fun _ => ⟨rfl, rfl, faultEntry_frame s _ _⟩⟩
    · have hroom : s.CW.len.toNat + (bitsOf imm n.toNat).length ≤ 255 := by rwa [length_bitsOf]
      have hanswer : (BitVec.ofNat 64 (s.CW.len.toNat + n.toNat)).toNat = s.CW.len.toNat + n.toNat :=
        Nat.mod_eq_of_lt (hfits.trans_lt (by decide))
      exact ⟨_, exec_cwapp_of_fits hrun imm hn hfits, fun _ _ _ => ⟨_, BitStr.toList_append hroom,
          fun hc => BitStr.canonical_append hc hroom, rfl, hanswer, rfl⟩,
        fun h => absurd h hout, fun _ _ hgt => absurd hgt hfits.not_gt,
        fun hfault => absurd hfault (not_fault_of_PH_eq hrun rfl)⟩

/-- Settles O49: one case for each outcome of ILD, in the order of its tests; the clauses of the others exclude each
other. -/
theorem ildInsertsOneRecord : Obligations.IldInsertsOneRecord := by
  intro s x hrun
  by_cases hlen : s.CW.len = 0
  · exact ⟨_, exec_ild_empty hrun x hlen, fun _ => ⟨rfl, rfl, rfl⟩, fun _ h => absurd hlen h, fun h => absurd hlen h,
      fun h => absurd hlen h, fun h => absurd hlen h, fun _ => ⟨rfl, rfl, faultEntry_frame s _ _⟩⟩
  cases hheld : s.ict s.CW with
  | some y =>
    by_cases hxy : y = x
    · subst hxy
      exact ⟨_, exec_ild_same hrun hlen hheld, fun h => absurd h hlen,
        fun z _ hz hne => absurd (Option.some.inj hz).symm hne, fun _ _ => ⟨rfl, rfl⟩, fun _ => nofun, fun _ => nofun,
        fun hfault => absurd hfault (not_fault_of_PH_eq hrun rfl)⟩
    · refine ⟨_, exec_ild_duplicate hrun hlen hheld hxy, fun h => absurd h hlen, ?_,
        fun _ hx => absurd (Option.some.inj hx) hxy, fun _ => nofun, fun _ => nofun,
        fun _ => ⟨rfl, rfl, faultEntry_frame s _ _⟩⟩
      rintro z - hz -
      cases hz
      exact ⟨rfl, rfl, errorInfo_duplicateCode_toNat y x⟩
  | none =>
    by_cases hfull : s.ICTN = 256
    · exact ⟨_, exec_ild_full hrun x hlen hheld hfull, fun h => absurd h hlen, fun _ _ => nofun, fun _ => nofun,
        fun _ _ _ => ⟨rfl, rfl, rfl⟩, fun _ _ h => absurd hfull h, fun _ => ⟨rfl, rfl, faultEntry_frame s _ _⟩⟩
    · exact ⟨_, exec_ild_insert hrun x hlen hheld hfull, fun h => absurd h hlen, fun _ _ => nofun, fun _ => nofun,
        fun _ _ h => absurd h hfull,
        fun _ _ _ => ⟨insertIct_ict s s.CW x, insertIct_ICTN hheld x, rfl, rfl⟩,
        fun hfault => absurd hfault (not_fault_of_PH_eq hrun rfl)⟩

/-- Settles O43: CWCLR writes the empty bit-string and the response. -/
theorem cwclrEmptiesStaging : Obligations.CwclrEmptiesStaging := by
  intro s hrun
  exact ⟨_, exec_cwclr hrun, toList_emptyStr, canonical_emptyStr, rfl, rfl⟩

/-- Settles O45: the low half of the answer is the chunk, the high half the length; above 7 the fault entry. -/
theorem cwrdReadsOneChunk : Obligations.CwrdReadsOneChunk := by
  intro s j hrun
  rcases Nat.lt_or_ge 7 j.toNat with hgt | hle
  · exact ⟨_, exec_cwrd_of_lt hrun hgt, fun hle => absurd hle hgt.not_ge,
      fun _ => ⟨rfl, rfl, rfl, rfl, faultEntry_frame s _ _⟩⟩
  · refine ⟨_, exec_cwrd_of_le hrun hle, fun _ => ⟨_, rfl, rfl, fun i hi => ?_, cwrdData_toNat_div _ _⟩,
      fun hgt => absurd hgt hle.not_gt⟩
    exact (cwrdData_getLsbD _ _ hi).trans (cwChunk_getLsbD s.CW hle hi)

/-- Settles O46: CCLR clears every valid bit (`clearCt_ct`), ICLR leaves the table that lists nothing. -/
theorem clearingTheCodeTables : Obligations.ClearingTheCodeTables := by
  intro s hrun
  have hclear : ∀ x, ((s.clearCt.answer 0 0).ct x).valid = false := fun x => congrArg CodeEntry.valid (clearCt_ct s x)
  exact ⟨⟨_, exec_cclr hrun, hclear, CTN_eq_zero hclear, rfl, rfl⟩,
    ⟨_, exec_iclr hrun, Table.find?_nil, rfl, rfl, rfl⟩⟩

/-- Settles O47: an empty CW gets the fault entry, any other the one write of `setCt_ct`. -/
theorem cldLoadsOneEntry : Obligations.CldLoadsOneEntry := by
  intro s x hrun
  by_cases hlen : s.CW.len = 0
  · exact ⟨_, exec_cld_of_len_eq_zero hrun x hlen, fun hne => absurd hlen hne,
      fun _ => ⟨rfl, rfl, rfl, rfl, rfl, faultEntry_frame s _ _⟩⟩
  · refine ⟨_, exec_cld_of_len_ne_zero hrun x hlen, fun _ => ⟨?_, ?_, fun y hy => ?_, rfl, rfl⟩,
      fun hzero => absurd hzero hlen⟩
    · rw [answer_ct, setCt_ct, if_pos rfl]
    · rw [answer_ct, setCt_ct, if_pos rfl]
    · rw [answer_ct, setCt_ct, if_neg hy]

/-- Settles O48: CW gets the entry's codeword or the empty bit-string, and the response says which. -/
theorem crdReadsOneEntry : Obligations.CrdReadsOneEntry := by
  intro s x hrun
  cases hvalid : (s.ct x).valid with
  | true => exact ⟨_, _, exec_crd_of_valid hrun hvalid, rfl, rfl, fun _ => ⟨rfl, validByte_toNat _⟩, nofun⟩
  | false =>
    exact ⟨_, _, exec_crd_of_not_valid hrun hvalid, rfl, rfl, nofun, fun _ => ⟨toList_emptyStr, canonical_emptyStr, rfl⟩⟩

/-- Settles O50: an empty CW and a CW that is no key are a miss, otherwise the answer is the Symbol with its valid bit. -/
theorem ilkLooksUp : Obligations.IlkLooksUp := by
  intro s hrun
  by_cases hlen : s.CW.len = 0
  · exact ⟨_, _, exec_ilk_miss hrun (.inl hlen), rfl, rfl, fun _ => rfl, fun h => absurd hlen h, fun _ h => absurd hlen h⟩
  cases hheld : s.ict s.CW with
  | none => exact ⟨_, _, exec_ilk_miss hrun (.inr hheld), rfl, rfl, fun _ => rfl, fun _ _ => rfl, fun _ _ => nofun⟩
  | some y =>
    refine ⟨_, _, exec_ilk_hit hrun y hlen hheld, rfl, rfl, fun h => absurd h hlen, fun _ => nofun, ?_⟩
    rintro x - hx
    cases hx
    exact validByte_toNat y

end Sys2Proof.Machine
end

section
/-! The system commands NOP, SRST, ECLR (46_system.md R200 to R202), and the ways out of phase FAULT
(60_exceptions.md R225). -/

namespace Sys2Proof.Machine

/-- A word that decodes passed the three tests of R97, and is then the encoding of its command. -/
theorem encode_of_decode {w : Cmd} {i : Instr} (hdec : decode w = .ok i) : encode i = w := by
  obtain ⟨hopcode, hreserved, hrange, hok⟩ := decodeRejectsInOrder w
  have hne : ∀ c, decode w ≠ .error c := by simp [hdec]
  have ha : opcodeAssigned w = true := by simpa using mt hopcode.2 (hne _)
  have hm : matchesRow w = true := by simpa [ha] using mt hreserved.2 (hne _)
  have hs : staticRangeOk w = true := by simpa [ha, hm] using mt hrange.2 (hne _)
  obtain ⟨j, hj, henc⟩ := hok ha hm hs
  cases hdec.symm.trans hj
  exact henc

/-- In phase FAULT the only commands with an effect are ECLR and SRST (R224, R226). -/
theorem Effect.cases_of_fault {s u : State} {i : Instr} (heff : Effect s i u) (hfault : s.PH = .fault) :
    u = s ∨ (i = .srst ∧ u = softReset s) ∨ (i = .eclr ∧ u = clearFault s) := by
  have hrun : s.PH ≠ .run := by simp [hfault]
  cases heff
  case same => exact .inl rfl
  case srst => exact .inr (.inl ⟨rfl, rfl⟩)
  case eclr => exact .inr (.inr ⟨rfl, rfl⟩)
  all_goals exact absurd ‹s.PH = .run› hrun

/-- The phase and the fault registers are all that clearing a fault writes, the response history what its answer adds. -/
theorem clearFault_answer_frame (s : State) (e : BitVec 4) (d : BitVec 64) :
    { (clearFault s).answer e d with
      PH := s.PH, ERRCODE := s.ERRCODE, ERRCMD := s.ERRCMD, ERRINFO := s.ERRINFO, RSP := s.RSP } = s := rfl

/-- R225: a step from phase FAULT to phase RUN is a hardware reset, ECLR or SRST. -/
theorem nextAction_of_step_leaves_fault {s t : State} (hfault : s.PH = .fault) (hstep : step s = .next t)
    (hrun : t.PH = .run) :
    nextAction s = some .reset ∨ nextAction s = some (.command (encode .eclr)) ∨
      nextAction s = some (.command (encode .srst)) := by
  have hne : s.PH ≠ .run := by simp [hfault]
  obtain ⟨-, rfl⟩ | ⟨hnext, -⟩ | ⟨w, cause, -, -, rfl⟩ | ⟨w, i, u, e, d, hnext, hdec, heff, rfl, -⟩ := step_cases hstep
  · exact absurd hrun hne
  · exact .inl hnext
  · obtain ⟨-, h⟩ | ⟨h, -⟩ := illegalWord_cases w cause (advance s)
    · rw [h] at hrun
      exact absurd hrun hne
    · exact absurd h hne
  · obtain rfl | ⟨rfl, -⟩ | ⟨rfl, -⟩ := heff.cases_of_fault hfault
    · exact absurd hrun hne
    · exact .inr (.inr (encode_of_decode hdec ▸ hnext))
    · exact .inr (.inl (encode_of_decode hdec ▸ hnext))

/-- Settles O11: ECLR answers from `clearFault`, SRST from `softReset`; the ways out of phase FAULT are those of
`nextAction_of_step_leaves_fault`. -/
theorem onlyAcknowledgementLeavesFault : Obligations.OnlyAcknowledgementLeavesFault :=
  ⟨fun s => ⟨_, exec_eclr s, rfl, rfl, rfl, rfl, rfl, clearFault_answer_frame s 0 0⟩,
    fun s => ⟨_, exec_srst s, (atReset_softReset s).answer 0 0⟩,
    fun _ _ => nextAction_of_step_leaves_fault⟩

/-- Settles O52: NOP's response is all it writes. -/
theorem nopChangesNothing : Obligations.NopChangesNothing :=
  fun s => ⟨_, exec_nop s, rfl, rfl⟩

end Sys2Proof.Machine
end

section
/-! The error each command raises (60_exceptions.md R210 to R219), said once, and what the command then ends in
(R222). -/

namespace Sys2Proof.Machine

/-- The error a command raises in phase RUN, if any: each command's tests in the order of its rule (R212 to R219). -/
def raisedError (s : State) : Instr → Option CmdError
  | .csrr n => if legalCsr n = false then some (.illegalCommand .operandOutOfRange) else none
  | .finc x => if s.ft x = 0xFFFFFFFF#32 then some (.capacity .countOverflow) else none
  | .build => if s.K = 0 then some .invalidInput else none
  | .nrd n =>
    if s.TV = false then some .sequenceError
    else if legalNode n s.NN = false then some (.illegalCommand .operandOutOfRange) else none
  | .derive => if s.TV = false then some .sequenceError else none
  | .enc x => if (s.ct x).valid = false then some (.unknownSymbol x) else none
  | .dbits n _ => if legalBitCount n = false then some (.illegalCommand .operandOutOfRange) else none
  | .dend => if 0 < s.ACC.str.len.toNat then some (.truncatedStream s.ACC.str.len s.ACC.ovf) else none
  | .cwapp n _ =>
    if legalBitCount n = false then some (.illegalCommand .operandOutOfRange)
    else if 255 < s.CW.len.toNat + n.toNat then some (.capacity .codewordTooLong) else none
  | .cwrd j => if legalChunk j = false then some (.illegalCommand .operandOutOfRange) else none
  | .cld _ => if s.CW.len = 0 then some .malformedRecord else none
  | .ild x =>
    if s.CW.len = 0 then some .malformedRecord
    else match s.ict s.CW with
      | some y => if y = x then none else some (.duplicateCode y x)
      | none => if s.ICTN = 256 then some (.capacity .inverseTableFull) else none
  | .nop | .srst | .eclr | .fclr | .fset _ _ | .frd _ | .eflush | .drst | .cwclr | .cclr | .crd _ | .iclr | .ilk => none

/-- What a command that is not refused ends in, beside the error it raises: fault entry (R222), or err 0 from a state
with the response history and the host's place unchanged, in the same phase or phase RUN. DERIVE stops where the arena is
no tree (log 10). -/
inductive ExecOutcome (s : State) : Instr → Option CmdError → Result → Prop
  | raises (i : Instr) (e : CmdError) : ExecOutcome s i (some e) (.next (faultEntry (encode i) e s))
  | completes (i : Instr) {u : State} (d : BitVec 64) : u.PH = s.PH ∨ u.PH = .run → u.RSP = s.RSP →
      u.script = s.script → u.pc = s.pc → ExecOutcome s i none (.next (u.answer 0 d))
  | stops : s.TV = true → treeRecords s = none → ExecOutcome s .derive none (.fault .walkUndefined)

/-- One test of a command: the error and fault entry, or what the command does past the test. -/
theorem ExecOutcome.of_test {s t : State} {i : Instr} {e : CmdError} {o : Option CmdError} (p : Prop) [Decidable p]
    (h : ¬ p → ExecOutcome s i o (.next t)) :
    ExecOutcome s i (if p then some e else o) (.next (if p then faultEntry (encode i) e s else t)) := by
  split
  · exact .raises i e
  · exact h ‹_›

/-- The commands that execute in both phases raise no error, and complete (R224). -/
theorem execOutcome_of_executesInFault {s : State} {i : Instr} (hi : executesInFault i = true) :
    ExecOutcome s i none (exec i s) := by
  cases i <;> simp only [executesInFault, Bool.false_eq_true] at hi
  case nop => exact exec_nop s ▸ .completes _ _ (.inl rfl) rfl rfl rfl
  case srst => exact exec_srst s ▸ .completes _ _ (.inr rfl) rfl rfl rfl
  case eclr => exact exec_eclr s ▸ .completes _ _ (.inr rfl) rfl rfl rfl
  case csrr n =>
    obtain ⟨v, hv⟩ := exists_csr_eq_some s (of_decide_eq_true hi)
    rw [exec_csrr hv]
    exact .completes _ _ (.inl rfl) rfl rfl rfl

theorem legalCsr_eq_false_iff (n : BitVec 16) : legalCsr n = false ↔ 7 < n.toNat := by
  rw [← Bool.not_eq_true, legalCsr_iff, Nat.not_le]

theorem legalChunk_eq_false_iff (j : BitVec 16) : legalChunk j = false ↔ 7 < j.toNat := by
  rw [← Bool.not_eq_true, legalChunk_iff, Nat.not_le]

theorem legalNode_eq_false_iff (i : BitVec 16) (nn : Idx) : legalNode i nn = false ↔ nn.toNat ≤ i.toNat := by
  rw [← Bool.not_eq_true, legalNode_iff, Nat.not_lt]

section Run

variable {s : State} (hrun : s.PH = .run)
include hrun

theorem execOutcome_csrr (n : BitVec 16) : ExecOutcome s (.csrr n) (raisedError s (.csrr n)) (exec (.csrr n) s) := by
  rw [raisedError]
  split
  case isTrue hn =>
    rw [exec_csrr_unassigned hrun ((legalCsr_eq_false_iff n).1 hn)]
    exact .raises _ _
  case isFalse hn => exact execOutcome_of_executesInFault (Bool.not_eq_false _ ▸ hn)

theorem execOutcome_derive : ExecOutcome s .derive (raisedError s .derive) (exec .derive s) := by
  rw [raisedError]
  split
  case isTrue htv =>
    rw [exec_derive_no_tree hrun htv]
    exact .raises _ _
  case isFalse htv =>
    rw [Bool.not_eq_false] at htv
    cases hout : treeRecords s with
    | none =>
      rw [exec_derive_undefined hrun htv hout]
      exact .stops htv hout
    | some out =>
      rw [exec_derive hrun htv hout]
      exact .completes _ _ (.inl (by simp)) (by simp) (by simp) (by simp)

theorem execOutcome_ild (x : Sym) : ExecOutcome s (.ild x) (raisedError s (.ild x)) (exec (.ild x) s) := by
  rw [raisedError]
  by_cases hlen : s.CW.len = 0
  · rw [if_pos hlen, exec_ild_empty hrun x hlen]
    exact .raises _ _
  rw [if_neg hlen]
  cases hheld : s.ict s.CW with
  | none =>
    rw [exec_ild_new hrun x hlen hheld]
    exact .of_test (s.ICTN = 256) fun _ => .completes _ _ (.inl rfl) rfl rfl rfl
  | some y =>
    by_cases hxy : y = x
    · subst hxy
      rw [exec_ild_same hrun hlen hheld]
      simpa using .completes _ _ (.inl rfl) rfl rfl rfl
    · rw [exec_ild_duplicate hrun hlen hheld hxy]
      simpa [hxy] using .raises _ _

theorem execOutcome_ilk : ExecOutcome s .ilk none (exec .ilk s) := by
  by_cases hmiss : s.CW.len = 0 ∨ s.ict s.CW = none
  · rw [exec_ilk_miss hrun hmiss]
    exact .completes _ _ (.inl rfl) rfl rfl rfl
  · rw [not_or] at hmiss
    obtain ⟨x, hx⟩ := Option.ne_none_iff_exists'.1 hmiss.2
    rw [exec_ilk_hit hrun x hmiss.1 hx]
    exact .completes _ _ (.inl rfl) rfl rfl rfl

theorem execOutcome_eflush : ExecOutcome s .eflush none (exec .eflush s) := by
  by_cases hcnt : s.PK.cnt = 0
  · rw [exec_eflush_of_cnt_eq_zero hrun hcnt]
    exact .completes _ _ (.inl rfl) rfl rfl rfl
  · rw [exec_eflush_of_cnt_ne_zero hrun hcnt]
    exact .completes _ _ (.inl rfl) rfl rfl rfl

theorem execOutcome_crd (x : Sym) : ExecOutcome s (.crd x) none (exec (.crd x) s) := by
  cases hvalid : (s.ct x).valid with
  | true =>
    rw [exec_crd_of_valid hrun hvalid]
    exact .completes _ _ (.inl rfl) rfl rfl rfl
  | false =>
    rw [exec_crd_of_not_valid hrun hvalid]
    exact .completes _ _ (.inl rfl) rfl rfl rfl

/-- In phase RUN every command raises its error, or completes, or is DERIVE on an arena that is no tree. -/
theorem execOutcome_of_run (i : Instr) : ExecOutcome s i (raisedError s i) (exec i s) := by
  cases i with
  | nop => exact execOutcome_of_executesInFault rfl
  | srst => exact execOutcome_of_executesInFault rfl
  | eclr => exact execOutcome_of_executesInFault rfl
  | csrr n => exact execOutcome_csrr hrun n
  | fclr => exact exec_fclr hrun ▸ .completes _ _ (.inl rfl) rfl rfl rfl
  | fset x count => exact exec_fset hrun x count ▸ .completes _ _ (.inl rfl) rfl rfl rfl
  | finc x => exact exec_finc hrun x ▸ .of_test _ fun _ => .completes _ _ (.inl rfl) rfl rfl rfl
  | frd x => exact exec_frd hrun x ▸ .completes _ _ (.inl rfl) rfl rfl rfl
  | build =>
    exact exec_build hrun ▸ .of_test _ fun _ => .completes _ _ (.inl (by simp)) (by simp) (by simp) (by simp)
  | nrd n =>
    exact exec_nrd hrun n ▸ .of_test _ fun _ => .of_test _ fun _ => .completes _ _ (.inl rfl) rfl rfl rfl
  | derive => exact execOutcome_derive hrun
  | enc x =>
    exact exec_enc hrun x ▸ .of_test _ fun _ => .completes _ _ (.inl (by simp)) (by simp) (by simp) (by simp)
  | eflush => exact execOutcome_eflush hrun
  | dbits n imm =>
    exact exec_dbits hrun n imm ▸ .of_test _ fun _ => .completes _ _ (.inl (by simp)) (by simp) (by simp) (by simp)
  | dend => exact exec_dend hrun ▸ .of_test _ fun _ => .completes _ _ (.inl rfl) rfl rfl rfl
  | drst => exact exec_drst hrun ▸ .completes _ _ (.inl rfl) rfl rfl rfl
  | cwclr => exact exec_cwclr hrun ▸ .completes _ _ (.inl rfl) rfl rfl rfl
  | cwapp n imm =>
    exact exec_cwapp hrun n imm ▸ .of_test _ fun _ => .of_test _ fun _ => .completes _ _ (.inl rfl) rfl rfl rfl
  | cwrd j => exact exec_cwrd hrun j ▸ .of_test _ fun _ => .completes _ _ (.inl rfl) rfl rfl rfl
  | cclr => exact exec_cclr hrun ▸ .completes _ _ (.inl rfl) rfl rfl rfl
  | cld x => exact exec_cld hrun x ▸ .of_test _ fun _ => .completes _ _ (.inl rfl) rfl rfl rfl
  | crd x => exact execOutcome_crd hrun x
  | iclr => exact exec_iclr hrun ▸ .completes _ _ (.inl rfl) rfl rfl rfl
  | ild x => exact execOutcome_ild hrun x
  | ilk => exact execOutcome_ilk hrun

end Run

/-- A command that raises an error ends in fault entry. -/
theorem exec_of_raisedError {s : State} {i : Instr} {e : CmdError} (hrun : s.PH = .run)
    (he : raisedError s i = some e) : exec i s = .next (faultEntry (encode i) e s) := by
  have hout := execOutcome_of_run hrun i
  rw [he] at hout
  generalize exec i s = r at hout ⊢
  cases hout
  rfl

/-- ERRINFO of UnknownSymbolError (R213): the Symbol. -/
theorem errorInfo_unknownSymbol_toNat (x : Sym) : (errorInfo (.unknownSymbol x)).toNat = x.toNat :=
  BitVec.toNat_setWidth_of_le (by decide)

/-- Settles O34: ENC raises the error before it appends, and fault entry keeps PK and EO. -/
theorem encRejectsUnknownSymbol : Obligations.EncRejectsUnknownSymbol := by
  intro s x hrun hvalid
  have he : raisedError s (.enc x) = some (.unknownSymbol x) := if_pos hvalid
  exact ⟨_, exec_of_raisedError hrun he, rfl, rfl, errorInfo_unknownSymbol_toNat x, rfl, rfl, faultEntry_frame s _ _⟩

/-- The code of the error the command raises, if any (R210). -/
def raisedCode (s : State) (i : Instr) : Option (BitVec 4) := (raisedError s i).map errorCode

/-- From phase RUN the phase FAULT with a code is the error raised with that code. -/
theorem fault_iff_raisedCode {i : Instr} {s t : State} (hrun : s.PH = .run) (hexec : exec i s = .next t)
    (c : BitVec 4) : (t.PH = .fault ∧ t.ERRCODE = c) ↔ raisedCode s i = some c := by
  have hout := execOutcome_of_run hrun i
  rw [hexec] at hout
  rw [raisedCode]
  generalize raisedError s i = o at hout
  cases hout with
  | raises i e => simp
  | completes i d hPH =>
    have hphase := hPH.elim (·.trans hrun) id
    simp [hphase]

theorem map_errorCode_ite (p : Prop) [Decidable p] (a b : Option CmdError) :
    (if p then a else b).map errorCode = if p then a.map errorCode else b.map errorCode := apply_ite ..

/-- Settles O12: the phase and the code are those of the error raised (`fault_iff_raisedCode`), which for each command
is the first of its tests that fails. -/
theorem eachErrorHasItsCause : Obligations.EachErrorHasItsCause := by
  intro i s t hrun hexec
  simp only [fault_iff_raisedCode hrun hexec, raisedCode]
  cases i
  case ild x => cases hheld : s.ict s.CW <;> simp [raisedError, errorCode, map_errorCode_ite, ite_eq_iff, hheld]
  case dbits | cwapp =>
    simp [raisedError, errorCode, map_errorCode_ite, ite_eq_iff, legalBitCount_eq_false_iff]
    omega
  all_goals
    simp [raisedError, errorCode, map_errorCode_ite, ite_eq_iff, legalChunk_eq_false_iff, legalCsr_eq_false_iff,
      legalNode_eq_false_iff, count_eq_max_iff]

end Sys2Proof.Machine
end

section
/-! What becomes of every command word: the spec's order of checks (60_exceptions.md R223), read off the fields of the
word, finds what decoding and the command's own tests find. -/

namespace Sys2Proof.Machine

/-- The verdict of R223 on a command that is not refused. -/
def verdictOf : Option CmdError → Verdict
  | some e => .error e
  | none => .completes

@[simp] theorem verdictOf_some (e : CmdError) : verdictOf (some e) = .error e := rfl

@[simp] theorem verdictOf_none : verdictOf none = .completes := rfl

@[simp] theorem verdictOf_ite (p : Prop) [Decidable p] (a b : Option CmdError) :
    verdictOf (if p then a else b) = if p then verdictOf a else verdictOf b := apply_ite ..

theorem opField_encode (i : Instr) : opField (encode i) = i.opcode := opField_packWord ..

theorem aField_encode (i : Instr) : aField (encode i) = i.fields.1 := aField_packWord ..

theorem bField_encode (i : Instr) : bField (encode i) = i.fields.2.1 := bField_packWord ..

/-- Checks 5 to 7 of R223, read off the word, are the tests of its command, whose static ranges have passed. Where a
case ends in `rfl`, the two sides differ only in that the decision of a test still names a field of the word. -/
theorem ownChecks_encode {i : Instr} (hi : WellFormed i) (s : State) :
    ownChecks (encode i) s = verdictOf (raisedError s i) := by
  rw [ownChecks, opField_encode, aField_encode, bField_encode]
  cases i
  case finc x => simp [raisedError, Instr.opcode, Instr.fields] <;> rfl
  case nrd n => simp [raisedError, Instr.opcode, Instr.fields, legalNode] <;> rfl
  case enc x => cases hvalid : (s.ct x).valid <;> simp [raisedError, Instr.opcode, Instr.fields, hvalid]
  case dend => simp [raisedError, Instr.opcode, Nat.pos_iff_ne_zero, ← BitVec.toNat_inj]
  case cwapp n imm =>
    have hn : legalBitCount n = true := hi
    simp [raisedError, Instr.opcode, Instr.fields, hn] <;> rfl
  case ild x => cases hheld : s.ict s.CW <;> simp [raisedError, Instr.opcode, Instr.fields, hheld] <;> rfl
  all_goals simp_all [raisedError, Instr.opcode, WellFormed, Instr.operandsInRange]

/-- The commands with the four lowest opcodes are those that execute in both phases (R224). -/
theorem executesInFault_iff (i : Instr) :
    executesInFault i = true ↔ (opField (encode i)).toNat ≤ 3 ∧ WellFormed i := by
  rw [opField_encode]
  cases i <;> simp [executesInFault, Instr.opcode, WellFormed, Instr.operandsInRange, legalCsr]

/-- A word that matches a row has the row's opcode. -/
theorem opcodeAssigned_of_matchesRow {w : Cmd} (hm : matchesRow w = true) : opcodeAssigned w = true := by
  obtain ⟨f, make, hr, -⟩ := (matchesRow_iff w).1 hm
  exact (opcodeAssigned_iff w).2 ⟨f, make, hr⟩

/-- A word that does not decode fails its first check in phase FAULT at the phase, in phase RUN where decoding does. -/
theorem orderOfChecks_of_decode_error {w : Cmd} {cause : IllegalCause} (hdec : decode w = .error cause) (s : State) :
    orderOfChecks w s = if s.PH = .fault then .refused else .error (.illegalCommand cause) := by
  obtain ⟨hopcode, hreserved, hrange, -⟩ := decodeRejectsInOrder w
  cases cause with
  | unassignedOpcode =>
    have ha := hopcode.1 hdec
    have hm : matchesRow w = false := by simpa [ha] using mt (@opcodeAssigned_of_matchesRow w)
    simp [orderOfChecks, ha, hm]
  | reservedNotZero =>
    obtain ⟨ha, hm⟩ := hreserved.1 hdec
    simp [orderOfChecks, ha, hm]
  | operandOutOfRange =>
    obtain ⟨ha, hm, hs⟩ := hrange.1 hdec
    simp [orderOfChecks, ha, hm, hs]

/-- A word that decodes passed the three tests of R97, as it ends in none of their errors. -/
theorem checks_of_decode_ok {w : Cmd} {i : Instr} (hdec : decode w = .ok i) :
    opcodeAssigned w = true ∧ matchesRow w = true ∧ staticRangeOk w = true := by
  obtain ⟨hopcode, hreserved, hrange, -⟩ := decodeRejectsInOrder w
  simp_all

/-- A word that decodes is refused in phase FAULT unless its command executes there; otherwise its command's tests
decide. -/
theorem orderOfChecks_of_decode_ok {w : Cmd} {i : Instr} (hdec : decode w = .ok i) (s : State) :
    orderOfChecks w s =
      if s.PH = .fault ∧ executesInFault i = false then .refused else verdictOf (raisedError s i) := by
  obtain ⟨ha, hm, hs⟩ := checks_of_decode_ok hdec
  obtain rfl := encode_of_decode hdec
  have hi : WellFormed i := by rwa [WellFormed, ← staticRangeOk_encode]
  have hfault : executesInFault i = false ↔ ¬ (opField (encode i)).toNat ≤ 3 := by
    rw [← Bool.not_eq_true, executesInFault_iff, and_iff_left hi]
  simp [orderOfChecks, ha, hm, hs, hfault, ownChecks_encode hi]

/-- What R222 to R224 say a word ends in, by its verdict. -/
def EndsAs (w : Cmd) (s : State) (r : Result) : Verdict → Prop
  | .refused => r = .next (s.answer 15 0)
  | .error e => r = .next (faultEntry w e s)
  | .completes => ∃ t d, r = .next t ∧ t.RSP = s.RSP ++ [{ err := 0, data := d }] ∧
      (t.PH = s.PH ∨ t.PH = .run) ∧ t.script = s.script ∧ t.pc = s.pc

/-- On states that meet the tree invariants a command that is not refused ends as its verdict says: DERIVE finds its
records. -/
theorem ExecOutcome.endsAs {s : State} {i : Instr} {o : Option CmdError} {r : Result} (h : ExecOutcome s i o r)
    (htree : TreeOk s) : EndsAs (encode i) s r (verdictOf o) := by
  cases h with
  | raises => rfl
  | completes i d hPH hRSP hscript hpc => exact ⟨_, d, rfl, by simp [hRSP], hPH, hscript, hpc⟩
  | stops htv hnone =>
    obtain ⟨out, hout, -⟩ := treeRecords_eq (htree.tree htv)
    exact nomatch hnone.symm.trans hout

/-- The commands that execute in phase FAULT have no test that can fail. -/
theorem raisedError_of_executesInFault {i : Instr} (hi : executesInFault i = true) (s : State) :
    raisedError s i = none := by
  cases i <;> simp_all [executesInFault, raisedError, legalCsr]

/-- R223: every word ends as its first failing check says. -/
theorem acceptWord_endsAs (w : Cmd) {s : State} (htree : TreeOk s) :
    EndsAs w s (acceptWord w s) (orderOfChecks w s) := by
  cases hdec : decode w with
  | error cause =>
    rw [orderOfChecks_of_decode_error hdec]
    obtain ⟨hPH, hill⟩ | ⟨hPH, hill⟩ := illegalWord_cases w cause s <;>
      simp [acceptWord, hdec, hPH, hill, EndsAs]
  | ok i =>
    obtain rfl := encode_of_decode hdec
    have hacc : acceptWord (encode i) s = exec i s := by simp [acceptWord, hdec]
    rw [hacc, orderOfChecks_of_decode_ok hdec]
    cases hPH : s.PH with
    | run => simpa using (execOutcome_of_run hPH i).endsAs htree
    | fault =>
      cases hi : executesInFault i with
      | false => simpa [EndsAs] using exec_refused hPH hi
      | true =>
        simpa [raisedError_of_executesInFault hi] using (execOutcome_of_executesInFault (s := s) hi).endsAs htree

/-- Settles O9: `EndsAs` writes out what the statement says of each verdict. -/
theorem orderOfChecksDecidesEveryWord : Obligations.OrderOfChecksDecidesEveryWord :=
  fun w _ htree => acceptWord_endsAs w htree

end Sys2Proof.Machine
end

section
/-! The encoder and the decoder are inverse to each other (30_encoding.md R90 to R98, R102). -/

namespace Sys2Proof.Machine

/-- The law of `Laws.EncodesInItsFormat`, of every command. -/
theorem encodesInItsFormat (i : Instr) : Laws.EncodesInItsFormat.Statement i := by
  open Laws.EncodesInItsFormat in
  cases i with
  | nop => exact nop
  | srst => exact srst
  | eclr => exact eclr
  | csrr n => exact csrr n
  | fclr => exact fclr
  | fset x count => exact fset x count
  | finc x => exact finc x
  | frd x => exact frd x
  | build => exact build
  | nrd n => exact nrd n
  | derive => exact derive
  | enc x => exact enc x
  | eflush => exact eflush
  | dbits n bits => exact dbits n bits
  | dend => exact dend
  | drst => exact drst
  | cwclr => exact cwclr
  | cwapp n bits => exact cwapp n bits
  | cwrd j => exact cwrd j
  | cclr => exact cclr
  | cld x => exact cld x
  | crd x => exact crd x
  | iclr => exact iclr
  | ild x => exact ild x
  | ilk => exact ilk

/-- The word of a command passes the first two tests of R97, and the third exactly when its operands are in range. -/
theorem decode_encode (i : Instr) :
    decode (encode i) = if i.operandsInRange = true then .ok i else .error .operandOutOfRange := by
  obtain ⟨hop, hzero, make, hrow, hmake⟩ := encodesInItsFormat i
  rw [← hop] at hrow
  rw [decode_of_reservedZero hrow hzero, staticRangeOk_encode, hmake]

/-- Settles O2: the two branches of `decode_encode`. -/
theorem decodeOfEncode : Obligations.DecodeOfEncode :=
  fun i => ⟨fun hi => (decode_encode i).trans (if_pos hi), fun hi => (decode_encode i).trans (if_neg hi)⟩

theorem wellFormed_of_decode {w : Cmd} {i : Instr} (hdec : decode w = .ok i) : WellFormed i := by
  obtain ⟨-, -, hrange⟩ := checks_of_decode_ok hdec
  rwa [← encode_of_decode hdec, staticRangeOk_encode] at hrange

/-- Settles O3: a word that decodes has passed every test, its operands' ranges among them. -/
theorem encodeOfDecode : Obligations.EncodeOfDecode :=
  fun _ _ hdec => ⟨encode_of_decode hdec, wellFormed_of_decode hdec⟩

/-- A word written out as the encoding of a command decodes to it. -/
theorem decode_of_encode_eq {w : Cmd} {i : Instr} (hw : encode i = w) (hi : WellFormed i) : decode w = .ok i :=
  hw ▸ (decodeOfEncode i).1 hi

/-- Settles O1: each of the nine words is the encoding of its command. -/
theorem workedWordsDecode : Obligations.WorkedWordsDecode :=
  ⟨decode_of_encode_eq rfl rfl, decode_of_encode_eq rfl rfl, decode_of_encode_eq rfl rfl, decode_of_encode_eq rfl rfl,
    decode_of_encode_eq rfl rfl, decode_of_encode_eq rfl rfl, decode_of_encode_eq rfl rfl, decode_of_encode_eq rfl rfl,
    decode_of_encode_eq rfl rfl⟩

end Sys2Proof.Machine
end

section
/-! The command port: what a step makes of the host's next action (10_state.md R23; 60_exceptions.md R222 to R226,
R231). -/

namespace Sys2Proof.Machine

theorem acceptWord_of_decode_ok {w : Cmd} {i : Instr} (hdec : decode w = .ok i) (s : State) :
    acceptWord w s = exec i s := by
  simp [acceptWord, hdec]

theorem acceptWord_of_decode_error {w : Cmd} {cause : IllegalCause} (hdec : decode w = .error cause) (s : State) :
    acceptWord w s = .next (illegalWord w cause s) := by
  simp [acceptWord, hdec]

theorem step_of_nothing {s : State} (hnext : s.script[s.pc]? = none) : step s = .next s := by
  simp [step, nextAction, hnext]

theorem step_of_reset {s : State} (hnext : s.script[s.pc]? = some .reset) : step s = .next (hardReset (advance s)) := by
  simp [step, nextAction, hnext, act]

theorem step_of_command {s : State} {w : Cmd} (hnext : s.script[s.pc]? = some (.command w)) :
    step s = acceptWord w (advance s) := by
  simp [step, nextAction, hnext, act]

/-- Settles O5: the word is accepted in the state with its index advanced, and decodes. -/
theorem stepRunsDecodedCommand : Obligations.StepRunsDecodedCommand := by
  intro s w i hnext hdec
  rw [step_of_command hnext, acceptWord_of_decode_ok hdec]
  rfl

/-- ERRINFO of IllegalCommand (R217): the sub-cause number. -/
theorem errorInfo_illegalCommand_toNat (cause : IllegalCause) :
    (errorInfo (.illegalCommand cause)).toNat = (illegalNumber cause).toNat :=
  BitVec.toNat_setWidth_of_le (by decide)

/-- Settles O6: the two cases of `illegalWord_cases`, by the phase. -/
theorem stepFaultsOnIllegalWord : Obligations.StepFaultsOnIllegalWord := by
  intro s w cause hnext hdec
  rw [step_of_command hnext, acceptWord_of_decode_error hdec]
  obtain ⟨hfault, hill⟩ | ⟨hrun, hill⟩ := illegalWord_cases w cause (advance s) <;> rw [hill]
  · exact ⟨fun _ => rfl, fun hrun => absurd (hfault.symm.trans hrun) (by decide)⟩
  · refine ⟨fun hfault => absurd (hfault.symm.trans hrun) (by decide), fun _ => ?_⟩
    refine ⟨_, rfl, rfl, rfl, rfl, ?_, rfl, rfl⟩
    rw [faultEntry_ERRINFO, errorInfo_illegalCommand_toNat]
    cases cause <;> rfl

/-- Settles O7: with nothing presented a step keeps the state, and `rst` ends in `hardReset`. -/
theorem stepWaitsAndResets : Obligations.StepWaitsAndResets :=
  fun s => ⟨step_of_nothing, fun hnext => ⟨_, step_of_reset hnext, atReset_hardReset (advance s),
    hardReset_EO _, hardReset_DO _, hardReset_RSP _, hardReset_script _, hardReset_pc _⟩⟩

/-- The placed action is the next one, whatever the length of the script before. -/
theorem getElem?_placeAction (a : HostAction) (s : State) : (placeAction a s)[s.pc]? = some a := by
  have hlen : (s.script.take s.pc ++ List.replicate (s.pc - s.script.length) (HostAction.command 0)).length = s.pc := by
    simp only [List.length_append, List.length_take, List.length_replicate]
    omega
  rw [placeAction, List.getElem?_append_right hlen.le, hlen, Nat.sub_self, List.getElem?_cons_zero]

theorem withFetchWord_encode (s : State) (i : Instr) :
    (s.withFetchWord 64 (encode i).toNat).script[s.pc]? = some (.command (encode i)) := by
  have hw : BitVec.ofNat 64 ((encode i).toNat % 2 ^ 64) = encode i := by
    rw [Nat.mod_eq_of_lt (encode i).isLt, BitVec.ofNat_toNat, BitVec.setWidth_eq]
  rw [State.withFetchWord, hw]
  exact getElem?_placeAction _ s

/-- Settles O8: the placed word is the next one presented, and decodes to its command (O2). -/
theorem placedWordRunsNext : Obligations.PlacedWordRunsNext := fun s i hi =>
  stepRunsDecodedCommand (s.withFetchWord 64 (encode i).toNat) (encode i) i (withFetchWord_encode s i)
    ((decodeOfEncode i).1 hi)

/-- The two commands that acknowledge a fault leave phase FAULT with its registers cleared (R202, R225). -/
theorem exec_acknowledgement {i : Instr} (hi : i = .eclr ∨ i = .srst) {s t : State} (hexec : exec i s = .next t) :
    t.PH = .run ∧ t.ERRCODE = 0 ∧ t.ERRCMD = 0 ∧ t.ERRINFO = 0 := by
  obtain rfl | rfl := hi
  · cases hexec
    exact ⟨rfl, rfl, rfl, rfl⟩
  · cases hexec
    exact ⟨rfl, rfl, rfl, rfl⟩

/-- Settles O10: an illegal word and every command but ECLR and SRST leave phase FAULT and its registers as they are. -/
theorem faultsDoNotNest : Obligations.FaultsDoNotNest := by
  intro w s t hfault hacc
  have heclr : decode (encode .eclr) = .ok .eclr := (decodeOfEncode .eclr).1 rfl
  have hsrst : decode (encode .srst) = .ok .srst := (decodeOfEncode .srst).1 rfl
  cases hdec : decode w with
  | error cause =>
    rw [acceptWord_of_decode_error hdec, illegalWord, whenRun_fault hfault] at hacc
    cases hacc
    refine .inl ⟨hfault, rfl, rfl, rfl, ?_, ?_⟩
    · rintro rfl
      cases hdec.symm.trans heclr
    · rintro rfl
      cases hdec.symm.trans hsrst
  | ok i =>
    rw [acceptWord_of_decode_ok hdec] at hacc
    by_cases hi : i = .eclr ∨ i = .srst
    · obtain ⟨hPH, hcode, hcmd, hinfo⟩ := exec_acknowledgement hi hacc
      refine .inr ⟨hPH, hcode, hcmd, hinfo, ?_⟩
      rw [← encode_of_decode hdec]
      exact hi.imp (congrArg encode) (congrArg encode)
    · rw [not_or] at hi
      obtain ⟨u, e, d, heff, rfl, -⟩ := exec_effect hacc
      obtain rfl | ⟨hsr, -⟩ | ⟨hec, -⟩ := heff.cases_of_fault hfault
      · refine .inl ⟨hfault, rfl, rfl, rfl, ?_, ?_⟩
        · rintro rfl
          exact hi.1 (Except.ok.inj (hdec.symm.trans heclr))
        · rintro rfl
          exact hi.2 (Except.ok.inj (hdec.symm.trans hsrst))
      · exact absurd hsr hi.2
      · exact absurd hec hi.1

/-- Settles O54: the fault entry of `exec_csrr_unassigned` in phase RUN, the refusal in phase FAULT. -/
theorem csrrRejectsUnassigned : Obligations.CsrrRejectsUnassigned := by
  intro s n hn
  cases hPH : s.PH with
  | run =>
    exact ⟨_, exec_csrr_unassigned hPH hn, 
      fun _ => ⟨rfl, rfl, rfl, rfl, rfl, hPH ▸ faultEntry_frame s _ _⟩, nofun⟩
  | fault =>
    have hnot : executesInFault (.csrr n) = false := decide_eq_false hn.not_ge
    exact ⟨_, exec_refused hPH hnot, nofun, fun _ => ⟨rfl, rfl⟩⟩

end Sys2Proof.Machine
end

section
/-! Canonical bit-strings (00_scope.md R10; 10_state.md R29 to R33; 30_encoding.md R95): each effect of a command keeps
them, and so does every step. -/

namespace Sys2Proof.Machine

/-- R33: the accumulator is canonical, and has overflowed only when it holds 255 bits. -/
abbrev AccOk (a : Accumulator) : Prop := a.str.Canonical ∧ (a.ovf = true → a.str.len = 255)

theorem accOk_emptyAcc : AccOk emptyAcc := ⟨canonical_emptyStr, nofun⟩

theorem decBit_accOk {s : State} (x : Bool) (h : AccOk s.ACC) : AccOk (decBit s x).1.ACC := by
  obtain ⟨hcan, hovf⟩ := h
  obtain ⟨-, hd⟩ | ⟨-, hfull, hd⟩ | ⟨hno, hroom, -, hd⟩ | ⟨hno, -, r, -, hd⟩ := decBit_cases s x <;> rw [hd]
  · exact ⟨hcan, hovf⟩
  · exact ⟨hcan, fun _ => hfull⟩
  · have hlt : s.ACC.str.len.toNat < 255 := by
      have hne := mt (BitVec.eq_of_toNat_eq (x := s.ACC.str.len) (y := 255#8)) hroom
      have hle := s.ACC.str.len.isLt
      simp only [BitVec.toNat_ofNat] at hne
      omega
    exact ⟨BitStr.canonical_push hcan hlt x, fun h => absurd (hno.symm.trans h) (by decide)⟩
  · exact ⟨canonical_emptyStr, fun h => absurd (hno.symm.trans h) (by decide)⟩

theorem decBits_accOk (l : List Bool) {s : State} (m : Nat) (h : AccOk s.ACC) : AccOk (decBits s m l).1.ACC := by
  induction l generalizing s m with
  | nil => exact h
  | cons x xs ih => exact ih _ (decBit_accOk x h)

/-- The short beat EFLUSH makes of a packer that is not empty (R163). -/
theorem beatOk_of_packerOk {p : Packer} (hp : PackerOk p) (hcnt : 0 < p.cnt.toNat) :
    BeatOk { data := p.buf, cnt := p.cnt.setWidth 6 } := by
  have hlt := p.cnt.isLt
  have hwide : (p.cnt.setWidth 6).toNat = p.cnt.toNat := BitVec.toNat_setWidth_of_le (by decide)
  simp only [BeatOk, hwide]
  exact ⟨hcnt, by omega, hp⟩

theorem packerOk_emptyPacker : PackerOk emptyPacker := BitVec.zero_ushiftRight

theorem one_le_len_toNat {c : BitStr} (h : c.len ≠ 0) : 1 ≤ c.len.toNat :=
  Nat.pos_of_ne_zero (mt (BitVec.eq_of_toNat_eq (y := 0#8)) h)

/-- Every effect of a command keeps the bit-strings canonical. -/
theorem BitsOk.effect {s u : State} {i : Instr} (h : BitsOk s) (heff : Effect s i u) : BitsOk u := by
  cases heff with
  | same | fault | eclr | fclr | fset | finc => exact { h with }
  | srst =>
    exact { cw := canonical_emptyStr, acc := accOk_emptyAcc.1, ovf := accOk_emptyAcc.2, pk := packerOk_emptyPacker,
            ct := by simp, ict := by simp, beats := h.beats }
  | build =>
    exact { cw := by simpa using h.cw, acc := by simpa using h.acc, ovf := by simpa using h.ovf,
            pk := by simpa using h.pk, ct := by simpa using h.ct, ict := by simpa using h.ict,
            beats := by simpa using h.beats }
  | derive out hrun htv hout =>
    have hlen := treeRecords_lengths hout
    have hcode : ∀ r ∈ out, 1 ≤ (BitStr.ofList r.1).len.toNat ∧ (BitStr.ofList r.1).Canonical := by
      intro r hr
      rw [BitStr.len_ofList (hlen r hr).2]
      exact ⟨(hlen r hr).1, BitStr.canonical_ofList (hlen r hr).2⟩
    refine { cw := by simpa using h.cw, acc := by simpa using h.acc, ovf := by simpa using h.ovf,
             pk := by simpa using h.pk, beats := by simpa using h.beats, ct := fun x hx => ?_, ict := fun p hp => ?_ }
    · obtain ⟨r, hr, he⟩ := installCodes_valid hx
      rw [he]
      exact hcode r hr
    · obtain ⟨r, hr, rfl⟩ := mem_installCodes_ICT hp
      exact hcode r hr
  | enc x =>
    obtain ⟨hpk, hbeats⟩ := foldl_pkAppend_ok (s.ct x).code.toList h.pk h.beats
    exact { cw := by simpa using h.cw, acc := by simpa using h.acc, ovf := by simpa using h.ovf, pk := hpk,
            ct := by simpa using h.ct, ict := by simpa using h.ict, beats := hbeats }
  | eflush_beat hrun hcnt =>
    have hbeats : ∀ b ∈ s.EO ++ [{ data := s.PK.buf, cnt := s.PK.cnt.setWidth 6 }], BeatOk b := by
      simp only [List.forall_mem_append, List.forall_mem_singleton]
      exact ⟨h.beats, beatOk_of_packerOk h.pk hcnt⟩
    exact { h with pk := packerOk_emptyPacker, beats := hbeats }
  | eflush_none => exact { h with pk := packerOk_emptyPacker }
  | dbits n imm =>
    obtain ⟨hacc, hovf⟩ := decBits_accOk (bitsOf imm n.toNat) 0 ⟨h.acc, h.ovf⟩
    exact { cw := by simpa using h.cw, acc := hacc, ovf := hovf, pk := by simpa using h.pk,
            ct := by simpa using h.ct, ict := by simpa using h.ict, beats := by simpa using h.beats }
  | drst => exact { h with acc := accOk_emptyAcc.1, ovf := accOk_emptyAcc.2 }
  | cwclr => exact { h with cw := canonical_emptyStr }
  | cwapp n imm hrun hfits => exact { h with cw := BitStr.canonical_append h.cw (by rwa [length_bitsOf]) }
  | cclr => exact { h with ct := by simp }
  | cld x hrun hlen =>
    refine { h with ct := fun y hy => ?_ }
    rw [setCt_ct] at hy ⊢
    split
    case isTrue => exact ⟨one_le_len_toNat hlen, h.cw⟩
    case isFalse hne =>
      rw [if_neg hne] at hy
      exact h.ct y hy
  | crd_valid x hrun hvalid => exact { h with cw := (h.ct x hvalid).2 }
  | crd_empty => exact { h with cw := canonical_emptyStr }
  | iclr => exact { h with ict := nofun }
  | ild x hrun hlen hnew =>
    refine { h with ict := fun p hp => ?_ }
    obtain rfl | hp := Table.mem_put hp
    · exact ⟨one_le_len_toNat hlen, h.cw⟩
    · exact h.ict p hp

theorem BitsOk.answer {s : State} (h : BitsOk s) (e : BitVec 4) (d : BitVec 64) : BitsOk (s.answer e d) := { h with }

theorem BitsOk.exec {s t : State} {i : Instr} (h : BitsOk s) (hexec : exec i s = .next t) : BitsOk t := by
  obtain ⟨u, e, d, heff, rfl, -⟩ := exec_effect hexec
  exact (h.effect heff).answer e d

theorem bitsOk_hardReset (s : State) : BitsOk (hardReset s) where
  cw := canonical_emptyStr
  acc := canonical_emptyStr
  ovf := nofun
  pk := packerOk_emptyPacker
  ct := nofun
  ict := nofun
  beats := nofun

theorem BitsOk.illegalWord {s : State} (h : BitsOk s) (w : Cmd) (cause : IllegalCause) :
    BitsOk (illegalWord w cause s) := by
  obtain ⟨-, hill⟩ | ⟨-, hill⟩ := illegalWord_cases w cause s <;> rw [hill]
  · exact h.answer 15 0
  · exact { h with }

/-- Settles O15: no step but a reset and the effect of a command touches a bit-string. -/
theorem stepKeepsBitsCanonical : Obligations.StepKeepsBitsCanonical := by
  intro s t h hstep
  have hadv : BitsOk (advance s) := { h with }
  obtain ⟨-, rfl⟩ | ⟨-, rfl⟩ | ⟨w, cause, -, -, rfl⟩ | ⟨w, i, u, e, d, -, -, heff, rfl, -⟩ := step_cases hstep
  · exact h
  · exact bitsOk_hardReset (advance s)
  · exact hadv.illegalWord w cause
  · exact (hadv.effect heff).answer e d

end Sys2Proof.Machine
end

section
/-! The tree invariants (10_state.md R27, R28): BUILD makes a tree, a reset clears its registers, and nothing else
touches it. -/

namespace Sys2Proof.Machine

/-- The tree invariants are about NN, ROOT, TV and the arena alone. -/
theorem TreeOk.congr {s t : State} (h : TreeOk s) (hnn : t.NN = s.NN) (hroot : t.ROOT = s.ROOT) (htv : t.TV = s.TV)
    (hnode : ∀ i, t.node i = s.node i) : TreeOk t where
  tree ht := isTree_congr (h.tree (htv ▸ ht)) hnn hroot hnode
  no_tree ht := by rw [hnn, hroot]; exact h.no_tree (htv ▸ ht)

/-- With no tree the registers of the tree are 0 (R27). -/
theorem treeOk_of_no_tree {s : State} (htv : s.TV = false) (hnn : s.NN = 0) (hroot : s.ROOT = 0) : TreeOk s where
  tree ht := absurd (htv.symm.trans ht) (by decide)
  no_tree _ := ⟨hnn, hroot⟩

theorem treeOk_built {s : State} (hK : 1 ≤ s.K) : TreeOk (installTree s (builtNodes s)) where
  tree _ := built_isTree hK
  no_tree := nofun

theorem TreeOk.effect {s u : State} {i : Instr} (h : TreeOk s) (heff : Effect s i u) : TreeOk u := by
  cases heff with
  | srst => exact treeOk_of_no_tree rfl rfl rfl
  | build hrun hK => exact treeOk_built hK
  | derive | enc | dbits => exact h.congr (by simp) (by simp) (by simp) (by simp)
  | same | fault | eclr | fclr | fset | finc | eflush_beat | eflush_none | drst | cwclr | cwapp | cclr | cld | crd_valid
    | crd_empty | iclr | ild => exact h.congr rfl rfl rfl fun _ => rfl

theorem TreeOk.answer {s : State} (h : TreeOk s) (e : BitVec 4) (d : BitVec 64) : TreeOk (s.answer e d) :=
  h.congr rfl rfl rfl fun _ => rfl

theorem treeOk_hardReset (s : State) : TreeOk (hardReset s) := treeOk_of_no_tree rfl rfl rfl

theorem TreeOk.illegalWord {s : State} (h : TreeOk s) (w : Cmd) (cause : IllegalCause) :
    TreeOk (illegalWord w cause s) := by
  obtain ⟨-, hill⟩ | ⟨-, hill⟩ := illegalWord_cases w cause s <;> rw [hill]
  · exact h.answer 15 0
  · exact h.congr rfl rfl rfl fun _ => rfl

theorem TreeOk.advance {s : State} (h : TreeOk s) : TreeOk (advance s) := h.congr rfl rfl rfl fun _ => rfl

/-- Settles O16: no step but a reset and the effect of a command touches the tree. -/
theorem stepKeepsTree : Obligations.StepKeepsTree := by
  intro s t h hstep
  obtain ⟨-, rfl⟩ | ⟨-, rfl⟩ | ⟨w, cause, -, -, rfl⟩ | ⟨w, i, u, e, d, -, -, heff, rfl, -⟩ := step_cases hstep
  · exact h
  · exact treeOk_hardReset (Machine.advance s)
  · exact h.advance.illegalWord w cause
  · exact (h.advance.effect heff).answer e d

/-- Settles O18: a step waits, resets or accepts a word, and on a tree every word ends in a next state. -/
theorem stepNeverStops : Obligations.StepNeverStops := by
  intro s h
  cases hnext : s.script[s.pc]? with
  | none => exact ⟨_, step_of_nothing hnext⟩
  | some a =>
    cases a with
    | reset => exact ⟨_, step_of_reset hnext⟩
    | command w =>
      have hends := acceptWord_endsAs w h.tree.advance
      rw [step_of_command hnext]
      cases hverdict : orderOfChecks w (advance s) with
      | refused =>
        rw [hverdict] at hends
        exact ⟨_, hends⟩
      | error e =>
        rw [hverdict] at hends
        exact ⟨_, hends⟩
      | completes =>
        rw [hverdict] at hends
        obtain ⟨t, d, ht, -⟩ := hends
        exact ⟨t, ht⟩

end Sys2Proof.Machine
end

section
/-! What a successful BUILD leaves (41_tree_builder.md R130 to R139): a tree, its leaves the counts, a function of FT
alone. -/

namespace Sys2Proof.Machine

@[simp] theorem installTree_TV (s : State) (nodes : List Node) : (installTree s nodes).TV = true := rfl

/-- The root's frequency is TOTAL (R136). -/
theorem built_root_freq {s : State} (hK : 1 ≤ s.K) :
    ((installTree s (builtNodes s)).node (installTree s (builtNodes s)).ROOT).freq.toNat = s.TOTAL := by
  obtain ⟨-, -, -, -, htotal⟩ := builtNodes_spec hK
  have hroot := built_ROOT hK
  rw [← hroot, built_freq hK (by omega)] at htotal
  exact htotal

/-- Settles O24: the arena is the tree of `built_isTree`, and its registers answer as TREEINFO does. -/
theorem buildMakesTree : Obligations.BuildMakesTree := by
  intro s hrun hcount
  have hK := (one_le_K_iff s).2 hcount
  have htree : IsTree ((installTree s (builtNodes s)).answer 0 (treeInfoReg (installTree s (builtNodes s)))) :=
    isTree_congr (built_isTree hK) (answer_NN ..) (answer_ROOT ..) (answer_node _ _ _)
  refine ⟨_, treeInfoReg (installTree s (builtNodes s)), exec_build_of_one_le_K hrun hK, ?_⟩
  simp only [answer_TV, answer_NN, answer_ROOT, answer_node, answer_RSP, installTree_RSP]
  refine ⟨installTree_TV .., built_NN hK, built_ROOT hK, htree, built_root_freq hK, trivial, treeInfoReg_toNat _, ?_⟩
  exact (congrArg (fun v : State => { v with RSP := s.RSP }) (installTree_frame s (builtNodes s)) :)

/-- Settles O25: the first K entries are those of `leavesOf`, whose Symbols rise. -/
theorem buildLeavesAreTheCounts : Obligations.BuildLeavesAreTheCounts := by
  intro s t hrun hcount ht
  have hK := (one_le_K_iff s).2 hcount
  rw [exec_build_of_one_le_K hrun hK] at ht
  cases ht
  simp only [answer_node]
  refine ⟨fun x => ⟨fun hx => ?_, ?_⟩, fun i j f x g y hij hj hi hj' => ?_⟩
  · obtain ⟨n, hn, hget⟩ := List.mem_iff_getElem.1 (mem_leavesOf hx)
    have hle := K_le s
    have hnK : n < s.K := length_leavesOf s ▸ hn
    have hi : (BitVec.ofNat 9 n).toNat = n := Nat.mod_eq_of_lt (by omega)
    have hiK : (BitVec.ofNat 9 n).toNat < s.K := hi.trans_lt hnK
    have hleaf := built_leaf hK hiK
    rw [hi, List.getElem?_eq_getElem hn, hget] at hleaf
    exact ⟨BitVec.ofNat 9 n, hiK, (Option.some.inj hleaf).symm⟩
  · rintro ⟨i, hi, hnode⟩
    obtain ⟨y, hy, hleaf⟩ := leavesOf_mem (List.mem_of_getElem? (built_leaf hK hi))
    obtain ⟨-, rfl⟩ := Node.leaf.inj (hnode.symm.trans hleaf)
    exact hy
  · have htree := built_isTree hK
    rw [← built_leafCount hK] at hj
    exact htree.rising i j f x g y hij hj hi hj'

theorem leavesOf_congr {s s' : State} (hft : ∀ x, s.ft x = s'.ft x) : leavesOf s = leavesOf s' := by
  simp only [leavesOf, hft]

theorem K_congr {s s' : State} (hft : ∀ x, s.ft x = s'.ft x) : s.K = s'.K := by
  simp only [State.K, hft]

/-- The arena BUILD makes is a function of the counts (R139). -/
theorem builtNodes_congr {s s' : State} (hft : ∀ x, s.ft x = s'.ft x) : builtNodes s = builtNodes s' := by
  simp only [builtNodes, startBuilding, leavesOf_congr hft]

/-- Equal counts make equal trees: the same registers, and the same entries below NN. -/
theorem built_congr {s s' : State} (hK : 1 ≤ s.K) (hft : ∀ x, s.ft x = s'.ft x) :
    (installTree s (builtNodes s)).NN = (installTree s' (builtNodes s')).NN ∧
    (installTree s (builtNodes s)).ROOT = (installTree s' (builtNodes s')).ROOT ∧
    ∀ i : Idx, i.toNat < (installTree s (builtNodes s)).NN.toNat →
      (installTree s (builtNodes s)).node i = (installTree s' (builtNodes s')).node i := by
  have hnodes := builtNodes_congr hft
  refine ⟨by simp [installTree, hnodes], by simp [installTree, hnodes], fun i hi => ?_⟩
  rw [built_NN hK] at hi
  have hleft := built_node hK hi
  have hright := built_node (K_congr hft ▸ hK) (K_congr hft ▸ hi)
  have hsame := congrArg (fun nodes => nodes[i.toNat]?) hnodes
  exact Option.some.inj (hleft.symm.trans (hsame.trans hright))

/-- Settles O27: both runs install the arena of the same counts. -/
theorem buildIsDeterministic : Obligations.BuildIsDeterministic := by
  intro s s' t t' hrun hrun' hcount hft ht ht'
  have hK := (one_le_K_iff s).2 hcount
  rw [exec_build_of_one_le_K hrun hK] at ht
  rw [exec_build_of_one_le_K hrun' (K_congr hft ▸ hK)] at ht'
  cases ht
  cases ht'
  obtain ⟨hnn, hroot, hnode⟩ := built_congr hK hft
  simp only [answer_NN, answer_ROOT, answer_TV, answer_node, installTree_TV]
  exact ⟨hnn, hroot, trivial, hnode⟩

end Sys2Proof.Machine
end

section
/-! DERIVE on a tree (42_code_table_deriver.md R150 to R155): it completes, and its tables hold the paths to the
leaves. -/

namespace Sys2Proof.Machine

theorem nodup_map_ofList {out : List CodeRecord} (hnodup : (out.map Prod.fst).Nodup)
    (hlen : ∀ r ∈ out, r.1.length ≤ 255) : (out.map fun r => BitStr.ofList r.1).Nodup := by
  rw [List.nodup_iff_pairwise_ne, List.pairwise_map] at hnodup ⊢
  exact hnodup.imp_of_mem fun ha hb hne he => hne (BitStr.ofList_injective (hlen _ ha) (hlen _ hb) he)

/-- What DERIVE leaves of a tree's codewords in both tables. -/
structure DerivedFrom (s t : State) : Prop where
  valid : ∀ x, (t.ct x).valid = true ↔ ∃ c, IsCodeOf s x c
  code  : ∀ x c, IsCodeOf s x c → t.ct x = { valid := true, code := BitStr.ofList c }
  ict   : ∀ k x, t.ict k = some x ↔ ∃ c, IsCodeOf s x c ∧ k = BitStr.ofList c
  ctn   : t.CTN = leafCount s
  ictn  : t.ICTN = leafCount s

section Tree

variable {s : State} (htree : IsTree s)
include htree

/-- A codeword of a tree has 1 to max(1, k − 1) bits (R152, R153). -/
theorem IsTree.code_length {x : Sym} {c : List Bool} (hc : IsCodeOf s x c) :
    1 ≤ c.length ∧ c.length ≤ max 1 (leafCount s - 1) := by
  obtain ⟨out, -, hmem, -, -, -, hlen⟩ := treeRecords_eq htree
  exact hlen (c, x) ((hmem (c, x)).2 hc)

theorem IsTree.code_length_le {x : Sym} {c : List Bool} (hc : IsCodeOf s x c) : c.length ≤ 255 := by
  have hlen := htree.code_length hc
  have hsize := htree.size
  omega

/-- The Symbols that have a codeword are those of the leaves. -/
theorem IsTree.exists_code_iff (x : Sym) :
    (∃ c, IsCodeOf s x c) ↔ ∃ (i : Idx) (f : Freq), i.toNat < leafCount s ∧ s.node i = .leaf f x := by
  constructor
  · rintro ⟨c, ⟨f, hroot, -⟩ | ⟨-, i, f, hpath, hi⟩⟩
    · exact ⟨s.ROOT, f, htree.leaf_index htree.root_lt hroot, hroot⟩
    · exact ⟨i, f, htree.leaf_index (htree.path_index (pathTo_iff.1 hpath)) hi, hi⟩
  · rintro ⟨i, f, hlt, hi⟩
    have hsize := htree.size
    obtain ⟨c, hc⟩ := htree.exists_path i (by omega)
    by_cases hne : c = []
    · subst hne
      cases hc
      exact ⟨[false], .inl ⟨f, hi, rfl⟩⟩
    · exact ⟨c, .inr ⟨hne, i, f, pathTo_iff.2 hc, hi⟩⟩

/-- The records of a tree, installed, are its codewords. -/
theorem IsTree.derivedFrom {out : List CodeRecord} (hout : treeRecords s = some out) :
    DerivedFrom s (installCodes s out) := by
  obtain ⟨out', hout', hmem, hsyms, hcodes, hcount, -⟩ := treeRecords_eq htree
  cases hout.symm.trans hout'
  have hshort : ∀ r ∈ out, r.1.length ≤ 255 := fun r hr => htree.code_length_le ((hmem r).1 hr)
  obtain ⟨hvalid, hct, hict, hictn, hctn⟩ := installCodes_spec hsyms (nodup_map_ofList hcodes hshort) s
  refine ⟨fun x => ?_, fun x c hc => hct (c, x) ((hmem (c, x)).2 hc), fun k x => ?_, by rw [hctn, hcount],
    by rw [hictn, hcount]⟩
  · simp [hvalid x, hmem]
  · rw [hict]
    constructor
    · rintro ⟨r, hr, rfl, rfl⟩
      exact ⟨r.1, (hmem r).1 hr, rfl⟩
    · rintro ⟨c, hc, rfl⟩
      exact ⟨(c, x), (hmem (c, x)).2 hc, rfl, rfl⟩

end Tree

/-- DERIVE on a tree answers the number of codes, from a state with the tree's codewords in its tables. -/
theorem exec_derive_of_tree {s : State} (hrun : s.PH = .run) (htv : s.TV = true) (htree : IsTree s) :
    ∃ out, exec .derive s = .next ((installCodes s out).answer 0 (BitVec.ofNat 64 (leafCount s))) ∧
      DerivedFrom s (installCodes s out) := by
  obtain ⟨out, hout, -⟩ := treeRecords_eq htree
  have hd := htree.derivedFrom hout
  refine ⟨out, ?_, hd⟩
  rw [exec_derive hrun htv hout, hd.ctn]

/-- Settles O29: the entries are those of `DerivedFrom`, and a Symbol has a codeword when it has a leaf. -/
theorem deriveCompletesOnTree : Obligations.DeriveCompletesOnTree := by
  intro s hrun htv htree
  obtain ⟨out, hexec, hd⟩ := exec_derive_of_tree hrun htv htree
  have hsize := htree.size
  have hanswer : (BitVec.ofNat 64 (leafCount s)).toNat = leafCount s := Nat.mod_eq_of_lt (by omega)
  refine ⟨_, _, hexec, by rw [answer_RSP, installCodes_RSP], hanswer, hd.ctn, hd.ictn,
    fun x => (hd.valid x).trans (htree.exists_code_iff x), ?_⟩
  exact (congrArg (fun v : State => { v with RSP := s.RSP }) (installCodes_frame s out) :)

theorem derivedFrom_of_exec {s t : State} (hrun : s.PH = .run) (htv : s.TV = true) (htree : IsTree s)
    (ht : exec .derive s = .next t) : DerivedFrom s t := by
  obtain ⟨out, hexec, hd⟩ := exec_derive_of_tree hrun htv htree
  cases hexec.symm.trans ht
  exact { hd with }

/-- A valid entry holds the codeword of its Symbol. -/
theorem DerivedFrom.exists_code {s t : State} (hd : DerivedFrom s t) {x : Sym} (hx : (t.ct x).valid = true) :
    ∃ c, IsCodeOf s x c ∧ (t.ct x).code = BitStr.ofList c := by
  obtain ⟨c, hc⟩ := (hd.valid x).1 hx
  exact ⟨c, hc, congrArg CodeEntry.code (hd.code x c hc)⟩

/-- Settles O30: the pair that holds a codeword of at most 255 bits reads as it. -/
theorem deriveCodesAreTreePaths : Obligations.DeriveCodesAreTreePaths := by
  intro s t hrun htv htree ht
  have hd := derivedFrom_of_exec hrun htv htree ht
  constructor
  · intro x hx
    obtain ⟨c, hc, he⟩ := hd.exists_code hx
    have hle := htree.code_length_le hc
    rw [he, BitStr.toList_ofList hle, BitStr.len_ofList hle]
    exact ⟨hc, BitStr.canonical_ofList hle, htree.code_length hc⟩
  · intro x c hc
    rw [hd.code x c hc]
    exact ⟨rfl, rfl⟩

theorem DerivedFrom.prefixFree {s t : State} (hd : DerivedFrom s t) (htree : IsTree s) : PrefixFree t := by
  intro x y hx hy hpre
  obtain ⟨c, hc, hcx⟩ := hd.exists_code hx
  obtain ⟨d, hd', hdy⟩ := hd.exists_code hy
  rw [hcx, hdy, BitStr.toList_ofList (htree.code_length_le hc), BitStr.toList_ofList (htree.code_length_le hd')] at hpre
  exact isCodeOf_prefix_free hc hd' hpre

theorem DerivedFrom.ictInverts {s t : State} (hd : DerivedFrom s t) : IctInverts t := by
  intro k x
  rw [hd.ict]
  constructor
  · rintro ⟨c, hc, rfl⟩
    rw [hd.code x c hc]
    exact ⟨rfl, rfl⟩
  · rintro ⟨hx, rfl⟩
    exact hd.exists_code hx

/-- Settles O31: codewords are paths to leaves, and no path goes on below a leaf. -/
theorem derivedCodeIsPrefixFree : Obligations.DerivedCodeIsPrefixFree :=
  fun _ _ hrun htv htree ht => (derivedFrom_of_exec hrun htv htree ht).prefixFree htree

/-- Settles O32: both tables hold the same codewords of the same Symbols. -/
theorem derivedTablesAreInverse : Obligations.DerivedTablesAreInverse :=
  fun _ _ hrun htv htree ht => (derivedFrom_of_exec hrun htv htree ht).ictInverts

end Sys2Proof.Machine
end

section
/-! The spec's invariants together (10_state.md R22 to R33; 20_memory.md R60; 30_encoding.md R93). -/

namespace Sys2Proof.Machine

theorem FaultRegistersOk.congr {s t : State} (h : FaultRegistersOk s) (hPH : t.PH = s.PH)
    (hcode : t.ERRCODE = s.ERRCODE) (hcmd : t.ERRCMD = s.ERRCMD) (hinfo : t.ERRINFO = s.ERRINFO) :
    FaultRegistersOk t where
  code_iff := by rw [hPH, hcode]; exact h.code_iff
  code_le := by rw [hcode]; exact h.code_le
  clear := by rw [hPH, hcmd, hinfo]; exact h.clear

theorem faultRegistersOk_faultEntry (s : State) (w : Cmd) (e : CmdError) : FaultRegistersOk (faultEntry w e s) where
  code_iff := iff_of_true (errorCode_le e).2 rfl
  code_le := (errorCode_le e).1
  clear := nofun

theorem faultRegistersOk_of_clear {s : State} (hPH : s.PH = .run) (hcode : s.ERRCODE = 0) (hcmd : s.ERRCMD = 0)
    (hinfo : s.ERRINFO = 0) : FaultRegistersOk s where
  code_iff := by simp [hPH, hcode]
  code_le := by simp [hcode]
  clear _ := ⟨hcmd, hinfo⟩

theorem FaultRegistersOk.effect {s u : State} {i : Instr} (h : FaultRegistersOk s) (heff : Effect s i u) :
    FaultRegistersOk u := by
  cases heff with
  | fault i e => exact (faultRegistersOk_faultEntry s (encode i) e).congr rfl rfl rfl rfl
  | srst | eclr => exact faultRegistersOk_of_clear rfl rfl rfl rfl
  | build | derive | enc | dbits => exact h.congr (by simp) (by simp) (by simp) (by simp)
  | same | fclr | fset | finc | eflush_beat | eflush_none | drst | cwclr | cwapp | cclr | cld | crd_valid | crd_empty
    | iclr | ild => exact h.congr rfl rfl rfl rfl

theorem wf_effect {s u : State} {i : Instr} (h : Memory.wf s) (heff : Effect s i u) : Memory.wf u := by
  cases heff with
  | srst => exact wf_softReset h
  | fclr => exact wf_clearFt h
  | fset x count => exact wf_setFt h x count
  | finc x => exact wf_setFt h x _
  | build => exact wf_installTree h _
  | derive out => exact wf_installCodes h out
  | enc => exact wf_pkAppends h _
  | dbits => exact wf_decBits h _ _
  | cclr => exact wf_clearCt h
  | cld x => exact wf_setCt h x _
  | iclr => exact wf_clearIct h
  | ild x => exact wf_insertIct h _ x
  | same | fault | eclr | eflush_beat | eflush_none | drst | cwclr | cwapp | crd_valid | crd_empty => exact h

/-- ICT stays within its capacity: DERIVE makes one entry a leaf, ILD tests for room (R30). -/
theorem ictSizeOk_effect {s u : State} {i : Instr} (h : IctSizeOk s) (htree : TreeOk s) (heff : Effect s i u) :
    IctSizeOk u := by
  cases heff with
  | srst | iclr => exact Nat.zero_le _
  | derive out hrun htv hout =>
    have ht := htree.tree htv
    rw [IctSizeOk, (ht.derivedFrom hout).ictn]
    exact ht.size.2.1
  | ild x hrun hlen hnew hroom =>
    rw [IctSizeOk, insertIct_ICTN hnew]
    exact Nat.succ_le_of_lt (lt_of_le_of_ne h hroom)
  | build | enc | dbits => simpa using h
  | same | fault | eclr | fclr | fset | finc | eflush_beat | eflush_none | drst | cwclr | cwapp | cclr | cld | crd_valid
    | crd_empty => exact h

/-- No effect writes the response history or the host's script and index (10_state.md R23). -/
theorem Effect.host {s u : State} {i : Instr} (heff : Effect s i u) :
    u.RSP = s.RSP ∧ u.script = s.script ∧ u.pc = s.pc := by
  cases heff with
  | build | derive | enc | dbits => simp
  | same | fault | srst | eclr | fclr | fset | finc | eflush_beat | eflush_none | drst | cwclr | cwapp | cclr | cld
    | crd_valid | crd_empty | iclr | ild => exact ⟨rfl, rfl, rfl⟩

theorem Inv.effect {s u : State} {i : Instr} (h : Inv s) (heff : Effect s i u) : Inv u := by
  obtain ⟨hrsp, hscript, hpc⟩ := heff.host
  exact {
    memory := wf_effect h.memory heff
    faultRegs := h.faultRegs.effect heff
    bits := h.bits.effect heff
    tree := h.tree.effect heff
    ictSize := ictSizeOk_effect h.ictSize h.tree heff
    responses := by rw [hrsp]; exact h.responses
    index := by rw [hscript, hpc]; exact h.index }

/-- One more legal response keeps the invariants (R93). -/
theorem Inv.answer {s : State} (h : Inv s) {e : BitVec 4} {d : BitVec 64}
    (hlegal : Response.Legal { err := e, data := d }) : Inv (s.answer e d) where
  memory := h.memory
  faultRegs := h.faultRegs.congr rfl rfl rfl rfl
  bits := h.bits.answer e d
  tree := h.tree.answer e d
  ictSize := h.ictSize
  responses := by
    rw [answer_RSP]
    simp only [List.forall_mem_append, List.forall_mem_singleton]
    exact ⟨h.responses, hlegal⟩
  index := h.index

/-- A presented action lies within the script, so the index after it does too. -/
theorem Inv.advance {s : State} (h : Inv s) {a : HostAction} (hnext : nextAction s = some a) : Inv (advance s) where
  memory := h.memory
  faultRegs := h.faultRegs.congr rfl rfl rfl rfl
  bits := { h.bits with }
  tree := h.tree.advance
  ictSize := h.ictSize
  responses := h.responses
  index := (List.getElem?_eq_some_iff.1 hnext).1

theorem legal_fault (e : CmdError) : Response.Legal { err := errorCode e, data := 0 } :=
  ⟨.inl (errorCode_le e).1, fun _ => rfl⟩

theorem legal_refused : Response.Legal { err := 15, data := 0 } := ⟨.inr rfl, fun _ => rfl⟩

theorem Inv.illegalWord {s : State} (h : Inv s) (w : Cmd) (cause : IllegalCause) : Inv (illegalWord w cause s) := by
  obtain ⟨-, hill⟩ | ⟨-, hill⟩ := illegalWord_cases w cause s
  · rw [hill]
    exact h.answer legal_refused
  · exact {
      memory := by rw [hill]; exact h.memory
      faultRegs := by rw [hill]; exact faultRegistersOk_faultEntry s w _
      bits := h.bits.illegalWord w cause
      tree := h.tree.illegalWord w cause
      ictSize := by rw [hill]; exact h.ictSize
      responses := by
        rw [hill, faultEntry_RSP]
        simp only [List.forall_mem_append, List.forall_mem_singleton]
        exact ⟨h.responses, legal_fault _⟩
      index := by rw [hill]; exact h.index }

/-- The reset state, whatever the host still plans. -/
theorem inv_hardReset {s : State} (hindex : s.pc ≤ s.script.length) : Inv (hardReset s) where
  memory := wf_hardReset s
  faultRegs := faultRegistersOk_of_clear rfl rfl rfl rfl
  bits := bitsOk_hardReset s
  tree := treeOk_hardReset s
  ictSize := Nat.zero_le _
  responses := nofun
  index := hindex

/-- Settles O14: the state after reset is what `rst` makes of itself. -/
theorem resetMeetsInvariant : Obligations.ResetMeetsInvariant := inv_hardReset (s := State.reset) (Nat.le_refl 0)

/-- Settles O17: one case for each thing a step can do, each invariant kept by its own lemma. -/
theorem stepKeepsInvariant : Obligations.StepKeepsInvariant := by
  intro s t h hstep
  obtain ⟨-, rfl⟩ | ⟨hnext, rfl⟩ | ⟨w, cause, hnext, -, rfl⟩ | ⟨w, i, u, e, d, hnext, -, heff, rfl, hlegal⟩ :=
    step_cases hstep
  · exact h
  · exact inv_hardReset (h.advance hnext).index
  · exact (h.advance hnext).illegalWord w cause
  · exact ((h.advance hnext).effect heff).answer hlegal

end Sys2Proof.Machine
end

section
/-! Which command writes which item (20_memory.md R60), and the streams, which only grow (10_state.md R34, R35). -/

namespace Sys2Proof.Machine

/-- Settles O56: each effect writes the items of its own command, fault entry those of a fault, a response none. -/
theorem onlyItsCommandsWriteEachItem : Obligations.OnlyItsCommandsWriteEachItem := by
  intro i s t hexec
  obtain ⟨u, e, d, heff, rfl, -⟩ := exec_effect hexec
  cases heff
  case fault hrun => simp [hrun]
  all_goals simp

/-- Every effect leaves what EO and DO held at their beginning. -/
theorem Effect.streams_grow {s u : State} {i : Instr} (heff : Effect s i u) : s.EO <+: u.EO ∧ s.DO <+: u.DO := by
  cases heff with
  | enc x =>
    obtain ⟨new, hEO, -⟩ := foldl_pkAppend_beats (s.ct x).code.toList s
    exact ⟨⟨new, hEO.symm⟩, by simp⟩
  | eflush_beat => exact ⟨List.prefix_append _ _, List.prefix_rfl⟩
  | dbits n imm =>
    obtain ⟨new, hDO, -⟩ := decBits_emits (bitsOf imm n.toNat) s 0
    exact ⟨by simp, ⟨new, hDO.symm⟩⟩
  | build | derive => simp
  | same | fault | srst | eclr | fclr | fset | finc | eflush_none | drst | cwclr | cwapp | cclr | cld | crd_valid
    | crd_empty | iclr | ild => exact ⟨List.prefix_rfl, List.prefix_rfl⟩

/-- Settles O57: the effects let the streams grow, and the response comes after those given before. -/
theorem streamsOnlyGrow : Obligations.StreamsOnlyGrow := by
  intro i s t hexec
  obtain ⟨u, e, d, heff, rfl, -⟩ := exec_effect hexec
  obtain ⟨hEO, hDO⟩ := heff.streams_grow
  obtain ⟨hRSP, -⟩ := heff.host
  exact ⟨hEO, hDO, by rw [answer_RSP, hRSP]; exact List.prefix_append _ _⟩

end Sys2Proof.Machine
end

section
/-! Command sequences: what every command keeps a sequence keeps, and sequences all of whose commands complete. -/

namespace Sys2Proof.Machine

/-- What every command keeps, a sequence of commands keeps. -/
theorem execAll_keeps {P : State → Prop} (hexec : ∀ {i s t}, P s → exec i s = .next t → P t) {is : List Instr}
    {s t : State} (hs : P s) (h : execAll is s = .next t) : P t := by
  induction is generalizing s with
  | nil =>
    cases h
    exact hs
  | cons i is ih =>
    cases he : exec i s with
    | next u =>
      rw [execAll_cons he] at h
      exact ih (hexec hs he) h
    | fault r => simp [execAll, he] at h
    | refused r => simp [execAll, he] at h

theorem BitsOk.execAll {is : List Instr} {s t : State} (hs : BitsOk s) (h : execAll is s = .next t) : BitsOk t :=
  execAll_keeps BitsOk.exec hs h

theorem execAll_EO_grows {is : List Instr} {s t : State} (h : execAll is s = .next t) : s.EO <+: t.EO :=
  execAll_keeps (P := fun u => s.EO <+: u.EO) (fun hu he => hu.trans (streamsOnlyGrow _ _ _ he).1) List.prefix_rfl h

/-- Between two states every response reports success: err 0 (30_encoding.md R93). -/
def AllComplete (s t : State) : Prop := ∃ new : List Response, t.RSP = s.RSP ++ new ∧ ∀ r ∈ new, r.err = 0

theorem AllComplete.refl (s : State) : AllComplete s s := ⟨[], by simp, by simp⟩

theorem AllComplete.trans {s t u : State} (h1 : AllComplete s t) (h2 : AllComplete t u) : AllComplete s u := by
  obtain ⟨a, ha, ha0⟩ := h1
  obtain ⟨b, hb, hb0⟩ := h2
  exact ⟨a ++ b, by rw [hb, ha, List.append_assoc], List.forall_mem_append.2 ⟨ha0, hb0⟩⟩

/-- One command that answers err 0. -/
theorem allComplete_answer {s u : State} (hu : u.RSP = s.RSP) (d : BitVec 64) : AllComplete s (u.answer 0 d) :=
  ⟨[{ err := 0, data := d }], by rw [answer_RSP, hu], by simp⟩

end Sys2Proof.Machine
end

section
/-! Counting a text (10_state.md R25; 40_frequency_table.md R122). -/

namespace Sys2Proof.Machine

/-- FINC of each symbol of a text adds its occurrences to the counts, as long as none overflows. -/
theorem execAll_finc (text : List Sym) {s : State} (hrun : s.PH = .run)
    (hroom : ∀ x, (s.ft x).toNat + text.count x < 2 ^ 32) :
    ∃ t, execAll (text.map .finc) s = .next t ∧ (∀ x, (t.ft x).toNat = (s.ft x).toNat + text.count x) ∧
      { t with FT := s.FT, RSP := s.RSP } = s ∧ AllComplete s t := by
  induction text generalizing s with
  | nil => exact ⟨s, rfl, by simp, rfl, .refl s⟩
  | cons x xs ih =>
    have hx := hroom x
    rw [List.count_cons_self] at hx
    have hlt : (s.ft x).toNat < 2 ^ 32 - 1 := by omega
    have hfirst : ∀ y, ((s.setFt x (s.ft x + 1)).ft y).toNat + xs.count y = (s.ft y).toNat + (x :: xs).count y := by
      intro y
      rw [setFt_ft]
      split
      case isTrue hy =>
        rw [hy, count_succ_toNat hlt, List.count_cons_self]
        omega
      case isFalse hy => rw [List.count_cons_of_ne (Ne.symm hy)]
    obtain ⟨t, ht, hcount, hframe, hok⟩ :=
      ih (s := (s.setFt x (s.ft x + 1)).answer 0 ((s.ft x + 1).setWidth 64)) hrun
        fun y => (hfirst y).trans_lt (hroom y)
    refine ⟨t, ?_, fun y => (hcount y).trans (hfirst y), ?_, (allComplete_answer rfl _).trans hok⟩
    · rw [List.map_cons, execAll_cons (exec_finc_of_lt hrun hlt), ht]
    · exact (congrArg (fun v : State => { v with FT := s.FT, RSP := s.RSP }) hframe).trans
        (setFt_answer_frame s x _ _ _)

/-- FCLR and one FINC a symbol leave the numbers of occurrences. -/
theorem execAll_tally (text : List Sym) {s : State} (hrun : s.PH = .run) (hroom : ∀ x, text.count x < 2 ^ 32) :
    ∃ t, execAll (.fclr :: text.map .finc) s = .next t ∧ (∀ x, (t.ft x).toNat = text.count x) ∧
      { t with FT := s.FT, RSP := s.RSP } = s ∧ AllComplete s t := by
  have hzero : ∀ x, ((({ s with FT := [] } : State).answer 0 0).ft x).toNat + text.count x = text.count x :=
    fun x => Nat.zero_add _
  obtain ⟨t, ht, hcount, hframe, hok⟩ :=
    execAll_finc text (s := ({ s with FT := [] } : State).answer 0 0) hrun fun x => (hzero x).trans_lt (hroom x)
  refine ⟨t, by rw [execAll_cons (exec_fclr hrun), ht], fun x => (hcount x).trans (hzero x), ?_,
    (allComplete_answer rfl 0).trans hok⟩
  exact (congrArg (fun v : State => { v with FT := s.FT, RSP := s.RSP }) hframe :)

/-- In a list of all Symbols, each once, the occurrences in a text add up to its length. -/
theorem sum_count_eq_length {syms : List Sym} (hnodup : syms.Nodup) (hall : ∀ x, x ∈ syms) (text : List Sym) :
    (syms.map fun x => text.count x).sum = text.length := by
  rw [← List.sum_toFinset _ hnodup]
  have hsum := Multiset.sum_count_eq_card (s := syms.toFinset) (m := (text : Multiset Sym)) fun x _ =>
    List.mem_toFinset.2 (hall x)
  simpa using hsum

/-- Settles O22: the counts are those of `execAll_tally`, and add up to the length. -/
theorem tallyCountsTheInput : Obligations.TallyCountsTheInput := by
  intro s text hrun hlen
  obtain ⟨t, ht, hcount, hframe, -⟩ := execAll_tally text hrun fun x => (List.count_le_length).trans_lt hlen
  refine ⟨t, ht, (congrArg State.PH hframe :).trans hrun, hcount, ?_⟩
  simp only [State.TOTAL, hcount, sum_count_eq_length nodup_allSyms mem_allSyms]

end Sys2Proof.Machine
end

section
/-! Encoding a text (43_encoder.md R160 to R164). -/

namespace Sys2Proof.Machine

theorem exec_enc_of_valid {s : State} (hrun : s.PH = .run) {x : Sym} (hvalid : (s.ct x).valid = true) :
    exec (.enc x) s =
      .next (((s.ct x).code.toList.foldl pkAppend s).answer 0 ((s.ct x).code.len.setWidth 64)) := by
  rw [exec_enc hrun, if_neg (ne_false_of_eq_true hvalid)]

theorem encodedBits_answer (s : State) (e : BitVec 4) (d : BitVec 64) :
    encodedBits (s.answer e d) = encodedBits s := rfl

/-- Settles O33: the bits of the codeword go through the bit-packer one by one. -/
theorem encAppendsCodeword : Obligations.EncAppendsCodeword := by
  intro s x hrun hvalid
  have hanswer : ((s.ct x).code.len.setWidth 64).toNat = (s.ct x).code.len.toNat :=
    BitVec.toNat_setWidth_of_le (by decide)
  obtain ⟨new, hEO, hfull, hcount, -⟩ := foldl_pkAppend_beats (s.ct x).code.toList s
  rw [BitStr.length_toList] at hcount
  refine ⟨_, _, exec_enc_of_valid hrun hvalid, by rw [answer_RSP, pkAppends_RSP], hanswer,
    encodedBits_foldl_pkAppend _ s, ⟨new, hEO, hfull, hcount⟩, ?_⟩
  exact (congrArg (fun v : State => { v with RSP := s.RSP }) (foldl_pkAppend_frame (s.ct x).code.toList s) :)

/-- One ENC for each symbol of a text appends the codewords in order. -/
theorem execAll_enc (text : List Sym) {s : State} (hrun : s.PH = .run) (hvalid : ∀ x ∈ text, (s.ct x).valid = true) :
    ∃ t, execAll (text.map .enc) s = .next t ∧
      encodedBits t = encodedBits s ++ text.flatMap (fun x => (s.ct x).code.toList) ∧
      { t with PK := s.PK, EO := s.EO, RSP := s.RSP } = s ∧ AllComplete s t := by
  induction text generalizing s with
  | nil => exact ⟨s, rfl, by simp, rfl, .refl s⟩
  | cons x xs ih =>
    obtain ⟨hx, hxs⟩ := List.forall_mem_cons.1 hvalid
    obtain ⟨u, d, hexec, hRSP, -, hbits, -, hframe⟩ := encAppendsCodeword s x hrun hx
    have hct : ∀ y, u.ct y = s.ct y := fun y => (congrArg (fun v => State.ct v y) hframe :)
    obtain ⟨t, ht, htbits, htframe, hok⟩ := ih (s := u) ((congrArg State.PH hframe :).trans hrun) (by simpa only [hct])
    refine ⟨t, by rw [List.map_cons, execAll_cons hexec, ht], ?_, ?_,
      AllComplete.trans ⟨_, hRSP, by simp⟩ hok⟩
    · simp only [htbits, hbits, hct, List.flatMap_cons, List.append_assoc]
    · exact (congrArg (fun v : State => { v with PK := s.PK, EO := s.EO, RSP := s.RSP }) htframe).trans hframe

/-- The stream law (R164), with what the sequence leaves unchanged. -/
theorem execAll_encode (text : List Sym) {s : State} (hrun : s.PH = .run) (hPK : s.PK.cnt = 0)
    (hvalid : ∀ x ∈ text, (s.ct x).valid = true) :
    ∃ t, execAll (text.map .enc ++ [.eflush]) s = .next t ∧
      bitsEO t = bitsEO s ++ text.flatMap (fun x => (s.ct x).code.toList) ∧
      { t with PK := s.PK, EO := s.EO, RSP := s.RSP } = s ∧ AllComplete s t := by
  obtain ⟨u, hu, hubits, huframe, hok⟩ := execAll_enc text hrun hvalid
  have hurun : u.PH = .run := (congrArg State.PH huframe :).trans hrun
  obtain ⟨t, d, hexec, hRSP, -, hbits, -, -, -, hframe⟩ := eflushEmitsTheRest u hurun
  refine ⟨t, ?_, ?_, ?_, hok.trans ⟨_, hRSP, by simp⟩⟩
  · rw [execAll_append hu, execAll_cons hexec, execAll_nil]
  · rw [hbits, hubits, encodedBits_of_cnt_eq_zero hPK]
  · exact (congrArg (fun v : State => { v with PK := s.PK, EO := s.EO, RSP := s.RSP }) hframe).trans huframe

/-- Settles O36: the stream of `execAll_encode`. -/
theorem encodedStreamIsTheCodewords : Obligations.EncodedStreamIsTheCodewords := by
  intro s text hrun hPK hvalid
  obtain ⟨t, ht, hbits, hframe, -⟩ := execAll_encode text hrun hPK hvalid
  exact ⟨t, ht, (congrArg State.PH hframe :).trans hrun, hbits⟩

end Sys2Proof.Machine
end

section
/-! Decoding (44_decoder.md R170 to R174): DBITS against the document's loop, and beats fed back. -/

namespace Sys2Proof.Machine

/-- Several bits: the Symbols and the accumulator are the document's (R174). -/
theorem decBits_refines (l : List Bool) {s : State} {u : List Bool} (m : Nat) (hu : AccHolds s.ACC u) :
    (decBits s m l).1.DO = s.DO ++ (documentDecode (inverseTable s) u l).1 ∧
      AccHolds (decBits s m l).1.ACC (documentDecode (inverseTable s) u l).2 := by
  induction l generalizing s u m with
  | nil => simpa [decBits, documentDecode] using hu
  | cons x xs ih =>
    obtain ⟨hDO, hACC⟩ := decBit_refines x hu
    obtain ⟨hDO', hACC'⟩ := ih (m + (decBit s x).2.toNat) hACC
    rw [inverseTable_congr (decBit_ICT s x)] at hDO' hACC'
    have hsplit := documentDecode_append (inverseTable s) u [x] xs
    rw [List.singleton_append] at hsplit
    rw [decBits, hDO', hDO, hsplit, List.append_assoc]
    exact ⟨rfl, hACC'⟩

section Run

variable {s : State} (hrun : s.PH = .run)
include hrun

theorem exec_dbits_of_legal {n : BitVec 8} (imm : BitVec 32) (hn : 1 ≤ n.toNat) (hn' : n.toNat ≤ 32) :
    exec (.dbits n imm) s = .next ((decBits s 0 (bitsOf imm n.toNat)).1.answer 0
      (BitVec.ofNat 64 (decBits s 0 (bitsOf imm n.toNat)).2)) := by
  rw [exec_dbits hrun, if_neg (ne_false_of_eq_true ((legalBitCount_iff n).2 ⟨hn, hn'⟩))]

theorem exec_dbits_of_illegal {n : BitVec 8} (imm : BitVec 32) (hn : n.toNat = 0 ∨ 32 < n.toNat) :
    exec (.dbits n imm) s = .next (faultEntry (encode (.dbits n imm)) (.illegalCommand .operandOutOfRange) s) := by
  rw [exec_dbits hrun, if_pos ((legalBitCount_eq_false_iff n).2 hn)]

end Run

/-- DBITS' response and the decoder's writes are all it changes. -/
theorem decBits_answer_frame (l : List Bool) (s : State) (m : Nat) (e : BitVec 4) (d : BitVec 64) :
    { (decBits s m l).1.answer e d with ACC := s.ACC, DO := s.DO, RSP := s.RSP } = s :=
  (congrArg (fun v : State => { v with RSP := s.RSP }) (decBits_frame l s m) :)

/-- Settles O37: the count answered is at most 32, so the response's data holds it. -/
theorem dbitsCompletes : Obligations.DbitsCompletes := by
  intro s n bits hrun
  by_cases hout : n.toNat = 0 ∨ 32 < n.toNat
  · exact ⟨_, exec_dbits_of_illegal hrun bits hout, fun h1 h32 => absurd hout (by omega),
      fun _ => ⟨rfl, rfl, rfl, rfl, faultEntry_frame s _ _⟩⟩
  · obtain ⟨new, hDO, hcount, hlen⟩ := decBits_emits (bitsOf bits n.toNat) s 0
    rw [length_bitsOf] at hlen
    have hanswer : (BitVec.ofNat 64 (decBits s 0 (bitsOf bits n.toNat)).2).toNat = new.length := by
      rw [hcount, Nat.zero_add, BitVec.toNat_ofNat]
      omega
    exact ⟨_, exec_dbits_of_legal hrun bits (by omega) (by omega),
      fun _ _ => ⟨new, _, hDO, hlen, by rw [answer_RSP, decBits_RSP], hanswer, decBits_answer_frame _ s 0 _ _⟩,
      fun h => absurd h hout⟩

/-- Settles O38: DBITS is `decBits` of its bits. -/
theorem dbitsRefinesTheDocument : Obligations.DbitsRefinesTheDocument := by
  intro s t n bits u hrun hn hn' hu ht
  rw [exec_dbits_of_legal hrun bits hn hn'] at ht
  cases ht
  exact decBits_refines (bitsOf bits n.toNat) 0 hu

/-- The bits of a list of beats (20_memory.md R69). -/
def beatBits (beats : List Beat) : List Bool := beats.flatMap fun b => bitsOf b.data b.cnt.toNat

@[simp] theorem beatBits_nil : beatBits [] = [] := rfl

theorem beatBits_cons (b : Beat) (bs : List Beat) : beatBits (b :: bs) = bitsOf b.data b.cnt.toNat ++ beatBits bs := rfl

/-- Legal beats fed to DBITS all complete, and the decoder ends as the document's does on their bits (R70, R174). -/
theorem execAll_feed (beats : List Beat) {s : State} {u : List Bool} (hrun : s.PH = .run)
    (hbeats : ∀ b ∈ beats, BeatOk b) (hu : AccHolds s.ACC u) :
    ∃ t, execAll (feedCommands beats) s = .next t ∧
      t.DO = s.DO ++ (documentDecode (inverseTable s) u (beatBits beats)).1 ∧
      AccHolds t.ACC (documentDecode (inverseTable s) u (beatBits beats)).2 ∧
      { t with ACC := s.ACC, DO := s.DO, RSP := s.RSP } = s ∧ AllComplete s t := by
  induction beats generalizing s u with
  | nil => exact ⟨s, rfl, by simp [documentDecode], hu, rfl, .refl s⟩
  | cons b bs ih =>
    obtain ⟨⟨hcnt, hcnt', -⟩, hbs⟩ := List.forall_mem_cons.1 hbeats
    have hwide : (b.cnt.setWidth 8).toNat = b.cnt.toNat := BitVec.toNat_setWidth_of_le (by decide)
    obtain ⟨v, hexec, hlegal, -⟩ := dbitsCompletes s (b.cnt.setWidth 8) b.data hrun
    obtain ⟨new, d, -, -, hRSP, -, hframe⟩ := hlegal (by omega) (by omega)
    obtain ⟨hDO, hACC⟩ := dbitsRefinesTheDocument s v _ b.data u hrun (by omega) (by omega) hu hexec
    rw [hwide] at hDO hACC
    obtain ⟨t, ht, htDO, htACC, htframe, hok⟩ := ih (s := v) ((congrArg State.PH hframe :).trans hrun) hbs hACC
    rw [inverseTable_congr (t := v) (congrArg State.ICT hframe :)] at htDO htACC
    refine ⟨t, ?_, ?_, ?_, ?_, AllComplete.trans ⟨_, hRSP, by simp⟩ hok⟩
    · rw [feedCommands, List.map_cons, execAll_cons hexec, ← feedCommands, ht]
    · rw [htDO, hDO, beatBits_cons, documentDecode_append, List.append_assoc]
    · rw [beatBits_cons, documentDecode_append]
      exact htACC
    · exact (congrArg (fun v : State => { v with ACC := s.ACC, DO := s.DO, RSP := s.RSP }) htframe).trans hframe

/-- The document's decoder on bits that are a key together and no key before their end emits one Symbol (R171). -/
theorem documentDecode_of_key {key? : List Bool → Option Sym} {x : Sym} {acc c : List Bool} (hne : c ≠ [])
    (hkey : key? (acc ++ c) = some x)
    (hbefore : ∀ p q, c = p ++ q → p ≠ [] → q ≠ [] → key? (acc ++ p) = none) :
    documentDecode key? acc c = ([x], []) := by
  induction c generalizing acc with
  | nil => exact absurd rfl hne
  | cons b bs ih =>
    by_cases hbs : bs = []
    · subst hbs
      simp [documentDecode, hkey]
    · rw [documentDecode, hbefore [b] bs rfl (by simp) hbs]
      refine ih hbs (by simpa using hkey) fun p q hpq hp hq => ?_
      have h := hbefore (b :: p) q (by rw [hpq, List.cons_append]) (by simp) hq
      simpa using h

/-- When each symbol of a text is read from its own bits, the text is read from all of them. -/
theorem documentDecode_flatMap {key? : List Bool → Option Sym} {code : Sym → List Bool} {text : List Sym}
    (hcode : ∀ x ∈ text, documentDecode key? [] (code x) = ([x], [])) :
    documentDecode key? [] (text.flatMap code) = (text, []) := by
  induction text with
  | nil => rfl
  | cons x xs ih =>
    obtain ⟨hx, hxs⟩ := List.forall_mem_cons.1 hcode
    rw [List.flatMap_cons, documentDecode_append, hx, ih hxs]
    rfl

/-- The document's inverse table of a CT whose inverse ICT is: the codewords as bit-strings. -/
theorem inverseTable_eq_some_iff {s : State} (hbits : BitsOk s) (hinv : IctInverts s) {p : List Bool} {y : Sym} :
    inverseTable s p = some y ↔ (s.ct y).valid = true ∧ (s.ct y).code.toList = p := by
  rw [inverseTable, Config.lmax]
  constructor
  · intro h
    split at h
    case isTrue hlen =>
      obtain ⟨hy, he⟩ := (hinv _ _).1 h
      exact ⟨hy, by rw [he, BitStr.toList_ofList hlen.2]⟩
    case isFalse => cases h
  · rintro ⟨hy, rfl⟩
    obtain ⟨hpos, hcan⟩ := hbits.ct y hy
    have hle := (s.ct y).code.len.isLt
    rw [if_pos (by rw [BitStr.length_toList]; omega), BitStr.ofList_toList hcan]
    exact (hinv _ _).2 ⟨hy, rfl⟩

/-- With a CT no codeword of which begins another, and its inverse, the document's decoder reads a codeword as its
Symbol. -/
theorem documentDecode_codeword {s : State} (hbits : BitsOk s) (hfree : PrefixFree s) (hinv : IctInverts s) {x : Sym}
    (hx : (s.ct x).valid = true) :
    documentDecode (inverseTable s) [] (s.ct x).code.toList = ([x], []) := by
  have hpos := (hbits.ct x hx).1
  refine documentDecode_of_key ?_ ((inverseTable_eq_some_iff hbits hinv).2 ⟨hx, rfl⟩) fun p q hpq hp hq => ?_
  · exact List.ne_nil_of_length_pos (by rwa [BitStr.length_toList])
  · -- a key that ends before the codeword does is the codeword of another Symbol, which begins it
    rw [List.nil_append]
    cases hkey : inverseTable s p with
    | none => rfl
    | some y =>
      obtain ⟨hy, he⟩ := (inverseTable_eq_some_iff hbits hinv).1 hkey
      obtain rfl := hfree y x hy hx (by rw [he, hpq]; exact List.prefix_append p q)
      exact absurd (List.self_eq_append_right.1 (he.symm.trans hpq)) hq

theorem accHolds_nil_len {a : Accumulator} (h : AccHolds a []) : a.str.len = 0 := by
  rw [accHolds_str h]
  rfl

/-- The beats a sequence adds hold the bits it adds. -/
theorem beatBits_drop {s t : State} (hgrow : s.EO <+: t.EO) {bits : List Bool} (hbits : bitsEO t = bitsEO s ++ bits) :
    beatBits (t.EO.drop s.EO.length) = bits := by
  obtain ⟨new, hnew⟩ := hgrow
  rw [bitsEO, ← hnew, List.flatMap_append] at hbits
  rw [← hnew, List.drop_left]
  exact List.append_cancel_left hbits

/-- Encoding a text and feeding its beats back (R174, R175): every command completes, and DO grows by the text. -/
theorem execAll_roundTrip (text : List Sym) {s : State} (hrun : s.PH = .run) (hbits : BitsOk s) (hfree : PrefixFree s)
    (hinv : IctInverts s) (hPK : s.PK.cnt = 0) (hACC : AccHolds s.ACC [])
    (hvalid : ∀ x ∈ text, (s.ct x).valid = true) :
    ∃ t u, execAll (text.map .enc ++ [.eflush]) s = .next t ∧
      execAll (feedCommands (t.EO.drop s.EO.length) ++ [.dend]) t = .next u ∧
      u.DO = s.DO ++ text ∧ u.PH = .run ∧ AccHolds u.ACC [] ∧ AllComplete s u := by
  obtain ⟨t, ht, htbits, htframe, htok⟩ := execAll_encode text hrun hPK hvalid
  have htrun : t.PH = .run := (congrArg State.PH htframe :).trans hrun
  have htACC : AccHolds t.ACC [] := (congrArg State.ACC htframe :).symm ▸ hACC
  have hbeats : ∀ b ∈ t.EO.drop s.EO.length, BeatOk b :=
    fun b hb => (hbits.execAll ht).beats b (List.mem_of_mem_drop hb)
  obtain ⟨v, hv, hvDO, hvACC, hvframe, hvok⟩ := execAll_feed (t.EO.drop s.EO.length) htrun hbeats htACC
  have hdecode := documentDecode_flatMap fun x hx => documentDecode_codeword hbits hfree hinv (hvalid x hx)
  rw [beatBits_drop (execAll_EO_grows ht) htbits, inverseTable_congr (t := t) (congrArg State.ICT htframe :),
    hdecode] at hvDO hvACC
  have hvrun : v.PH = .run := (congrArg State.PH hvframe :).trans htrun
  have hdend := exec_dend_of_len_eq_zero hvrun (accHolds_nil_len hvACC)
  refine ⟨t, v.answer 0 0, ht, ?_, ?_, hvrun, hvACC, (htok.trans hvok).trans (allComplete_answer rfl 0)⟩
  · rw [execAll_append hv, execAll_cons hdend, execAll_nil]
  · rw [answer_DO, hvDO, (congrArg State.DO htframe :)]

/-- Settles O41: the round trip of `execAll_roundTrip`. -/
theorem decodingInvertsEncoding : Obligations.DecodingInvertsEncoding := by
  intro s text hrun hbits hfree hinv hPK hACC hvalid
  obtain ⟨t, u, ht, hu, hDO, hPH, hACC', -⟩ := execAll_roundTrip text hrun hbits hfree hinv hPK hACC hvalid
  exact ⟨t, u, ht, hu, hDO, hPH, hACC'⟩

end Sys2Proof.Machine
end

section
/-! The document's round trip from reset (44_decoder.md R175): count, build, derive, encode, decode. -/

namespace Sys2Proof.Machine

theorem bitsOk_reset : BitsOk State.reset := resetMeetsInvariant.bits

/-- BUILD and DERIVE, from a state with a count, complete and leave the code of the tree in both tables. -/
theorem execAll_build_derive {s : State} (hrun : s.PH = .run) (hcount : ∃ x, s.ft x ≠ 0) :
    ∃ t, execAll [.build, .derive] s = .next t ∧ PrefixFree t ∧ IctInverts t ∧
      (∀ x, s.ft x ≠ 0 → (t.ct x).valid = true) ∧
      { t with NODE := s.NODE, NN := s.NN, ROOT := s.ROOT, TV := s.TV, CT := s.CT, ICT := s.ICT, RSP := s.RSP } = s ∧
      AllComplete s t := by
  obtain ⟨b, d, hb, htv, hnn, -, htree, -, hbRSP, -, hbframe⟩ := buildMakesTree s hrun hcount
  have hbrun : b.PH = .run := (congrArg State.PH hbframe :).trans hrun
  obtain ⟨t, d', ht, htRSP, -, -, -, hleaf, htframe⟩ := deriveCompletesOnTree b hbrun htv htree
  refine ⟨t, ?_, derivedCodeIsPrefixFree b t hbrun htv htree ht, derivedTablesAreInverse b t hbrun htv htree ht,
    fun x hx => ?_, ?_, AllComplete.trans ⟨_, hbRSP, by simp⟩ ⟨_, htRSP, by simp⟩⟩
  · rw [execAll_cons hb, execAll_cons ht, execAll_nil]
  · obtain ⟨i, hi, hnode⟩ := ((buildLeavesAreTheCounts s b hrun hcount hb).1 x).1 hx
    exact (hleaf x).2 ⟨i, _, by rw [leafCount]; omega, hnode⟩
  · have hboth := congrArg (fun v : State => { v with
      NODE := s.NODE, NN := s.NN, ROOT := s.ROOT, TV := s.TV, CT := s.CT, ICT := s.ICT, RSP := s.RSP }) htframe
    exact hboth.trans (congrArg (fun v : State => { v with CT := s.CT, ICT := s.ICT }) hbframe :)

/-- Settles O42: the tally, the tree and the code from reset, then the round trip for the code derived. -/
theorem roundTripFromReset : Obligations.RoundTripFromReset := by
  intro text hne hroom
  obtain ⟨a, ha, hcount, haframe, haok⟩ := execAll_tally text (s := State.reset) rfl hroom
  have hft : ∀ x ∈ text, a.ft x ≠ 0 := by
    intro x hx he
    have hpos := List.count_pos_iff.2 hx
    rw [← hcount x, he] at hpos
    exact absurd hpos (by decide)
  have harun : a.PH = .run := (congrArg State.PH haframe :)
  obtain ⟨x, hx⟩ := List.exists_mem_of_ne_nil text hne
  obtain ⟨b, hb, hfree, hinv, hvalid, hbframe, hbok⟩ := execAll_build_derive harun ⟨x, hft x hx⟩
  have hab : execAll ((.fclr :: text.map .finc) ++ [.build, .derive]) State.reset = .next b :=
    (execAll_append ha _).trans hb
  have hbrun : b.PH = .run := (congrArg State.PH hbframe :).trans harun
  have hPK : b.PK = emptyPacker := (congrArg State.PK hbframe :).trans (congrArg State.PK haframe :)
  have hACC : b.ACC = emptyAcc := (congrArg State.ACC hbframe :).trans (congrArg State.ACC haframe :)
  have hEO : b.EO = [] := (congrArg State.EO hbframe :).trans (congrArg State.EO haframe :)
  have hDO : b.DO = [] := (congrArg State.DO hbframe :).trans (congrArg State.DO haframe :)
  obtain ⟨t, u, ht, hu, huDO, -, huACC, huok⟩ := execAll_roundTrip text hbrun (bitsOk_reset.execAll hab) hfree hinv
    (by rw [hPK]; rfl) (by rw [hACC]; exact accHolds_emptyAcc) fun y hy => hvalid y (hft y hy)
  obtain ⟨new, hnew, hok⟩ := (haok.trans hbok).trans huok
  rw [hEO, List.length_nil, List.drop_zero] at hu
  have hencode : execAll (encodeCommands text) State.reset = .next t := by
    rw [encodeCommands, List.append_assoc, execAll_append hab, ht]
  have hRSP : u.RSP = new := hnew.trans (List.nil_append new)
  exact ⟨t, u, hencode, hu, hRSP ▸ hok, by rw [huDO, hDO, List.nil_append], huACC⟩

end Sys2Proof.Machine
end

section
/-! The table port in sequence: a literal into CW chunk by chunk (30_encoding.md R101), and CT carried over into ICT
(45_table_port.md R191). -/

namespace Sys2Proof.Machine

theorem append_ofList {p g : List Bool} (hlen : p.length + g.length ≤ 255) :
    (BitStr.ofList p).append g = BitStr.ofList (p ++ g) := by
  have hp : p.length ≤ 255 := by omega
  have hroom : (BitStr.ofList p).len.toNat + g.length ≤ 255 := by rwa [BitStr.len_ofList hp]
  have hpg : (p ++ g).length ≤ 255 := by rwa [List.length_append]
  have hcan := BitStr.canonical_append (BitStr.canonical_ofList hp) hroom
  refine BitStr.eq_of_toList_eq hcan (BitStr.canonical_ofList hpg) ?_
  rw [BitStr.toList_append hroom, BitStr.toList_ofList hp, BitStr.toList_ofList hpg]

/-- CWAPP of one chunk appends the chunk (R181). -/
theorem exec_cwapp_chunk {s : State} (hrun : s.PH = .run) {p g : List Bool} (hcw : s.CW = BitStr.ofList p) (hg : g ≠ [])
    (hg32 : g.length ≤ 32) (hlen : p.length + g.length ≤ 255) :
    ∃ t, exec (.cwapp (BitVec.ofNat 8 g.length) (BitVec.ofNat 32 (natOfBits g))) s = .next t ∧ t.PH = .run ∧
      t.CW = BitStr.ofList (p ++ g) := by
  have hpos := List.length_pos_iff.2 hg
  have hn : (BitVec.ofNat 8 g.length).toNat = g.length := Nat.mod_eq_of_lt (by omega)
  have hlegal : legalBitCount (BitVec.ofNat 8 g.length) = true := (legalBitCount_iff _).2 (by omega)
  have hfits : s.CW.len.toNat + (BitVec.ofNat 8 g.length).toNat ≤ 255 := by
    rwa [hcw, BitStr.len_ofList (by omega), hn]
  refine ⟨_, exec_cwapp_of_fits hrun _ hlegal hfits, hrun, ?_⟩
  rw [answer_CW, bitsOf_chunk hg32, hcw, append_ofList hlen]

/-- The chunks of a bit-string, appended one after another, append it. -/
theorem execAll_perChunk_cwapp (c : List Bool) {s : State} (hrun : s.PH = .run) {p : List Bool}
    (hcw : s.CW = BitStr.ofList p) (hlen : p.length + c.length ≤ 255) :
    ∃ t, execAll (perChunk .cwapp c) s = .next t ∧ t.PH = .run ∧ t.CW = BitStr.ofList (p ++ c) := by
  induction hn : c.length using Nat.strongRecOn generalizing c s p with
  | ind n ih =>
    by_cases hc : c = []
    · subst hc
      exact ⟨s, rfl, hrun, by rwa [List.append_nil]⟩
    · have hpos := List.length_pos_iff.2 hc
      have htake : (c.take 32).length = min 32 c.length := List.length_take
      have hdrop : (c.drop 32).length = c.length - 32 := List.length_drop
      have hfirst : c.take 32 ≠ [] := List.ne_nil_of_length_pos (by omega)
      obtain ⟨u, hu, hurun, hucw⟩ := exec_cwapp_chunk hrun hcw hfirst (by omega) (by omega)
      obtain ⟨t, ht, htrun, htcw⟩ := ih (c.drop 32).length (by omega) (c.drop 32) hurun hucw
        (by rw [List.length_append]; omega) rfl
      rw [perChunk_of_ne_nil _ hc, execAll_cons hu]
      exact ⟨t, ht, htrun, by rw [htcw, List.append_assoc, List.take_append_drop]⟩

/-- Settles O59: CWCLR leaves the pair of the empty bit-string, to which the chunks are appended. -/
theorem cwsetLoadsTheLiteral : Obligations.CwsetLoadsTheLiteral := by
  intro s c hrun hlen
  obtain ⟨t, ht, htrun, htcw⟩ := execAll_perChunk_cwapp c (s := ({ s with CW := emptyStr } : State).answer 0 0) hrun
    (p := []) rfl (by simpa using hlen)
  exact ⟨t, by rw [Pseudo.expand, execAll_cons (exec_cwclr hrun), ht], htrun, htcw⟩

/-- Valid entries of two different Symbols with one codeword. -/
def SharedCode (s : State) : Prop :=
  ∃ x y, x ≠ y ∧ (s.ct x).valid = true ∧ (s.ct y).valid = true ∧ (s.ct x).code = (s.ct y).code

/-- A state in the middle of the transfer, with the Symbols of `done` carried over. -/
structure Transferred (done : List Sym) (s : State) : Prop where
  run  : s.PH = .run
  ict  : ∀ k x, s.ict k = some x ↔ x ∈ done ∧ (s.ct x).valid = true ∧ (s.ct x).code = k
  room : s.ICTN ≤ done.length

/-- CRD's answer says valid in bit 8 (R187). -/
theorem validByte_getLsbD (b : BitVec 8) : (0#55 ++ 1#1 ++ b : BitVec (55 + 1 + 8)).getLsbD 8 = true := by
  rw [BitVec.getLsbD_append, if_neg (by decide)]
  rfl

@[simp] theorem lastData_answer (s : State) (e : BitVec 4) (d : BitVec 64) : lastData (s.answer e d) = d := by
  simp [lastData]

/-- After an answer with bit 8 clear the Symbol is passed over. -/
theorem transferCodes_cons_of_skip {s t : State} {x : Sym} (hcrd : exec (.crd x) s = .next t)
    (hclear : (lastData t).getLsbD 8 = false) (xs : List Sym) : transferCodes (x :: xs) s = transferCodes xs t := by
  simp only [transferCodes, hcrd, hclear, Bool.false_eq_true, if_false]

/-- After an answer with bit 8 set comes ILD. -/
theorem transferCodes_cons_of_load {s t u : State} {x : Sym} (hcrd : exec (.crd x) s = .next t)
    (hset : (lastData t).getLsbD 8 = true) (hild : exec (.ild x) t = .next u) (xs : List Sym) :
    transferCodes (x :: xs) s = transferCodes xs u := by
  simp only [transferCodes, hcrd, hset, if_true, hild]

/-- In phase FAULT every command of the transfer is refused. -/
theorem transferCodes_of_fault (xs : List Sym) {s : State} (hfault : s.PH = .fault) :
    ∃ u, transferCodes xs s = .next u ∧ u.PH = .fault ∧ u.ERRCODE = s.ERRCODE := by
  induction xs generalizing s with
  | nil => exact ⟨s, rfl, hfault, rfl⟩
  | cons x xs ih =>
    obtain ⟨u, hu, huPH, hucode⟩ := ih (s := s.answer 15 0) hfault
    have hcrd : exec (.crd x) s = .next (s.answer 15 0) := exec_refused hfault rfl
    have hclear : (lastData (s.answer 15 0)).getLsbD 8 = false := by simp
    exact ⟨u, (transferCodes_cons_of_skip hcrd hclear xs).trans hu, huPH, hucode⟩

section Transfer

variable {done : List Sym} {s : State} (h : Transferred done s) {x : Sym}
include h

/-- A Symbol without a codeword is carried over by doing nothing to ICT. -/
theorem Transferred.skip (hvalid : (s.ct x).valid = false) {t : State} (hrun : t.PH = .run) (hct : t.CT = s.CT)
    (hict : t.ICT = s.ICT) : Transferred (done ++ [x]) t where
  run := hrun
  ict k y := by
    have hiff := h.ict k y
    have hne : (s.ct y).valid = true → y ≠ x := by
      rintro hy rfl
      exact absurd (hy.symm.trans hvalid) (by decide)
    simp only [State.ict, State.ct, hict, hct] at *
    rw [hiff, List.mem_append, List.mem_singleton]
    constructor
    · exact fun ⟨hy, hyv, hc⟩ => ⟨.inl hy, hyv, hc⟩
    · exact fun ⟨hy, hyv, hc⟩ => ⟨hy.resolve_right (hne hyv), hyv, hc⟩
  room := by
    have hroom := h.room
    simp only [State.ICTN, hict, List.length_append] at *
    omega

/-- A codeword that is no key yet is carried over by its insertion. -/
theorem Transferred.insert (hvalid : (s.ct x).valid = true) (hnew : s.ict (s.ct x).code = none) {t : State}
    (hrun : t.PH = .run) (hct : t.CT = s.CT) (hict : t.ICT = (s.insertIct (s.ct x).code x).ICT) :
    Transferred (done ++ [x]) t where
  run := hrun
  ict k y := by
    have hct' : t.ct y = s.ct y := by simp only [State.ct, hct]
    have hict' : t.ict k = if k = (s.ct x).code then some x else s.ict k :=
      (congrArg (fun T => Table.find? T k) hict).trans (insertIct_ict s _ x k)
    rw [hict', hct', List.mem_append, List.mem_singleton]
    split
    case isTrue hk =>
      subst hk
      constructor
      · intro hy
        cases hy
        exact ⟨.inr rfl, hvalid, rfl⟩
      · rintro ⟨hy | rfl, hyv, hc⟩
        · exact nomatch hnew.symm.trans ((h.ict _ y).2 ⟨hy, hyv, hc⟩)
        · rfl
    case isFalse hk =>
      rw [h.ict]
      constructor
      · exact fun ⟨hy, hyv, hc⟩ => ⟨.inl hy, hyv, hc⟩
      · rintro ⟨hy | rfl, hyv, hc⟩
        · exact ⟨hy, hyv, hc⟩
        · exact absurd hc.symm hk
  room := by
    have hroom := h.room
    have hone := insertIct_ICTN hnew x
    simp only [State.ICTN, hict, List.length_append, List.length_singleton] at *
    omega

/-- One Symbol is carried over, or its codeword is a key for another Symbol already and ILD faults (R189). -/
theorem Transferred.next (hbits : BitsOk s) (hx : x ∉ done) (hroom : done.length < 256) :
    ∃ u, (∀ xs, transferCodes (x :: xs) s = transferCodes xs u) ∧ BitsOk u ∧ u.CT = s.CT ∧
      (Transferred (done ++ [x]) u ∨ (SharedCode s ∧ u.PH = .fault ∧ u.ERRCODE = 4)) := by
  cases hvalid : (s.ct x).valid with
  | false =>
    have hcrd := exec_crd_of_not_valid h.run hvalid
    exact ⟨_, transferCodes_cons_of_skip hcrd (by simp), hbits.exec hcrd, rfl, .inl (h.skip hvalid h.run rfl rfl)⟩
  | true =>
    have hcrd := exec_crd_of_valid h.run hvalid
    have hset := validByte_getLsbD (s.ct x).code.len
    have hlen : (s.ct x).code.len ≠ 0 := by
      intro he
      have hpos := (hbits.ct x hvalid).1
      rw [he] at hpos
      exact absurd hpos (by decide)
    generalize ht : ({ s with CW := (s.ct x).code } : State).answer 0 _ = t at hcrd
    have htrun : t.PH = .run := by rw [← ht]; exact h.run
    have htcw : t.CW = (s.ct x).code := by rw [← ht]; rfl
    have htct : t.CT = s.CT := by rw [← ht]; rfl
    have htict : t.ICT = s.ICT := by rw [← ht]; rfl
    have hlast : (lastData t).getLsbD 8 = true := by rw [← ht, lastData_answer]; exact hset
    have hfind : t.ict t.CW = s.ict (s.ct x).code := by rw [htcw]; simp only [State.ict, htict]
    cases hheld : s.ict (s.ct x).code with
    | some y =>
      obtain ⟨hy, hyv, hc⟩ := (h.ict _ y).1 hheld
      have hne : y ≠ x := by
        rintro rfl
        exact hx hy
      have hild := exec_ild_duplicate htrun (x := x) (htcw ▸ hlen) (hfind.trans hheld) hne
      exact ⟨_, transferCodes_cons_of_load hcrd hlast hild, (hbits.exec hcrd).exec hild, htct,
        .inr ⟨⟨y, x, hne, hyv, hvalid, hc⟩, rfl, rfl⟩⟩
    | none =>
      have htroom : t.ICTN ≠ 256 := by
        have hle := h.room
        simp only [State.ICTN, htict] at *
        omega
      have hild := exec_ild_insert htrun x (htcw ▸ hlen) (hfind.trans hheld) htroom
      refine ⟨_, transferCodes_cons_of_load hcrd hlast hild, (hbits.exec hcrd).exec hild, htct,
        .inl (h.insert hvalid hheld htrun htct ?_)⟩
      rw [htcw, answer_ICT, State.insertIct, State.insertIct, htict]

end Transfer

theorem sharedCode_congr {s t : State} (hct : t.CT = s.CT) : SharedCode t ↔ SharedCode s := by
  simp only [SharedCode, State.ct, hct]

/-- Carrying over the rest of the Symbols either ends in phase RUN with all of them in ICT, or meets a codeword that two
Symbols share and ends in phase FAULT with DuplicateCodeError. -/
theorem transferCodes_spec (rest : List Sym) {done : List Sym} {s : State} (hbits : BitsOk s) (h : Transferred done s)
    (hnodup : (done ++ rest).Nodup) (hsize : (done ++ rest).length ≤ 256) :
    ∃ u, transferCodes rest s = .next u ∧
      ((Transferred (done ++ rest) u ∧ u.CT = s.CT) ∨ (SharedCode s ∧ u.PH = .fault ∧ u.ERRCODE = 4)) := by
  induction rest generalizing done s with
  | nil => exact ⟨s, rfl, .inl ⟨by rwa [List.append_nil], rfl⟩⟩
  | cons x xs ih =>
    have hx : x ∉ done := fun hmem => (List.nodup_append.1 hnodup).2.2 x hmem x List.mem_cons_self rfl
    have hroom : done.length < 256 := by
      rw [List.length_append, List.length_cons] at hsize
      omega
    obtain ⟨t, hnext, htbits, htct, ht | ⟨hshared, hfault, hcode⟩⟩ := h.next hbits hx hroom
    · rw [List.append_cons] at hnodup hsize ⊢
      obtain ⟨u, hu, hend⟩ := ih htbits ht hnodup hsize
      rw [sharedCode_congr htct, htct] at hend
      exact ⟨u, (hnext xs).trans hu, hend⟩
    · obtain ⟨u, hu, huPH, hucode⟩ := transferCodes_of_fault xs hfault
      exact ⟨u, (hnext xs).trans hu, .inr ⟨hshared, huPH, hucode.trans hcode⟩⟩

/-- After ICLR nothing has been carried over. -/
theorem transferred_iclr {s : State} (hrun : s.PH = .run) :
    Transferred [] (({ s with ICT := [] } : State).answer 0 0) where
  run := hrun
  ict k x := by simp [State.ict, State.answer]
  room := Nat.le_refl 0

/-- With every Symbol carried over ICT is the inverse of CT. -/
theorem Transferred.ictInverts {order : List Sym} {s : State} (h : Transferred order s) (hall : ∀ x, x ∈ order) :
    IctInverts s := fun k x => (h.ict k x).trans (and_iff_right (hall x))

/-- An inverse rules out a shared codeword. -/
theorem not_sharedCode_of_ictInverts {s : State} (hinv : IctInverts s) : ¬ SharedCode s := by
  rintro ⟨x, y, hne, hx, hy, hc⟩
  have hxk := (hinv _ x).2 ⟨hx, rfl⟩
  have hyk := (hinv _ y).2 ⟨hy, hc.symm⟩
  exact hne (Option.some.inj (hxk.symm.trans hyk))

/-- Settles O51: of the two ends of `transferCodes_spec` each clause rules one out. -/
theorem tableTransferInvertsCt : Obligations.TableTransferInvertsCt := by
  intro s order hrun hbits hperm
  have hiclr := exec_iclr hrun
  obtain ⟨u, hu, hend⟩ := transferCodes_spec order (hbits.exec hiclr) (transferred_iclr hrun)
    (by simpa using hperm.nodup_iff.2 nodup_allSyms) (by simpa using (hperm.length_eq.trans length_allSyms).le)
  refine ⟨_, u, hiclr, hu, fun hunique => ?_, fun hshared => ?_⟩
  · obtain ⟨hdone, hct⟩ | ⟨⟨x, y, hne, hx, hy, hc⟩, -⟩ := hend
    · exact ⟨hdone.run, hct, hdone.ictInverts fun x => hperm.mem_iff.2 (mem_allSyms x)⟩
    · exact absurd (hunique x y hx hy hc) hne
  · obtain ⟨hdone, hct⟩ | ⟨-, hfault⟩ := hend
    · have hinv := hdone.ictInverts fun x => hperm.mem_iff.2 (mem_allSyms x)
      exact absurd ((sharedCode_congr hct).2 hshared) (not_sharedCode_of_ictInverts hinv)
    · exact hfault

end Sys2Proof.Machine
end

section
/-! What the spec leaves unspecified is never observed (10_state.md R26, R29, R50): every read, every update and every
command keeps two states alike that agree on all else. -/

namespace Sys2Proof.Machine

/-- Two ends of a command or a step that show the same: the same stop, or next states that agree again. -/
inductive SameEnd : Result → Result → Prop
  | next {t t' : State} : SameVisible t t' → SameEnd (.next t) (.next t')
  | fault (r : Fault) : SameEnd (.fault r) (.fault r)

section Visible

variable {s s' : State} (h : SameVisible s s')
include h

/-! Reads. -/

theorem SameVisible.PH_eq : s.PH = s'.PH := h.faultRegs.1

theorem SameVisible.CW_eq : s.CW = s'.CW := h.registers.1

theorem SameVisible.PK_eq : s.PK = s'.PK := h.registers.2.1

theorem SameVisible.ACC_eq : s.ACC = s'.ACC := h.registers.2.2

theorem SameVisible.NN_eq : s.NN = s'.NN := h.treeRegs.1

theorem SameVisible.TV_eq : s.TV = s'.TV := h.treeRegs.2.2

theorem SameVisible.ict_eq : s.ict = s'.ict := by
  funext k
  rw [State.ict, h.inverse, State.ict]

theorem SameVisible.K_eq : s.K = s'.K := K_congr h.counts

theorem SameVisible.TOTAL_eq : s.TOTAL = s'.TOTAL := by simp only [State.TOTAL, h.counts]

theorem SameVisible.CTN_eq : s.CTN = s'.CTN := by simp only [State.CTN, h.valid]

theorem SameVisible.ICTN_eq : s.ICTN = s'.ICTN := congrArg List.length h.inverse

theorem SameVisible.csr_eq (n : BitVec 16) : csr s n = csr s' n := by
  obtain ⟨hPH, hcode, hcmd, hinfo⟩ := h.faultRegs
  obtain ⟨hnn, hroot, htv⟩ := h.treeRegs
  obtain ⟨hcw, hpk, hacc⟩ := h.registers
  simp only [csr, statusReg, treeInfoReg, ftInfoReg, tabInfoReg, regInfoReg, hPH, hcode, hcmd, hinfo, hnn, hroot, htv,
    hcw, hpk, hacc, h.K_eq, h.TOTAL_eq, h.CTN_eq, h.ICTN_eq]

/-- The walk reads no entry at or above NN. -/
theorem SameVisible.walk_eq (fuel : Nat) (ws : List (Idx × List Bool)) : walk s fuel ws = walk s' fuel ws := by
  induction fuel generalizing ws with
  | zero => cases ws <;> rfl
  | succ fuel ih =>
    cases ws with
    | nil => rfl
    | cons p ws =>
      simp only [walk, ← h.NN_eq]
      by_cases hi : s.NN.toNat ≤ p.1.toNat
      · rw [if_pos hi, if_pos hi]
      · simp only [if_neg hi, ← h.nodes p.1 (Nat.not_le.1 hi), ih]

theorem SameVisible.treeRecords_eq : treeRecords s = treeRecords s' := by
  simp only [treeRecords, ← h.NN_eq, ← h.treeRegs.2.1, h.walk_eq]
  by_cases hi : s.NN.toNat ≤ s.ROOT.toNat
  · rw [if_pos hi, if_pos hi]
  · simp only [if_neg hi, ← h.nodes s.ROOT (Nat.not_le.1 hi)]

/-! Updates. -/

theorem SameVisible.answer (e : BitVec 4) (d : BitVec 64) : SameVisible (s.answer e d) (s'.answer e d) := by
  obtain ⟨hEO, hDO, hRSP⟩ := h.streams
  exact { h with streams := ⟨hEO, hDO, by rw [answer_RSP, answer_RSP, hRSP]⟩ }

theorem SameVisible.faultEntry (w : Cmd) (e : CmdError) : SameVisible (faultEntry w e s) (faultEntry w e s') := by
  obtain ⟨hEO, hDO, hRSP⟩ := h.streams
  exact { h with
    faultRegs := ⟨rfl, rfl, rfl, rfl⟩
    streams := ⟨hEO, hDO, by rw [faultEntry_RSP, faultEntry_RSP, hRSP]⟩ }

theorem SameVisible.clearFault : SameVisible (clearFault s) (clearFault s') :=
  { h with faultRegs := ⟨rfl, rfl, rfl, rfl⟩ }

theorem SameVisible.advance : SameVisible (advance s) (advance s') :=
  { h with host := ⟨h.host.1, congrArg (· + 1) h.host.2⟩ }

theorem SameVisible.setFt (x : Sym) (v : Count) : SameVisible (s.setFt x v) (s'.setFt x v) :=
  { h with counts := fun y => by rw [setFt_ft, setFt_ft, h.counts] }

theorem SameVisible.clearFt : SameVisible { s with FT := [] } { s' with FT := [] } :=
  { h with counts := fun _ => rfl }

theorem SameVisible.setCt (x : Sym) (v : CodeEntry) : SameVisible (s.setCt x v) (s'.setCt x v) :=
  { h with
    valid := fun y => by
      rw [setCt_ct, setCt_ct]
      split
      · rfl
      · exact h.valid y
    codes := fun y => by
      rw [setCt_ct, setCt_ct]
      split
      · exact fun _ => rfl
      · exact h.codes y }

theorem SameVisible.clearCt : SameVisible s.clearCt s'.clearCt :=
  { h with
    valid := fun y => by rw [clearCt_ct, clearCt_ct]
    codes := fun y hy => by simp at hy }

theorem SameVisible.insertIct (c : BitStr) (x : Sym) : SameVisible (s.insertIct c x) (s'.insertIct c x) :=
  { h with inverse := by rw [State.insertIct, State.insertIct, h.inverse] }

theorem SameVisible.clearIct : SameVisible { s with ICT := [] } { s' with ICT := [] } := { h with inverse := rfl }

theorem SameVisible.setCw (c : BitStr) : SameVisible { s with CW := c } { s' with CW := c } :=
  { h with registers := ⟨rfl, h.PK_eq, h.ACC_eq⟩ }

theorem SameVisible.setPk (p : Packer) : SameVisible { s with PK := p } { s' with PK := p } :=
  { h with registers := ⟨h.CW_eq, rfl, h.ACC_eq⟩ }

theorem SameVisible.setAcc (a : Accumulator) : SameVisible { s with ACC := a } { s' with ACC := a } :=
  { h with registers := ⟨h.CW_eq, h.PK_eq, rfl⟩ }

theorem SameVisible.emitEO (b : BitVec 32) (n : BitVec 6) : SameVisible (s.emitEO b n) (s'.emitEO b n) := by
  obtain ⟨hEO, hDO, hRSP⟩ := h.streams
  exact { h with streams := ⟨by rw [emitEO_EO, emitEO_EO, hEO], hDO, hRSP⟩ }

theorem SameVisible.emitDO (x : Sym) : SameVisible (s.emitDO x) (s'.emitDO x) := by
  obtain ⟨hEO, hDO, hRSP⟩ := h.streams
  exact { h with streams := ⟨hEO, by rw [emitDO_DO, emitDO_DO, hDO], hRSP⟩ }

theorem SameVisible.softReset : SameVisible (softReset s) (softReset s') :=
  { h.clearFault.clearCt with
    counts := fun _ => rfl
    treeRegs := ⟨rfl, rfl, rfl⟩
    nodes := fun _ hi => absurd hi (Nat.not_lt_zero _)
    inverse := rfl
    registers := ⟨rfl, rfl, rfl⟩ }

theorem SameVisible.hardReset : SameVisible (hardReset s) (hardReset s') where
  faultRegs := ⟨rfl, rfl, rfl, rfl⟩
  counts _ := rfl
  treeRegs := ⟨rfl, rfl, rfl⟩
  nodes _ _ := rfl
  valid _ := rfl
  codes _ _ := rfl
  inverse := rfl
  registers := ⟨rfl, rfl, rfl⟩
  streams := ⟨rfl, rfl, rfl⟩
  host := h.host

/-! The long operations. -/

theorem SameVisible.pkAppend (x : Bool) : SameVisible (pkAppend s x) (pkAppend s' x) := by
  simp only [Machine.pkAppend, ← h.PK_eq]
  split
  · exact (h.emitEO _ _).setPk _
  · exact h.setPk _

theorem SameVisible.decBit (x : Bool) :
    SameVisible (decBit s x).1 (decBit s' x).1 ∧ (decBit s x).2 = (decBit s' x).2 := by
  unfold Machine.decBit
  rw [← h.ACC_eq, ← h.ict_eq]
  split
  · exact ⟨h, rfl⟩
  · split
    · exact ⟨h.setAcc _, rfl⟩
    · dsimp only
      cases s.ict (s.ACC.str.push x) with
      | none => exact ⟨h.setAcc _, rfl⟩
      | some r => exact ⟨(h.emitDO r).setAcc _, rfl⟩

/-- The arena BUILD installs is that of the counts, and nothing is read of the old one. -/
theorem SameVisible.build (hK : 1 ≤ s.K) :
    SameVisible (installTree s (builtNodes s)) (installTree s' (builtNodes s')) := by
  obtain ⟨hnn, hroot, hnode⟩ := built_congr hK h.counts
  exact {
    faultRegs := by simpa using h.faultRegs
    counts := by simpa using h.counts
    treeRegs := ⟨hnn, hroot, rfl⟩
    nodes := hnode
    valid := by simpa using h.valid
    codes := by simpa using h.codes
    inverse := by simpa using h.inverse
    registers := by simpa using h.registers
    streams := by simpa using h.streams
    host := by simpa using h.host }

theorem SameVisible.recordCode (r : CodeRecord) : SameVisible (recordCode s r) (recordCode s' r) :=
  (h.setCt _ _).insertIct _ _

end Visible

theorem SameVisible.pkAppends (l : List Bool) {s s' : State} (h : SameVisible s s') :
    SameVisible (l.foldl Machine.pkAppend s) (l.foldl Machine.pkAppend s') := by
  induction l generalizing s s' with
  | nil => exact h
  | cons x xs ih => exact ih (h.pkAppend x)

theorem SameVisible.decBits (l : List Bool) (m : Nat) {s s' : State} (h : SameVisible s s') :
    SameVisible (decBits s m l).1 (decBits s' m l).1 ∧ (decBits s m l).2 = (decBits s' m l).2 := by
  induction l generalizing s s' m with
  | nil => exact ⟨h, rfl⟩
  | cons x xs ih =>
    obtain ⟨h1, h2⟩ := h.decBit x
    rw [Machine.decBits, Machine.decBits, h2]
    exact ih _ h1

theorem SameVisible.installCodes (out : List CodeRecord) {s s' : State} (h : SameVisible s s') :
    SameVisible (installCodes s out) (installCodes s' out) := by
  have hfold : ∀ {t t' : State}, SameVisible t t' →
      SameVisible (out.foldl Machine.recordCode t) (out.foldl Machine.recordCode t') := by
    induction out with
    | nil => exact id
    | cons r out ih => exact fun ht => ih (ht.recordCode r)
  exact hfold h.clearCt.clearIct

/-- A test that both states decide alike. -/
theorem SameVisible.ite {p p' : Prop} [Decidable p] [Decidable p'] (hp : p ↔ p') {a a' b b' : State}
    (ha : p → SameVisible a a') (hb : ¬ p → SameVisible b b') :
    SameVisible (if p then a else b) (if p' then a' else b') := by
  by_cases hpos : p
  · rw [if_pos hpos, if_pos (hp.1 hpos)]
    exact ha hpos
  · rw [if_neg hpos, if_neg (mt hp.2 hpos)]
    exact hb hpos

theorem SameVisible.treeInfoReg_eq {s s' : State} (h : SameVisible s s') : treeInfoReg s = treeInfoReg s' := by
  obtain ⟨hnn, hroot, -⟩ := h.treeRegs
  simp only [treeInfoReg, hnn, hroot]

/-- A legal index of NRD is an index below NN (20_memory.md R62). -/
theorem nodeIndex_lt {i : BitVec 16} {nn : Idx} (hi : legalNode i nn = true) : (nodeIndex i).toNat < nn.toNat := by
  have hlt := (legalNode_iff i nn).1 hi
  have hnn := nn.isLt
  rw [nodeIndex, BitVec.toNat_setWidth]
  omega

section Run

variable {s s' : State} (h : SameVisible s s') (hrun : s.PH = .run) (hrun' : s'.PH = .run)
include h hrun hrun'

theorem SameVisible.exec_csrr (n : BitVec 16) : SameEnd (exec (.csrr n) s) (exec (.csrr n) s') := by
  cases hv : csr s n with
  | none =>
    have hn := (csr_eq_none_iff s n).1 hv
    rw [exec_csrr_unassigned hrun hn, exec_csrr_unassigned hrun' hn]
    exact .next (h.faultEntry _ _)
  | some v =>
    rw [Machine.exec_csrr hv, Machine.exec_csrr ((h.csr_eq n).symm.trans hv)]
    exact .next (h.answer 0 v)

theorem SameVisible.exec_build : SameEnd (exec .build s) (exec .build s') := by
  rw [Machine.exec_build hrun, Machine.exec_build hrun']
  refine .next (.ite (by rw [h.K_eq]) (fun _ => h.faultEntry _ _) fun hK => ?_)
  have hbuilt := h.build (Nat.one_le_iff_ne_zero.2 hK)
  rw [hbuilt.treeInfoReg_eq]
  exact hbuilt.answer 0 _

theorem SameVisible.exec_nrd (i : BitVec 16) : SameEnd (exec (.nrd i) s) (exec (.nrd i) s') := by
  rw [Machine.exec_nrd hrun, Machine.exec_nrd hrun', ← h.TV_eq, ← h.NN_eq]
  refine .next (.ite Iff.rfl (fun _ => h.faultEntry _ _) fun _ => .ite Iff.rfl (fun _ => h.faultEntry _ _) fun hi => ?_)
  rw [h.nodes _ (nodeIndex_lt (Bool.not_eq_false _ ▸ hi))]
  exact h.answer 0 _

theorem SameVisible.exec_derive : SameEnd (exec .derive s) (exec .derive s') := by
  cases htv : s.TV with
  | false =>
    rw [exec_derive_no_tree hrun htv, exec_derive_no_tree hrun' (h.TV_eq.symm.trans htv)]
    exact .next (h.faultEntry _ _)
  | true =>
    have htv' := h.TV_eq.symm.trans htv
    cases hout : treeRecords s with
    | none =>
      rw [exec_derive_undefined hrun htv hout, exec_derive_undefined hrun' htv' (h.treeRecords_eq.symm.trans hout)]
      exact .fault _
    | some out =>
      have hcodes := h.installCodes out
      rw [Machine.exec_derive hrun htv hout, Machine.exec_derive hrun' htv' (h.treeRecords_eq.symm.trans hout),
        hcodes.CTN_eq]
      exact .next (hcodes.answer 0 _)

theorem SameVisible.exec_enc (x : Sym) : SameEnd (exec (.enc x) s) (exec (.enc x) s') := by
  rw [Machine.exec_enc hrun, Machine.exec_enc hrun', ← h.valid x]
  refine .next (.ite Iff.rfl (fun _ => h.faultEntry _ _) fun hx => ?_)
  rw [← h.codes x (Bool.not_eq_false _ ▸ hx)]
  exact (h.pkAppends _).answer 0 _

theorem SameVisible.exec_eflush : SameEnd (exec .eflush s) (exec .eflush s') := by
  rw [Machine.exec_eflush hrun, Machine.exec_eflush hrun', ← h.PK_eq]
  exact .next (((SameVisible.ite Iff.rfl (fun _ => h.emitEO _ _) fun _ => h).setPk _).answer 0 _)

theorem SameVisible.exec_dbits (n : BitVec 8) (imm : BitVec 32) :
    SameEnd (exec (.dbits n imm) s) (exec (.dbits n imm) s') := by
  obtain ⟨hstate, hcount⟩ := h.decBits (bitsOf imm n.toNat) 0
  rw [Machine.exec_dbits hrun, Machine.exec_dbits hrun', hcount]
  exact .next (.ite Iff.rfl (fun _ => h.faultEntry _ _) fun _ => hstate.answer 0 _)

theorem SameVisible.exec_crd (x : Sym) : SameEnd (exec (.crd x) s) (exec (.crd x) s') := by
  rw [Machine.exec_crd hrun, Machine.exec_crd hrun', ← h.valid x]
  refine .next (.ite Iff.rfl (fun hx => ?_) fun _ => (h.setCw _).answer 0 _)
  rw [← h.codes x hx]
  exact (h.setCw _).answer 0 _

theorem SameVisible.exec_ild (x : Sym) : SameEnd (exec (.ild x) s) (exec (.ild x) s') := by
  have hlook : s'.ict s'.CW = s.ict s.CW := by rw [← h.ict_eq, ← h.CW_eq]
  by_cases hlen : s.CW.len = 0
  · rw [exec_ild_empty hrun x hlen, exec_ild_empty hrun' x (h.CW_eq ▸ hlen)]
    exact .next (h.faultEntry _ _)
  have hlen' : s'.CW.len ≠ 0 := h.CW_eq ▸ hlen
  cases hheld : s.ict s.CW with
  | some y =>
    rw [exec_ild_held hrun x y hlen hheld, exec_ild_held hrun' x y hlen' (hlook.trans hheld)]
    exact .next (.ite Iff.rfl (fun _ => h.answer 0 0) fun _ => h.faultEntry _ _)
  | none =>
    rw [exec_ild_new hrun x hlen hheld, exec_ild_new hrun' x hlen' (hlook.trans hheld), ← h.CW_eq, ← h.ICTN_eq]
    exact .next (.ite Iff.rfl (fun _ => h.faultEntry _ _) fun _ => (h.insertIct _ x).answer 0 1)

theorem SameVisible.exec_ilk : SameEnd (exec .ilk s) (exec .ilk s') := by
  have hlook : s'.ict s'.CW = s.ict s.CW := by rw [← h.ict_eq, ← h.CW_eq]
  by_cases hmiss : s.CW.len = 0 ∨ s.ict s.CW = none
  · rw [exec_ilk_miss hrun hmiss, exec_ilk_miss hrun' (by rwa [hlook, ← h.CW_eq])]
    exact .next (h.answer 0 0)
  · rw [not_or] at hmiss
    obtain ⟨x, hx⟩ := Option.ne_none_iff_exists'.1 hmiss.2
    rw [exec_ilk_hit hrun x hmiss.1 hx, exec_ilk_hit hrun' x (h.CW_eq ▸ hmiss.1) (hlook.trans hx)]
    exact .next (h.answer 0 _)

theorem SameVisible.exec_of_run (i : Instr) : SameEnd (exec i s) (exec i s') := by
  cases i with
  | nop => exact .next (h.answer 0 0)
  | srst => exact .next (h.softReset.answer 0 0)
  | eclr => exact .next (h.clearFault.answer 0 0)
  | csrr n => exact h.exec_csrr hrun hrun' n
  | fclr =>
    rw [exec_fclr hrun, exec_fclr hrun']
    exact .next (h.clearFt.answer 0 0)
  | fset x count =>
    rw [exec_fset hrun, exec_fset hrun']
    exact .next ((h.setFt x count).answer 0 0)
  | finc x =>
    rw [exec_finc hrun, exec_finc hrun', ← h.counts x]
    exact .next (.ite Iff.rfl (fun _ => h.faultEntry _ _) fun _ => (h.setFt x _).answer 0 _)
  | frd x =>
    rw [exec_frd hrun, exec_frd hrun', ← h.counts x]
    exact .next (h.answer 0 _)
  | build => exact h.exec_build hrun hrun'
  | nrd n => exact h.exec_nrd hrun hrun' n
  | derive => exact h.exec_derive hrun hrun'
  | enc x => exact h.exec_enc hrun hrun' x
  | eflush => exact h.exec_eflush hrun hrun'
  | dbits n imm => exact h.exec_dbits hrun hrun' n imm
  | dend =>
    rw [exec_dend hrun, exec_dend hrun', ← h.ACC_eq]
    exact .next (.ite Iff.rfl (fun _ => h.faultEntry _ _) fun _ => h.answer 0 0)
  | drst =>
    rw [exec_drst hrun, exec_drst hrun']
    exact .next ((h.setAcc _).answer 0 0)
  | cwclr =>
    rw [exec_cwclr hrun, exec_cwclr hrun']
    exact .next ((h.setCw _).answer 0 0)
  | cwapp n imm =>
    rw [exec_cwapp hrun, exec_cwapp hrun', ← h.CW_eq]
    exact .next (.ite Iff.rfl (fun _ => h.faultEntry _ _) fun _ =>
      .ite Iff.rfl (fun _ => h.faultEntry _ _) fun _ => (h.setCw _).answer 0 _)
  | cwrd j =>
    rw [exec_cwrd hrun, exec_cwrd hrun', ← h.CW_eq]
    exact .next (.ite Iff.rfl (fun _ => h.faultEntry _ _) fun _ => h.answer 0 _)
  | cclr =>
    rw [exec_cclr hrun, exec_cclr hrun']
    exact .next (h.clearCt.answer 0 0)
  | cld x =>
    rw [exec_cld hrun, exec_cld hrun', ← h.CW_eq]
    exact .next (.ite Iff.rfl (fun _ => h.faultEntry _ _) fun _ => (h.setCt x _).answer 0 0)
  | crd x => exact h.exec_crd hrun hrun' x
  | iclr =>
    rw [exec_iclr hrun, exec_iclr hrun']
    exact .next (h.clearIct.answer 0 0)
  | ild x => exact h.exec_ild hrun hrun' x
  | ilk => exact h.exec_ilk hrun hrun'

end Run

section Visible

variable {s s' : State} (h : SameVisible s s')
include h

/-- The commands that execute in phase FAULT (R224). -/
theorem SameVisible.exec_of_executesInFault {i : Instr} (hi : executesInFault i = true) :
    SameEnd (exec i s) (exec i s') := by
  cases i <;> simp only [executesInFault, Bool.false_eq_true] at hi
  case nop => exact .next (h.answer 0 0)
  case srst => exact .next (h.softReset.answer 0 0)
  case eclr => exact .next (h.clearFault.answer 0 0)
  case csrr n =>
    obtain ⟨v, hv⟩ := exists_csr_eq_some s (of_decide_eq_true hi)
    rw [Machine.exec_csrr hv, Machine.exec_csrr ((h.csr_eq n).symm.trans hv)]
    exact .next (h.answer 0 v)

/-- Every command shows the same in both states. -/
theorem SameVisible.exec (i : Instr) : SameEnd (exec i s) (exec i s') := by
  cases hPH : s.PH with
  | run => exact h.exec_of_run hPH (h.PH_eq.symm.trans hPH) i
  | fault =>
    cases hi : executesInFault i with
    | true => exact h.exec_of_executesInFault hi
    | false =>
      rw [exec_refused hPH hi, exec_refused (h.PH_eq.symm.trans hPH) hi]
      exact .next (h.answer 15 0)

theorem SameVisible.illegalWord (w : Cmd) (cause : IllegalCause) :
    SameVisible (illegalWord w cause s) (illegalWord w cause s') := by
  rw [Machine.illegalWord, Machine.illegalWord, whenRun, whenRun, ← h.PH_eq]
  cases s.PH with
  | run => exact h.faultEntry _ _
  | fault => exact h.answer 15 0

theorem SameVisible.acceptWord (w : Cmd) : SameEnd (acceptWord w s) (acceptWord w s') := by
  cases hdec : decode w with
  | ok i =>
    rw [acceptWord_of_decode_ok hdec, acceptWord_of_decode_ok hdec]
    exact h.exec i
  | error cause =>
    rw [acceptWord_of_decode_error hdec, acceptWord_of_decode_error hdec]
    exact .next (h.illegalWord w cause)

/-- The host presents the same to both, and so every step shows the same. -/
theorem SameVisible.step : SameEnd (step s) (step s') := by
  have hnext : nextAction s' = nextAction s := by rw [nextAction, nextAction, h.host.1, h.host.2]
  rw [Machine.step, Machine.step, hnext]
  cases nextAction s with
  | none => exact .next h
  | some a =>
    cases a with
    | reset => exact .next h.advance.hardReset
    | command w => exact h.advance.acceptWord w

end Visible

/-- Settles O58: the two ends of `SameVisible.step`, taken apart. -/
theorem unspecifiedContentIsUnobservable : Obligations.UnspecifiedContentIsUnobservable := by
  intro s s' h
  have hend := h.step
  constructor
  · intro t ht
    rw [ht] at hend
    generalize step s' = r at hend ⊢
    cases hend with
    | next hvis => exact ⟨_, rfl, hvis⟩
  · intro f hf
    rw [hf] at hend
    generalize step s' = r at hend ⊢
    cases hend
    rfl

end Sys2Proof.Machine
end
